-- ==== Sys2Proof/Word.lean ====
section
/-! DEFINITION. The value types of HUFFCODEC: symbols, registers, counts, code vectors, bitstrings (log 18). -/

namespace Sys2Proof

/-- A Symbol, and any 8-bit memory element (00_scope.md R6: `SYMW` = 8). -/
abbrev Byte := BitVec 8

/-- A host-visible register (00_scope.md R6: `REGW` = 32). -/
abbrev Reg := BitVec 32

/-- A frequency (00_scope.md R6: `CNTW` = 16). -/
abbrev Count := BitVec 16

/-- A `CBITS` element (10_state.md R32: `LMAX` = 255 positions); position k is bit k of the vector. -/
abbrev CodeBits := BitVec 255

/-- A value of `PHASE` (10_state.md R25). -/
abbrev PhaseCode := BitVec 5

/-- A bitstring, first bit first (00_scope.md R9). -/
abbrev Bits := List Bool

end Sys2Proof
end

