-- ==== Sys2Proof/Config.lean ====
section
/-! DEFINITION. The implementation parameters of 00_scope.md R6 and the values the spec leaves unspecified. -/

namespace Sys2Proof.Config

/-- Number of distinct symbol values (00_scope.md R6). -/
abbrev ALPHA : Nat := 256

/-- Most symbols in a text (00_scope.md R6). -/
abbrev NMAX : Nat := 65535

/-- Most bytes in the packed stream (00_scope.md R6). -/
abbrev PMAX : Nat := 65535

/-- Most bits in one code (00_scope.md R6). -/
abbrev LMAX : Nat := 255

/-- Entries in the node arena (00_scope.md R6). -/
abbrev NODES : Nat := 512

/-- Number of host-visible registers (10_state.md R21). -/
abbrev REGS : Nat := 8

/-- What an element of `TEXT` holds that nothing has written since the memory's contents last became
unspecified (10_state.md R44, 60_exceptions.md R159): a free value of the epoch and the index (log 1, 2). -/
opaque freeText : Nat → Nat → Byte

/-- The same for `PACKED` (10_state.md R44, 60_exceptions.md R159; log 1, 2). -/
opaque freePacked : Nat → Nat → Byte

/-- The same for `CBITS` (10_state.md R44, 60_exceptions.md R159; log 1, 2). -/
opaque freeCbits : Nat → Nat → CodeBits

/-- The same for `FREQ` (10_state.md R44; log 4). -/
opaque freeFreq : Nat → Nat → Count

/-- The value of the n-th host read that the spec calls unspecified: an index outside its space
(20_memory.md R57) or a data read while busy (70_reset_and_hazards.md R180); log 7, 8. A narrower element
takes its low bits. -/
opaque freeRead : Nat → CodeBits

end Sys2Proof.Config
end

