-- ==== Sys2Proof/Syntax.lean ====
section
/-! DEFINITION. The operations of HUFFCODEC, one constructor per row of the opcode table, and the two
operation-selecting formats. -/

namespace Sys2Proof

/-- The formats of the opcode table (30_encoding.md R70, R74). -/
inductive Format where
  | cmdw       -- the 32-bit command word (R71)
  | phase5     -- the 5-bit phase code (R74)
  | primitive  -- called from inside micro-operations, no encoding (R74)
  deriving DecidableEq, Repr

/-- The operations (30_encoding.md R72 to R74; log 21). -/
inductive Instr where
  /-- Command word 0x00000001 written to `CMD` (43_compress_bitpacker.md R117). -/
  | compress
  /-- Command word 0x00000002 written to `CMD` (44_decompress.md R130). -/
  | decompress
  /-- Any other word written to `CMD`, by its two fields (30_encoding.md R71, R73; 60_exceptions.md R154). -/
  | illegal (zero : BitVec 24) (op : BitVec 8)
  | idle
  | cStart
  | ftBuild
  | tbLoad
  | tbMerge
  | tbWrap
  | tbFinish
  | caAssign
  | bpConcat
  | bpPad
  | bpPack
  | dStart
  | dMapcheck
  | dInvert
  | dMeta
  | buUnpack
  | srScan
  /-- `PQ.INSERT(n)` (41_tree_builder.md R95). -/
  | pqInsert (n : Nat)
  /-- `PQ.EXTRACTMIN()` (41_tree_builder.md R96). -/
  | pqExtractmin
  deriving DecidableEq, Repr

/-- The format of an operation's row. -/
def Instr.format : Instr → Format
  | .compress => .cmdw
  | .decompress => .cmdw
  | .illegal _ _ => .cmdw
  | .idle => .phase5
  | .cStart => .phase5
  | .ftBuild => .phase5
  | .tbLoad => .phase5
  | .tbMerge => .phase5
  | .tbWrap => .phase5
  | .tbFinish => .phase5
  | .caAssign => .phase5
  | .bpConcat => .phase5
  | .bpPad => .phase5
  | .bpPack => .phase5
  | .dStart => .phase5
  | .dMapcheck => .phase5
  | .dInvert => .phase5
  | .dMeta => .phase5
  | .buUnpack => .phase5
  | .srScan => .phase5
  | .pqInsert _ => .primitive
  | .pqExtractmin => .primitive

/-- The bits that select an operation: a word written to `CMD`, or the value of `PHASE`
(30_encoding.md R70: the only two instruction formats, each of one fixed length). -/
inductive OpWord where
  | command (w : Reg)
  | phase (p : PhaseCode)
  deriving DecidableEq, Repr

/-- The format a word belongs to. -/
def OpWord.format : OpWord → Format
  | .command _ => .cmdw
  | .phase _ => .phase5

end Sys2Proof
end

