-- ==== Sys2Proof/WellFormed.lean ====
section
/-! DEFINITION. Which terms of `Instr` are operations of the hardware. -/

namespace Sys2Proof

/-- `ILLEGAL` stands for every command word but 0x00000001 and 0x00000002 (30_encoding.md R73), and
`PQ.INSERT` takes an arena index (41_tree_builder.md R95, 10_state.md R35). -/
def Instr.wellFormed : Instr → Bool
  | .illegal zero op => !(zero == 0 && (op == 1 || op == 2))
  | .pqInsert n => decide (n < Config.NODES)
  | .compress => true
  | .decompress => true
  | .idle => true
  | .cStart => true
  | .ftBuild => true
  | .tbLoad => true
  | .tbMerge => true
  | .tbWrap => true
  | .tbFinish => true
  | .caAssign => true
  | .bpConcat => true
  | .bpPad => true
  | .bpPack => true
  | .dStart => true
  | .dMapcheck => true
  | .dInvert => true
  | .dMeta => true
  | .buUnpack => true
  | .srScan => true
  | .pqExtractmin => true

end Sys2Proof
end

