-- ==== Sys2Proof/Decode.lean ====
section
/-! DEFINITION. The command decoder and the phase decoder, and after them the encoder. -/

namespace Sys2Proof

/-- Why a word selects no operation. -/
inductive DecodeReject where
  /-- A phase code 17 to 31; these never occur (30_encoding.md R74). -/
  | phaseNeverOccurs (p : PhaseCode)
  deriving DecidableEq, Repr

/-- The command decoder compares all 32 bits; its last arm takes every other word (30_encoding.md R72, R73). -/
def decodeCommand (w : Reg) : Instr :=
  if w = 0x00000001#32 then .compress
  else if w = 0x00000002#32 then .decompress
  else .illegal (w.extractLsb' 8 24) (w.extractLsb' 0 8)

/-- The phase decoder (30_encoding.md R74). -/
def decodePhase (p : PhaseCode) : Except DecodeReject Instr :=
  match p.toNat with
  | 0 => .ok .idle
  | 1 => .ok .cStart
  | 2 => .ok .ftBuild
  | 3 => .ok .tbLoad
  | 4 => .ok .tbMerge
  | 5 => .ok .tbWrap
  | 6 => .ok .tbFinish
  | 7 => .ok .caAssign
  | 8 => .ok .bpConcat
  | 9 => .ok .bpPad
  | 10 => .ok .bpPack
  | 11 => .ok .dStart
  | 12 => .ok .dMapcheck
  | 13 => .ok .dInvert
  | 14 => .ok .dMeta
  | 15 => .ok .buUnpack
  | 16 => .ok .srScan
  | _ => .error (.phaseNeverOccurs p)

/-- The decoder, total on both formats. -/
def decode : OpWord → Except DecodeReject Instr
  | .command w => .ok (decodeCommand w)
  | .phase p => decodePhase p

/-- The decoder on an opcode-table word: `CMDW` rows have 32 bits, `PHASE5` rows 5 (8 in whole bytes, the
bits above 4 being 0). No other length is a format of the block (30_encoding.md R70). -/
def decodeTableWord (nbits w : Nat) : Option Instr :=
  if nbits = 32 then
    if w < 2 ^ 32 then some (decodeCommand (BitVec.ofNat 32 w)) else none
  else if nbits = 8 ∨ nbits = 5 then
    if w < 2 ^ 5 then (decodePhase (BitVec.ofNat 5 w)).toOption else none
  else none

/-- The encoder: the word that selects an operation, from the opcode table's encoding column. A command word
is its `zero` field above its `op` field (30_encoding.md R71); a phase code is a binary numeral of 5 bits (R74);
the two queue primitives have no encoding (R74, 41_tree_builder.md R95, R96). -/
def encode : Instr → Option OpWord
  | .compress => some (.command (0x000000#24 ++ 0x01#8))
  | .decompress => some (.command (0x000000#24 ++ 0x02#8))
  | .illegal zero op => some (.command (zero ++ op))
  | .idle => some (.phase 0b00000#5)
  | .cStart => some (.phase 0b00001#5)
  | .ftBuild => some (.phase 0b00010#5)
  | .tbLoad => some (.phase 0b00011#5)
  | .tbMerge => some (.phase 0b00100#5)
  | .tbWrap => some (.phase 0b00101#5)
  | .tbFinish => some (.phase 0b00110#5)
  | .caAssign => some (.phase 0b00111#5)
  | .bpConcat => some (.phase 0b01000#5)
  | .bpPad => some (.phase 0b01001#5)
  | .bpPack => some (.phase 0b01010#5)
  | .dStart => some (.phase 0b01011#5)
  | .dMapcheck => some (.phase 0b01100#5)
  | .dInvert => some (.phase 0b01101#5)
  | .dMeta => some (.phase 0b01110#5)
  | .buUnpack => some (.phase 0b01111#5)
  | .srScan => some (.phase 0b10000#5)
  | .pqInsert _ => none
  | .pqExtractmin => none

/-- The value written to `PHASE` when micro-operation i is to be executed next (`PHASE <- i`,
00_scope.md R10, 30_encoding.md R82); `IDLE` for an operation that has no phase code. -/
def phaseOf (i : Instr) : PhaseCode :=
  match encode i with
  | some (.phase p) => p
  | some (.command _) => 0#5
  | none => 0#5

end Sys2Proof
end

