-- ==== Sys2Proof/Machine/State.lean ====
section
/-! DEFINITION. The state of HUFFCODEC, the reasons a step stops, and the state after reset. -/

namespace Sys2Proof.Machine

/-- The cause codes (60_exceptions.md R151): `none` 0, `malformedPayload` 1, `invalidCodeMap` 2,
`illegalCommand` 3, `capacityExceeded` 4. -/
inductive ErrCode where
  | none
  | malformedPayload
  | invalidCodeMap
  | illegalCommand
  | capacityExceeded
  deriving DecidableEq, Repr

/-- A PrefixTreeNode record of the arena (10_state.md R35); an absent child is `none`. -/
inductive Node where
  | leaf (sym : Byte) (freq : Count)
  | internal (freq : Count) (left right : Option Nat)
  deriving DecidableEq, Repr

/-- A memory of w-bit elements: the listed elements by rising index, and what an unlisted one reads as,
which is 0 where `zeroed` and otherwise unspecified: a free value of the memory's `epoch`, the number of times
its contents have become unspecified (10_state.md R44, 60_exceptions.md R159; log 1, 2). -/
structure Memory (w : Nat) where
  cells : List (Nat × BitVec w)
  zeroed : Bool
  epoch : Nat
  deriving DecidableEq, Repr

/-- The five host-visible spaces (20_memory.md R50). -/
inductive Space where
  | reg
  | text
  | packed
  | clen
  | cbits
  deriving DecidableEq, Repr

/-- A value a host read returns, of the width of its space (20_memory.md R50, R55). -/
inductive HostData where
  | word (v : Reg)
  | byte (v : Byte)
  | code (v : CodeBits)
  deriving DecidableEq, Repr

/-- What the host does next (00_scope.md R12, 30_encoding.md R81, 70_reset_and_hazards.md R176; log 5). -/
inductive HostEvent where
  /-- `HostWrite(REG, index, value)`. -/
  | writeReg (index : Nat) (value : Reg)
  /-- `HostWrite(TEXT, index, value)`. -/
  | writeText (index : Nat) (value : Byte)
  /-- `HostWrite(PACKED, index, value)`. -/
  | writePacked (index : Nat) (value : Byte)
  /-- `HostWrite(CLEN, index, value)`. -/
  | writeClen (index : Nat) (value : Byte)
  /-- `HostWrite(CBITS, index, value)`. -/
  | writeCbits (index : Nat) (value : CodeBits)
  /-- `HostRead(space, index)`. -/
  | read (space : Space) (index : Nat)
  /-- The host waits while the engine executes one micro-operation. -/
  | engine
  /-- `WAIT`: the host reads `STATUS` until `DONE` is 1, the engine taking a turn after each other read. -/
  | wait
  /-- The reset event. -/
  | reset
  deriving DecidableEq, Repr

structure State where
  /-- `STATUS.BUSY` (10_state.md R23). -/
  busy : Bool
  /-- `STATUS.DONE` (10_state.md R23). -/
  done : Bool
  /-- `STATUS.ERRF` (10_state.md R23). -/
  errf : Bool
  /-- `ERR` (10_state.md R24). -/
  err : ErrCode
  /-- `PHASE` (10_state.md R25, R43). -/
  phase : PhaseCode
  /-- `TEXT_LEN` (10_state.md R26). -/
  textLen : Reg
  /-- `PACKED_LEN` (10_state.md R27). -/
  packedLen : Reg
  /-- `PADBITS` (10_state.md R28). -/
  padBits : Reg
  /-- `BITCOUNT` (10_state.md R29). -/
  bitCount : Reg
  /-- `TEXT` (10_state.md R30). -/
  text : Memory 8
  /-- `PACKED` (10_state.md R31). -/
  packed : Memory 8
  /-- `CLEN` (10_state.md R32). -/
  clen : Memory 8
  /-- `CBITS` (10_state.md R32). -/
  cbits : Memory 255
  /-- `FREQ` (10_state.md R34). -/
  freq : Memory 16
  /-- `NODE`: its allocated records by rising index (10_state.md R35; log 10). -/
  node : List (Nat × Node)
  /-- `PQ`: its members in rising order (10_state.md R37). -/
  pq : List Nat
  /-- `NLEAF` (10_state.md R38). -/
  nleaf : Nat
  /-- `NNEXT` (10_state.md R38). -/
  nnext : Nat
  /-- `ROOT` (10_state.md R38). -/
  root : Nat
  /-- `BITS` (10_state.md R39). -/
  bits : Bits
  /-- `REV`, as the list of its pairs (10_state.md R40, 44_decompress.md R133). -/
  rev : List (Bits × Byte)
  /-- `BUF` (10_state.md R40). -/
  buf : Bits
  /-- `OUTPOS` (10_state.md R40). -/
  outpos : Nat
  /-- The traversal stack of the code assigner, top first (10_state.md R40). -/
  walkStack : List (Nat × Bits)
  /-- The model's own: what PQ.EXTRACTMIN returned when run as an operation of its own (log 9). -/
  pqOut : Option Nat
  /-- The model's own: the host's pending actions, oldest first (log 5). -/
  inputs : List HostEvent
  /-- The model's own: what the last host read returned (log 9). -/
  readData : Option HostData
  /-- The model's own: how many unspecified values host reads have drawn (log 9). -/
  draws : Nat
  deriving DecidableEq, Repr

/-- A stop of the machine on an access that does not exist. -/
inductive Fault where
  /-- Raised by FT.BUILD, BP.CONCAT, BP.PACK and BU.UNPACK on an element outside its space, which the engine
  never accesses in a run (20_memory.md R57; log 16). Safe: the machine stops. -/
  | noSuchElement (space : Space)
  deriving DecidableEq, Repr

/-- Why an operation has no meaning in a state. Each is safe: the machine stops. -/
inductive Refusal where
  /-- Raised by exec for an operation that has no meaning yet. Safe. -/
  | notModelled (mnemonic : String)
  /-- Raised by the fetch on a phase code 17 to 31 (30_encoding.md R74). Safe. -/
  | phaseNeverOccurs
  /-- Raised by TB.LOAD on an empty frequency table (41_tree_builder.md R102, 93_implementation_defined.md U2;
  log 12). Safe. -/
  | emptyFrequencyTable
  /-- Raised by PQ.EXTRACTMIN and its callers on an empty queue (41_tree_builder.md R96; log 11). Safe. -/
  | queueEmpty
  /-- Raised by PQ.EXTRACTMIN, its callers and CA.ASSIGN on a node that is not allocated (10_state.md R35;
  log 10). Safe. -/
  | nodeUnallocated
  /-- Raised by TB.MERGE and TB.WRAP when `NNEXT` is past the arena (41_tree_builder.md R98; log 11). Safe. -/
  | arenaFull
  /-- Raised by CA.ASSIGN on an arena whose walk from `ROOT` visits more nodes than the arena holds, so that is
  no tree (42_code_assigner.md R110; log 13). Safe. -/
  | notATree
  /-- Raised by CA.ASSIGN on a leaf deeper than `LMAX` (41_tree_builder.md R103; log 13). Safe. -/
  | codeTooLong
  /-- Raised by D.INVERT on a CodeMap with two equal codes (44_decompress.md R133; log 15). Safe. -/
  | reverseMapIllDefined
  deriving DecidableEq, Repr

/-- The state after reset (10_state.md R44). The fields the rule calls unspecified are free values (log 1, 4)
or the log's choices (log 3, 5, 9). -/
def State.reset : State where
  busy := false
  done := false
  errf := false
  err := .none
  phase := 0#5
  textLen := 0#32
  packedLen := 0#32
  padBits := 0#32
  bitCount := 0#32
  text := ⟨[], false, 0⟩
  packed := ⟨[], false, 0⟩
  clen := ⟨[], true, 0⟩
  cbits := ⟨[], false, 0⟩
  freq := ⟨[], false, 0⟩
  node := []
  pq := []
  nleaf := 0
  nnext := 0
  root := 0
  bits := []
  rev := []
  buf := []
  outpos := 0
  walkStack := []
  pqOut := none
  inputs := []
  readData := none
  draws := 0

/-- What the fetch finds to do. -/
inductive Fetched where
  /-- An operation to execute, in the state the fetch leaves. -/
  | run (i : Instr) (s : State)
  /-- A host action that executes no operation, with its whole effect. -/
  | host (s : State)
  /-- Nothing that has a meaning. -/
  | stop (r : Refusal)
  deriving DecidableEq, Repr

end Sys2Proof.Machine
end

