-- ==== Sys2Proof/Machine/Flags.lean ====
section
/-! DEFINITION. The control and status registers as the host reads them, and every write of the three flags. -/

namespace Sys2Proof.Machine

/-- The number of a cause (60_exceptions.md R151). -/
def ErrCode.code : ErrCode → Nat
  | .none => 0
  | .malformedPayload => 1
  | .invalidCodeMap => 2
  | .illegalCommand => 3
  | .capacityExceeded => 4

/-- `STATUS` as one word: bit 0 `BUSY`, bit 1 `DONE`, bit 2 `ERRF`, bits 31 to 3 read as 0 (10_state.md R23). -/
def State.statusWord (s : State) : Reg :=
  BitVec.ofNat 32 (s.busy.toNat + 2 * s.done.toNat + 4 * s.errf.toNat)

/-- `ERR` as one word: the cause code in bits 2 to 0, bits 31 to 3 read as 0 (10_state.md R24). -/
def State.errWord (s : State) : Reg := BitVec.ofNat 32 s.err.code

/-- `PHASE` as one word: the code in bits 4 to 0, bits 31 to 5 read as 0 (10_state.md R25). -/
def State.phaseWord (s : State) : Reg := s.phase.setWidth 32

/-- `PHASE <- i` (00_scope.md R10). -/
def State.goto (s : State) (i : Instr) : State := { s with phase := phaseOf i }

/-- What an accepted CMD write does, the first micro-operation being i (10_state.md R22). -/
def State.start (s : State) (i : Instr) : State :=
  { s with err := .none, errf := false, done := false, busy := true, phase := phaseOf i }

/-- `complete(e)` (00_scope.md R11; log 24). -/
def State.complete (s : State) (e : ErrCode) : State :=
  { s with err := e, errf := decide (e ≠ .none), busy := false, done := true, phase := phaseOf .idle }

/-- The whole effect of the write of an illegal command word (60_exceptions.md R154). -/
def State.rejectCommand (s : State) : State :=
  { s with err := .illegalCommand, errf := true, done := true }

end Sys2Proof.Machine
end

