-- ==== Sys2Proof/Machine/Ops.lean ====
section
/-! DEFINITION. The operations over memories, the arena and the queue, and error entry. -/

namespace Sys2Proof.Machine

/-- The value listed at index i. -/
def cellAt {α : Type} : List (Nat × α) → Nat → Option α
  | [], _ => none
  | (a, v) :: rest, i => if i = a then some v else cellAt rest i

/-- List v at index i, keeping the indices rising. -/
def putCell {α : Type} : List (Nat × α) → Nat → α → List (Nat × α)
  | [], i, v => [(i, v)]
  | (a, u) :: rest, i, v =>
    if i < a then (i, v) :: (a, u) :: rest
    else if i = a then (i, v) :: rest
    else (a, u) :: putCell rest i v

/-- List nothing at index i. -/
def dropCell {α : Type} : List (Nat × α) → Nat → List (Nat × α)
  | [], _ => []
  | (a, u) :: rest, i => if i = a then dropCell rest i else (a, u) :: dropCell rest i

/-- The listed indices rise strictly. -/
def rising {α : Type} : List (Nat × α) → Bool
  | [] => true
  | [_] => true
  | (a, _) :: (b, v) :: rest => decide (a < b) && rising ((b, v) :: rest)

/-- The canonical form: rising indices, and in a memory whose unlisted elements read as 0 no entry is 0. -/
def Memory.wf {w : Nat} (m : Memory w) : Bool :=
  rising m.cells && (!m.zeroed || m.cells.all fun c => c.2 != 0#w)

/-- `M[i]` (00_scope.md R10), `free` giving the unspecified values. -/
def Memory.read {w : Nat} (m : Memory w) (free : Nat → Nat → BitVec w) (i : Nat) : BitVec w :=
  match cellAt m.cells i with
  | some v => v
  | none => if m.zeroed then 0#w else free m.epoch i

/-- `M[i] <- v` (00_scope.md R10). -/
def Memory.write {w : Nat} (m : Memory w) (i : Nat) (v : BitVec w) : Memory w :=
  if m.zeroed && v == 0#w then { m with cells := dropCell m.cells i }
  else { m with cells := putCell m.cells i v }

/-- `M[i] <- 0` for every i. -/
def Memory.clear {w : Nat} (m : Memory w) : Memory w := { m with cells := [], zeroed := true }

/-- Every element becomes unspecified (60_exceptions.md R159, 70_reset_and_hazards.md R176; log 2). -/
def Memory.forget {w : Nat} (m : Memory w) : Memory w := ⟨[], false, m.epoch + 1⟩

/-- `M[i] <- v i` for i in 0 .. n−1, ascending. -/
def Memory.writeRange {w : Nat} (m : Memory w) (v : Nat → BitVec w) : Nat → Memory w
  | 0 => m
  | n + 1 => (m.writeRange v n).write n (v n)

/-- `TEXT[i]` (10_state.md R30). -/
def State.textAt (s : State) (i : Nat) : Byte := s.text.read Config.freeText i

/-- `PACKED[j]` (10_state.md R31). -/
def State.packedAt (s : State) (j : Nat) : Byte := s.packed.read Config.freePacked j

/-- `CLEN[y]` (10_state.md R32), every unlisted element being 0 (log 1). -/
def State.clenAt (s : State) (y : Byte) : Byte := s.clen.read (fun _ _ => 0#8) y.toNat

/-- `CBITS[y]` (10_state.md R32). -/
def State.cbitsAt (s : State) (y : Byte) : CodeBits := s.cbits.read Config.freeCbits y.toNat

/-- `FREQ[y]` (10_state.md R34). -/
def State.freqAt (s : State) (y : Byte) : Count := s.freq.read Config.freeFreq y.toNat

/-- `raise e` during COMPRESS: output invalidation, then `complete` (60_exceptions.md R159). -/
def State.raiseCompress (s : State) (e : ErrCode) : State :=
  { s with
    packedLen := 0#32, padBits := 0#32, bitCount := 0#32
    clen := s.clen.clear, cbits := s.cbits.forget, packed := s.packed.forget }.complete e

/-- `raise e` during DECOMPRESS in D.START, D.MAPCHECK or D.META (60_exceptions.md R159). -/
def State.raiseDecompress (s : State) (e : ErrCode) : State :=
  { s with textLen := 0#32 }.complete e

/-- `raise e` in SR.SCAN, which leaves every `TEXT[i]` unspecified (60_exceptions.md R159). -/
def State.raiseScan (s : State) (e : ErrCode) : State :=
  { s with textLen := 0#32, text := s.text.forget }.complete e

/-- The reset event (70_reset_and_hazards.md R176, 10_state.md R44): the state after reset, each memory the rule
calls unspecified holding values of a new epoch. What belongs to the host is kept (log 23). -/
def State.resetEvent (s : State) : State :=
  { State.reset with
    text := s.text.forget, packed := s.packed.forget, cbits := s.cbits.forget, freq := s.freq.forget
    clen := s.clen.clear
    inputs := s.inputs, readData := s.readData, draws := s.draws }

/-- The frequency field of a record (10_state.md R35). -/
def Node.freq : Node → Count
  | .leaf _ f => f
  | .internal f _ _ => f

/-- `NODE[n].freq` as a natural number, of an allocated n. -/
def nodeFreq (nodes : List (Nat × Node)) (n : Nat) : Nat :=
  match cellAt nodes n with
  | some r => r.freq.toNat
  | none => 0

/-- The order of the queue's keys `(NODE[m].freq, m)` (41_tree_builder.md R96). -/
def keyLess (nodes : List (Nat × Node)) (m n : Nat) : Bool :=
  decide (nodeFreq nodes m < nodeFreq nodes n) ||
    (decide (nodeFreq nodes m = nodeFreq nodes n) && decide (m < n))

/-- The member with the least key among best and the list. -/
def leastMember (nodes : List (Nat × Node)) (best : Nat) : List Nat → Nat
  | [] => best
  | m :: ms => leastMember nodes (if keyLess nodes m best then m else best) ms

/-- `PQ ∪ {n}`, members in rising order. -/
def insertMember : List Nat → Nat → List Nat
  | [], n => [n]
  | m :: ms, n => if n < m then n :: m :: ms else if n = m then m :: ms else m :: insertMember ms n

/-- `PQ.INSERT(n)` (41_tree_builder.md R95). -/
def State.pqInsert (s : State) (n : Nat) : State := { s with pq := insertMember s.pq n }

/-- `PQ.EXTRACTMIN()` (41_tree_builder.md R96): the least member and the state without it. The rule's
precondition is a queue that is not empty, and it reads only allocated records (log 10, 11). -/
def State.pqExtractMin (s : State) : Except Refusal (Nat × State) :=
  match s.pq with
  | [] => .error .queueEmpty
  | m :: ms =>
    if s.pq.all fun x => (cellAt s.node x).isSome then
      let n := leastMember s.node m ms
      .ok (n, { s with pq := s.pq.filter fun x => x != n })
    else .error .nodeUnallocated

/-- `NODE[NNEXT] <- r; NNEXT <- NNEXT + 1`. -/
def State.allocate (s : State) (r : Node) : State :=
  { s with node := putCell s.node s.nnext r, nnext := s.nnext + 1 }

end Sys2Proof.Machine
end

