-- ==== Sys2Proof/Machine/Operands.lean ====
section
/-! DEFINITION. The implicit operands of the operations: the text, codes and the code map, stream bits and
bytes, the reverse map. -/

namespace Sys2Proof.Machine

/-- Every symbol value, ascending (00_scope.md R6, R10: `for s in 0 .. ALPHA−1`). -/
def symbols : List Byte := (List.range Config.ALPHA).map fun n => BitVec.ofNat 8 n

/-- `TEXT[0 .. TEXT_LEN−1]` (10_state.md R26, R30). -/
def State.textSymbols (s : State) : List Byte := (List.range s.textLen.toNat).map s.textAt

/-- `CBITS[y][0 .. CLEN[y])` (10_state.md R32, 30_encoding.md R76). -/
def State.code (s : State) (y : Byte) : Bits :=
  (List.range (s.clenAt y).toNat).map fun k => (s.cbitsAt y).getLsbD k

/-- The symbols that have a code, ascending (10_state.md R32: `CLEN[s] > 0`). -/
def State.present (s : State) : List Byte := symbols.filter fun y => s.clenAt y != 0#8

/-- `CLEN[s] = 0` for every s (44_decompress.md R131). -/
def State.mapEmpty (s : State) : Bool := symbols.all fun y => s.clenAt y == 0#8

/-- No code is a prefix of the code of a different symbol, equality included (44_decompress.md R132, 00_scope.md R9). -/
def State.prefixFree (s : State) : Bool :=
  s.present.all fun y => s.present.all fun z => y == z || !(s.code y).isPrefixOf (s.code z)

/-- No two symbols have the same code (44_decompress.md R133). -/
def State.codesDistinct (s : State) : Bool :=
  s.present.all fun y => s.present.all fun z => y == z || !(s.code y == s.code z)

/-- The empty code map written to the code map store: `CLEN[s] <- 0; CBITS[s] <- 0^LMAX` for every s
(43_compress_bitpacker.md R118, 42_code_assigner.md R110). -/
def State.clearMap (s : State) : State := { s with clen := s.clen.clear, cbits := s.cbits.clear }

/-- The positions 0 .. |c|−1 of a code vector replaced by the bits of c, the others kept. -/
def overlay : Bits → Nat → Nat
  | [], old => old
  | b :: bs, old => b.toNat + 2 * overlay bs (old / 2)

/-- `CLEN[y] <- |c|; for k in 0 .. |c|−1: CBITS[y][k] <- c[k]` (42_code_assigner.md R110). -/
def State.writeCode (s : State) (y : Byte) (c : Bits) : State :=
  { s with
    clen := s.clen.write y.toNat (BitVec.ofNat 8 c.length)
    cbits := s.cbits.write y.toNat (BitVec.ofNat 255 (overlay c (s.cbitsAt y).toNat)) }

/-- `(8 − (n mod 8)) mod 8` (43_compress_bitpacker.md R120). -/
def padding (n : Nat) : Nat := (8 - n % 8) % 8

/-- Byte j of a bitstring, most significant bit first (20_memory.md R51). -/
def packByte (b : Bits) (j : Nat) : Byte :=
  BitVec.ofNat 8 ((List.range 8).map fun k => (b.getD (8 * j + k) false).toNat * 2 ^ (7 - k)).sum

/-- Stream bit n of `PACKED`, most significant bit first (20_memory.md R52). -/
def State.streamBit (s : State) (n : Nat) : Bool :=
  (s.packedAt (n / 8)).toNat / 2 ^ (7 - n % 8) % 2 == 1

/-- `REV(b)`, where it is defined (44_decompress.md R133). -/
def revLookup : List (Bits × Byte) → Bits → Option Byte
  | [], _ => none
  | (c, y) :: rest, b => if b = c then some y else revLookup rest b

end Sys2Proof.Machine
end

