-- ==== Sys2Proof/Machine/CodeAssigner.lean ====
section
/-! DEFINITION. CodeAssigner. -/

namespace Sys2Proof.Machine

/-- The code of a leaf reached by a path: the path, or the fallback `"0"` for the empty one (42_code_assigner.md R110, R111). -/
def leafCode (path : Bits) : Bits := if path = [] then [false] else path

/-- A child to walk, if it is there (42_code_assigner.md R112). -/
def childEntry (child : Option Nat) (path : Bits) : List (Nat × Bits) :=
  match child with
  | none => []
  | some n => [(n, path)]

/-- `walk` (42_code_assigner.md R110) by the traversal stack (10_state.md R40): visit the pair on top; an internal
node leaves its children there, left on top, so left is walked first. At most fuel nodes are visited (log 13). -/
def walk : Nat → State → Except Refusal State
  | fuel, s =>
    match s.walkStack with
    | [] => .ok s
    | (n, path) :: rest =>
      match fuel with
      | 0 => .error .notATree
      | fuel + 1 =>
        match cellAt s.node n with
        | none => .error .nodeUnallocated
        | some (.leaf y _) =>
          if Config.LMAX < (leafCode path).length then .error .codeTooLong
          else walk fuel ({ s with walkStack := rest }.writeCode y (leafCode path))
        | some (.internal _ l r) =>
          walk fuel
            { s with walkStack := childEntry l (path ++ [false]) ++ childEntry r (path ++ [true]) ++ rest }

/-- CA.ASSIGN (42_code_assigner.md R110). -/
def execCaAssign (s : State) : Host.Outcome State Fault Refusal :=
  match walk Config.NODES { s.clearMap with walkStack := [(s.root, [])] } with
  | .error r => .refused r
  | .ok t => .next (t.goto .bpConcat)

end Sys2Proof.Machine
end

