-- ==== Sys2Proof/Machine/Command.lean ====
section
/-! DEFINITION. The command words and the idle phase. -/

namespace Sys2Proof.Machine

/-- The write of the COMPRESS word to `CMD` (10_state.md R22, 43_compress_bitpacker.md R117): ignored while busy,
otherwise C.START is next. -/
def execCompress (s : State) : Host.Outcome State Fault Refusal :=
  if s.busy then .next s else .next (s.start .cStart)

/-- The write of the DECOMPRESS word to `CMD` (10_state.md R22, 44_decompress.md R130). -/
def execDecompress (s : State) : Host.Outcome State Fault Refusal :=
  if s.busy then .next s else .next (s.start .dStart)

/-- The write of any other word to `CMD` (60_exceptions.md R154, 10_state.md R22), whatever its two fields. -/
def execIllegal (_zero : BitVec 24) (_op : BitVec 8) (s : State) : Host.Outcome State Fault Refusal :=
  if s.busy then .next s else .next s.rejectCommand

/-- No command is executing; the engine does nothing (10_state.md R25, 30_encoding.md R74). -/
def execIdle (s : State) : Host.Outcome State Fault Refusal := .next s

end Sys2Proof.Machine
end

