-- ==== Sys2Proof/Machine/Compress.lean ====
section
/-! DEFINITION. The admission of COMPRESS, the concatenation of codes and the BitPacker. -/

namespace Sys2Proof.Machine

/-- C.START (43_compress_bitpacker.md R118). -/
def execCStart (s : State) : Host.Outcome State Fault Refusal :=
  if Config.NMAX < s.textLen.toNat then .next (s.raiseCompress .capacityExceeded)
  else if s.textLen = 0#32 then
    .next ({ s.clearMap with packedLen := 0#32, padBits := 0#32, bitCount := 0#32 }.complete .none)
  else .next (s.goto .ftBuild)

/-- BP.CONCAT (43_compress_bitpacker.md R119; log 14, 16). -/
def execBpConcat (s : State) : Host.Outcome State Fault Refusal :=
  if Config.NMAX < s.textLen.toNat then .fault (.noSuchElement .text)
  else
    let b := s.textSymbols.flatMap s.code
    .next ({ s with bits := b, bitCount := BitVec.ofNat 32 b.length }.goto .bpPad)

/-- BP.PAD (43_compress_bitpacker.md R120). -/
def execBpPad (s : State) : Host.Outcome State Fault Refusal :=
  let pad := padding s.bitCount.toNat
  let t := { s with padBits := BitVec.ofNat 32 pad }
  if Config.PMAX < (s.bitCount.toNat + pad) / 8 then .next (t.raiseCompress .capacityExceeded)
  else .next ({ t with bits := s.bits ++ List.replicate pad false }.goto .bpPack)

/-- BP.PACK (43_compress_bitpacker.md R121; log 16). -/
def execBpPack (s : State) : Host.Outcome State Fault Refusal :=
  let n := s.bits.length / 8
  if Config.PMAX < n then .fault (.noSuchElement .packed)
  else
    .next ({ s with packedLen := BitVec.ofNat 32 n, packed := s.packed.writeRange (packByte s.bits) n }.complete .none)

end Sys2Proof.Machine
end

