-- ==== Sys2Proof/Machine/Decompress.lean ====
section
/-! DEFINITION. The admission of DECOMPRESS, its checks, the BitUnpacker and symbol reconstruction. -/

namespace Sys2Proof.Machine

/-- D.START (44_decompress.md R131). -/
def execDStart (s : State) : Host.Outcome State Fault Refusal :=
  if Config.PMAX < s.packedLen.toNat then .next (s.raiseDecompress .capacityExceeded)
  else if s.mapEmpty ∧ s.packedLen = 0#32 then
    if s.padBits = 0#32 ∧ s.bitCount = 0#32 then .next ({ s with textLen := 0#32 }.complete .none)
    else .next (s.raiseDecompress .malformedPayload)
  else .next (s.goto .dMapcheck)

/-- D.MAPCHECK (44_decompress.md R132). -/
def execDMapcheck (s : State) : Host.Outcome State Fault Refusal :=
  if s.mapEmpty ∨ s.packedLen = 0#32 then .next (s.raiseDecompress .invalidCodeMap)
  else if s.prefixFree then .next (s.goto .dInvert)
  else .next (s.raiseDecompress .invalidCodeMap)

/-- D.INVERT (44_decompress.md R133); two equal codes have no reverse map (log 15). -/
def execDInvert (s : State) : Host.Outcome State Fault Refusal :=
  if s.codesDistinct then .next ({ s with rev := s.present.map fun y => (s.code y, y) }.goto .dMeta)
  else .refused .reverseMapIllDefined

/-- D.META, on natural numbers (44_decompress.md R134). -/
def execDMeta (s : State) : Host.Outcome State Fault Refusal :=
  if 7 < s.padBits.toNat ∨ s.bitCount.toNat + s.padBits.toNat ≠ 8 * s.packedLen.toNat then
    .next (s.raiseDecompress .malformedPayload)
  else .next (s.goto .buUnpack)

/-- BU.UNPACK (44_decompress.md R135; log 16). -/
def execBuUnpack (s : State) : Host.Outcome State Fault Refusal :=
  if 8 * Config.PMAX < s.bitCount.toNat then .fault (.noSuchElement .packed)
  else .next ({ s with bits := (List.range s.bitCount.toNat).map s.streamBit }.goto .srScan)

/-- SR.SCAN's loop over the stream's bits and what follows it (44_decompress.md R136, R137; log 17). -/
def scan : Bits → State → State
  | [], s =>
    if s.buf = [] then { s with textLen := BitVec.ofNat 32 s.outpos }.complete .none
    else s.raiseScan .malformedPayload
  | b :: rest, s =>
    let buf := s.buf ++ [b]
    match revLookup s.rev buf with
    | none => scan rest { s with buf := buf }
    | some y =>
      if s.outpos = Config.NMAX then { s with buf := buf }.raiseScan .capacityExceeded
      else scan rest { s with text := s.text.write s.outpos y, outpos := s.outpos + 1, buf := [] }

/-- SR.SCAN (44_decompress.md R136). -/
def execSrScan (s : State) : Host.Outcome State Fault Refusal :=
  .next (scan s.bits { s with buf := [], outpos := 0 })

end Sys2Proof.Machine
end

