-- ==== Sys2Proof/Machine/FrequencyTable.lean ====
section
/-! DEFINITION. FrequencyTable. -/

namespace Sys2Proof.Machine

/-- `FREQ[y] <- FREQ[y] + 1` (40_frequency_table.md R90). -/
def countSymbol (m : Memory 16) (y : Byte) : Memory 16 :=
  m.write y.toNat (m.read Config.freeFreq y.toNat + 1#16)

/-- FT.BUILD (40_frequency_table.md R90). A text past the end of `TEXT` does not exist (log 16). -/
def execFtBuild (s : State) : Host.Outcome State Fault Refusal :=
  if Config.NMAX < s.textLen.toNat then .fault (.noSuchElement .text)
  else .next ({ s with freq := s.textSymbols.foldl countSymbol s.freq.clear }.goto .tbLoad)

end Sys2Proof.Machine
end

