-- ==== Sys2Proof/Machine/TreeBuilder.lean ====
section
/-! DEFINITION. TreeBuilder and its priority queue. -/

namespace Sys2Proof.Machine

/-- PQ.INSERT as an operation of its own (41_tree_builder.md R95). -/
def execPqInsert (n : Nat) (s : State) : Host.Outcome State Fault Refusal := .next (s.pqInsert n)

/-- PQ.EXTRACTMIN as an operation of its own, its result kept in `pqOut` (41_tree_builder.md R96; log 9). -/
def execPqExtractmin (s : State) : Host.Outcome State Fault Refusal :=
  match s.pqExtractMin with
  | .error r => .refused r
  | .ok (n, t) => .next { t with pqOut := some n }

/-- One turn of TB.LOAD's loop (41_tree_builder.md R97). -/
def loadLeaf (s : State) (y : Byte) : State :=
  if s.freqAt y = 0#16 then s else (s.pqInsert s.nnext).allocate (.leaf y (s.freqAt y))

/-- TB.LOAD's loop, from the empty queue and the empty arena (41_tree_builder.md R97; log 10). -/
def loadLeaves (s : State) : State :=
  symbols.foldl loadLeaf { s with pq := [], nnext := 0, node := [] }

/-- TB.LOAD (41_tree_builder.md R97); the empty table is refused (41_tree_builder.md R102; log 12). -/
def execTbLoad (s : State) : Host.Outcome State Fault Refusal :=
  let t := loadLeaves s
  if t.nnext = 0 then .refused .emptyFrequencyTable
  else if t.nnext = 1 then .next ({ t with nleaf := t.nnext }.goto .tbWrap)
  else .next ({ t with nleaf := t.nnext }.goto .tbMerge)

/-- The record TB.MERGE creates, first extracted a on the left (41_tree_builder.md R98). -/
def mergedNode (nodes : List (Nat × Node)) (a b : Nat) : Node :=
  .internal (BitVec.ofNat 16 (nodeFreq nodes a + nodeFreq nodes b)) (some a) (some b)

/-- TB.MERGE, one turn of the merge loop (41_tree_builder.md R98; log 11). -/
def execTbMerge (s : State) : Host.Outcome State Fault Refusal :=
  match s.pqExtractMin with
  | .error r => .refused r
  | .ok (a, s1) =>
    match s1.pqExtractMin with
    | .error r => .refused r
    | .ok (b, s2) =>
      if Config.NODES ≤ s2.nnext then .refused .arenaFull
      else
        let t := (s2.pqInsert s2.nnext).allocate (mergedNode s2.node a b)
        .next (t.goto (if 2 ≤ t.pq.length then .tbMerge else .tbFinish))

/-- The synthetic root of the single-symbol case: l on the left, no right child (41_tree_builder.md R99). -/
def wrapNode (nodes : List (Nat × Node)) (l : Nat) : Node :=
  .internal (BitVec.ofNat 16 (nodeFreq nodes l)) (some l) none

/-- TB.WRAP (41_tree_builder.md R99; log 11). It reads and empties `PQ` as R99 says, where the table of 20_memory.md
R62 gives it no access to `PQ` (log 25). -/
def execTbWrap (s : State) : Host.Outcome State Fault Refusal :=
  match s.pqExtractMin with
  | .error r => .refused r
  | .ok (l, s1) =>
    if Config.NODES ≤ s1.nnext then .refused .arenaFull
    else .next (({ s1 with root := s1.nnext }.allocate (wrapNode s1.node l)).goto .caAssign)

/-- TB.FINISH (41_tree_builder.md R100; log 11). It writes no record of `NODE`, as R100 says, where the table of
20_memory.md R62 lets it (log 25). -/
def execTbFinish (s : State) : Host.Outcome State Fault Refusal :=
  match s.pqExtractMin with
  | .error r => .refused r
  | .ok (n, s1) => .next ({ s1 with root := n }.goto .caAssign)

end Sys2Proof.Machine
end

