-- ==== Sys2Proof/Machine/Dispatch.lean ====
section
/-! DEFINITION. One arm per operation. -/

namespace Sys2Proof.Machine

def exec (i : Instr) (s : State) : Host.Outcome State Fault Refusal :=
  match i with
  | .compress => Sys2Proof.Machine.execCompress s
  | .decompress => Sys2Proof.Machine.execDecompress s
  | .illegal zero op => Sys2Proof.Machine.execIllegal zero op s
  | .idle => Sys2Proof.Machine.execIdle s
  | .cStart => Sys2Proof.Machine.execCStart s
  | .ftBuild => Sys2Proof.Machine.execFtBuild s
  | .tbLoad => Sys2Proof.Machine.execTbLoad s
  | .tbMerge => Sys2Proof.Machine.execTbMerge s
  | .tbWrap => Sys2Proof.Machine.execTbWrap s
  | .tbFinish => Sys2Proof.Machine.execTbFinish s
  | .caAssign => Sys2Proof.Machine.execCaAssign s
  | .bpConcat => Sys2Proof.Machine.execBpConcat s
  | .bpPad => Sys2Proof.Machine.execBpPad s
  | .bpPack => Sys2Proof.Machine.execBpPack s
  | .dStart => Sys2Proof.Machine.execDStart s
  | .dMapcheck => Sys2Proof.Machine.execDMapcheck s
  | .dInvert => Sys2Proof.Machine.execDInvert s
  | .dMeta => Sys2Proof.Machine.execDMeta s
  | .buUnpack => Sys2Proof.Machine.execBuUnpack s
  | .srScan => Sys2Proof.Machine.execSrScan s
  | .pqInsert n => Sys2Proof.Machine.execPqInsert n s
  | .pqExtractmin => Sys2Proof.Machine.execPqExtractmin s

end Sys2Proof.Machine
end

