-- ==== Sys2Proof/Machine/HostAccess.lean ====
section
/-! DEFINITION. What the host does, and what the machine does next. -/

namespace Sys2Proof.Machine

/-- `HostWrite(REG, i, v)` for i ≠ 0: the data registers while not busy, nothing else
(10_state.md R21, 70_reset_and_hazards.md R180, 20_memory.md R57; log 26). -/
def State.hostWriteReg (s : State) (i : Nat) (v : Reg) : State :=
  if s.busy then s
  else
    match i with
    | 4 => { s with textLen := v }
    | 5 => { s with packedLen := v }
    | 6 => { s with padBits := v }
    | 7 => { s with bitCount := v }
    | _ => s

/-- `HostWrite(TEXT, i, v)` (20_memory.md R50, R57, 70_reset_and_hazards.md R180; log 26). -/
def State.hostWriteText (s : State) (i : Nat) (v : Byte) : State :=
  if s.busy ∨ Config.NMAX ≤ i then s else { s with text := s.text.write i v }

/-- `HostWrite(PACKED, i, v)` (20_memory.md R50, R57, 70_reset_and_hazards.md R180; log 26). -/
def State.hostWritePacked (s : State) (i : Nat) (v : Byte) : State :=
  if s.busy ∨ Config.PMAX ≤ i then s else { s with packed := s.packed.write i v }

/-- `HostWrite(CLEN, i, v)` (20_memory.md R50, R57, 70_reset_and_hazards.md R180; log 26). -/
def State.hostWriteClen (s : State) (i : Nat) (v : Byte) : State :=
  if s.busy ∨ Config.ALPHA ≤ i then s else { s with clen := s.clen.write i v }

/-- `HostWrite(CBITS, i, v)` (20_memory.md R50, R57, 70_reset_and_hazards.md R180; log 26). -/
def State.hostWriteCbits (s : State) (i : Nat) (v : CodeBits) : State :=
  if s.busy ∨ Config.ALPHA ≤ i then s else { s with cbits := s.cbits.write i v }

/-- The element a host read moves, where the spec fixes it: any element of a space while not busy, and `CMD` (0),
`STATUS`, `ERR` and `PHASE` at any time (10_state.md R21 to R25, 20_memory.md R57, 70_reset_and_hazards.md R180;
log 8). That `BUSY` alone closes the window, and not the first read of `DONE` = 1 (20_memory.md R59, R180), is the
model's choice (log 26). -/
def State.hostValue (s : State) (sp : Space) (i : Nat) : Option HostData :=
  match sp with
  | .reg =>
    match i with
    | 0 => some (.word 0#32)
    | 1 => some (.word s.statusWord)
    | 2 => some (.word s.errWord)
    | 3 => some (.word s.phaseWord)
    | 4 => if s.busy then none else some (.word s.textLen)
    | 5 => if s.busy then none else some (.word s.packedLen)
    | 6 => if s.busy then none else some (.word s.padBits)
    | 7 => if s.busy then none else some (.word s.bitCount)
    | _ => none
  | .text => if s.busy ∨ Config.NMAX ≤ i then none else some (.byte (s.textAt i))
  | .packed => if s.busy ∨ Config.PMAX ≤ i then none else some (.byte (s.packedAt i))
  | .clen => if s.busy ∨ Config.ALPHA ≤ i then none else some (.byte (s.clenAt (BitVec.ofNat 8 i)))
  | .cbits => if s.busy ∨ Config.ALPHA ≤ i then none else some (.code (s.cbitsAt (BitVec.ofNat 8 i)))

/-- An unspecified value of the width of a space (20_memory.md R57, 70_reset_and_hazards.md R180; log 7, 8). -/
def drawnValue (sp : Space) (n : Nat) : HostData :=
  match sp with
  | .reg => .word ((Config.freeRead n).setWidth 32)
  | .text => .byte ((Config.freeRead n).setWidth 8)
  | .packed => .byte ((Config.freeRead n).setWidth 8)
  | .clen => .byte ((Config.freeRead n).setWidth 8)
  | .cbits => .code (Config.freeRead n)

/-- `HostRead(sp, i)`, its value in `readData`; nothing of the block changes (20_memory.md R55). -/
def State.hostRead (s : State) (sp : Space) (i : Nat) : State :=
  match s.hostValue sp i with
  | some v => { s with readData := some v }
  | none => { s with readData := some (drawnValue sp s.draws), draws := s.draws + 1 }

/-- The engine's turn: it executes the micro-operation whose code is in `PHASE` (30_encoding.md R74). -/
def engineTurn (s : State) : Fetched :=
  match decode (.phase s.phase) with
  | .ok i => .run i s
  | .error _ => .stop .phaseNeverOccurs

/-- The host's turn, its action e taken off the script: a write to `CMD` runs the command the written word
decodes to (10_state.md R22), every other action is whole in itself (log 5). -/
def hostTurn (e : HostEvent) (s : State) (waiting : State) : Fetched :=
  match e with
  | .writeReg i v =>
    if i = 0 then .run (decodeCommand v) s else .host (s.hostWriteReg i v)
  | .writeText i v => .host (s.hostWriteText i v)
  | .writePacked i v => .host (s.hostWritePacked i v)
  | .writeClen i v => .host (s.hostWriteClen i v)
  | .writeCbits i v => .host (s.hostWriteCbits i v)
  | .read sp i => .host (s.hostRead sp i)
  | .engine => engineTurn s
  | .wait => if s.done then .host (s.hostRead .reg 1) else engineTurn (waiting.hostRead .reg 1)
  | .reset => .host s.resetEvent

/-- What the machine does next: the host's pending action, or with none the engine's turn. -/
def fetch (s : State) : Fetched :=
  match s.inputs with
  | [] => engineTurn s
  | e :: rest => hostTurn e { s with inputs := rest } s

end Sys2Proof.Machine
end

