-- ==== Sys2Proof/Machine/Step.lean ====
section
/-! DEFINITION. One step of the machine, and where it fetches its next operation. -/

namespace Sys2Proof.Machine

/-- One step: the operation or the host action the fetch finds, whole (00_scope.md R7; log 6). -/
def step (s : State) : Host.Outcome State Fault Refusal :=
  match fetch s with
  | .run i t => exec i t
  | .host t => .next t
  | .stop r => .refused r

/-- An opcode-table word placed where the step fetches it: a command word as the host's next write to `CMD`, a
phase code in `PHASE` with the engine's turn next (log 20). -/
def State.withFetchWord (s : State) (nbits w : Nat) : State :=
  if nbits = 32 then { s with inputs := .writeReg 0 (BitVec.ofNat 32 w) :: s.inputs }
  else { s with phase := BitVec.ofNat 5 w, inputs := .engine :: s.inputs }

end Sys2Proof.Machine
end

