-- ==== Sys2Proof/Safety.lean ====
section
/-! DEFINITION. The terms claims about runs are stated in: ended commands, runs of steps, the prefix tree an arena
holds, the greedy reading of a bit stream, and the invariants of the machine. -/

namespace Sys2Proof.Safety

open Sys2Proof.Machine

/-! ## Runs -/

/-- k steps, ending at the first stop. -/
def runSteps : Nat → State → Host.Outcome State Fault Refusal
  | 0, s => .next s
  | k + 1, s =>
    match step s with
    | .next t => runSteps k t
    | .fault r => .fault r
    | .refused r => .refused r

/-- The control and status registers after `complete(e)` (00_scope.md R11). -/
structure Ended (e : ErrCode) (t : State) : Prop where
  err : t.err = e
  errf : t.errf = decide (e ≠ .none)
  busy : t.busy = false
  done : t.done = true
  phase : t.phase = 0#5

/-- The state in which DECOMPRESS has raised e with `TEXT` unchanged (60_exceptions.md R159, 00_scope.md R11). -/
def raisedInDecompress (s : State) (e : ErrCode) : State :=
  { s with textLen := 0#32, err := e, errf := true, busy := false, done := true, phase := 0#5 }

/-- t is s after COMPRESS has raised e: zero lengths, an empty map, `CBITS` and `PACKED` unspecified, the rest as in s
(60_exceptions.md R159, 00_scope.md R11). -/
structure RaisedInCompress (e : ErrCode) (s t : State) : Prop where
  ended : Ended e t
  packedLen : t.packedLen = 0#32
  padBits : t.padBits = 0#32
  bitCount : t.bitCount = 0#32
  clen : ∀ y, t.clenAt y = 0#8
  cbits : ∀ y, t.cbitsAt y = Config.freeCbits (s.cbits.epoch + 1) y.toNat
  packed : ∀ j, t.packedAt j = Config.freePacked (s.packed.epoch + 1) j
  frame : { t with
    err := s.err, errf := s.errf, busy := s.busy, done := s.done, phase := s.phase, packedLen := s.packedLen,
    padBits := s.padBits, bitCount := s.bitCount, clen := s.clen, cbits := s.cbits, packed := s.packed } = s

/-- n is the member of the queue with the least key (frequency, index) (41_tree_builder.md R96). -/
def IsLeast (nodes : List (Nat × Node)) (queue : List Nat) (n : Nat) : Prop :=
  n ∈ queue ∧ ∀ m ∈ queue, m ≠ n →
    nodeFreq nodes n < nodeFreq nodes m ∨ (nodeFreq nodes n = nodeFreq nodes m ∧ n < m)

/-- Every member of the queue is allocated (41_tree_builder.md R95). -/
def QueueAllocated (s : State) : Prop := ∀ m ∈ s.pq, (cellAt s.node m).isSome = true

/-- The codes with which a micro-operation can end its command (60_exceptions.md R152, R153, R155, R156). -/
def endCodes : Instr → List ErrCode
  | .cStart => [.none, .capacityExceeded]
  | .bpPad => [.capacityExceeded]
  | .bpPack => [.none]
  | .dStart => [.none, .capacityExceeded, .malformedPayload]
  | .dMapcheck => [.invalidCodeMap]
  | .dMeta => [.malformedPayload]
  | .srScan => [.none, .malformedPayload, .capacityExceeded]
  | .compress => []
  | .decompress => []
  | .illegal _ _ => [.illegalCommand]
  | .idle => []
  | .ftBuild => []
  | .tbLoad => []
  | .tbMerge => []
  | .tbWrap => []
  | .tbFinish => []
  | .caAssign => []
  | .bpConcat => []
  | .dInvert => []
  | .buUnpack => []
  | .pqInsert _ => []
  | .pqExtractmin => []

/-- The host actions that write a register or a memory element, `CMD` among them (00_scope.md R12). -/
def isHostWrite : HostEvent → Bool
  | .writeReg _ _ => true
  | .writeText _ _ => true
  | .writePacked _ _ => true
  | .writeClen _ _ => true
  | .writeCbits _ _ => true
  | .read _ _ => false
  | .engine => false
  | .wait => false
  | .reset => false

/-- The values `PHASE` may have after a micro-operation, 0 standing for `complete` and `raise` (30_encoding.md R82);
for a command word those after its write from `IDLE` (10_state.md R22, 60_exceptions.md R154). -/
def successors : Instr → List PhaseCode
  | .compress => [1#5]
  | .decompress => [11#5]
  | .illegal _ _ => [0#5]
  | .idle => [0#5]
  | .cStart => [0#5, 2#5]
  | .ftBuild => [3#5]
  | .tbLoad => [5#5, 4#5]
  | .tbMerge => [4#5, 6#5]
  | .tbWrap => [7#5]
  | .tbFinish => [7#5]
  | .caAssign => [8#5]
  | .bpConcat => [9#5]
  | .bpPad => [0#5, 10#5]
  | .bpPack => [0#5]
  | .dStart => [0#5, 12#5]
  | .dMapcheck => [0#5, 13#5]
  | .dInvert => [14#5]
  | .dMeta => [0#5, 15#5]
  | .buUnpack => [16#5]
  | .srScan => [0#5]
  | .pqInsert _ => []
  | .pqExtractmin => []

/-- The micro-operations of COMPRESS (30_encoding.md R82). -/
def compressOps : List Instr :=
  [.cStart, .ftBuild, .tbLoad, .tbMerge, .tbWrap, .tbFinish, .caAssign, .bpConcat, .bpPad, .bpPack]

/-- The micro-operations of DECOMPRESS (30_encoding.md R82). -/
def decompressOps : List Instr := [.dStart, .dMapcheck, .dInvert, .dMeta, .buUnpack, .srScan]

/-! ## Trees -/

/-- A prefix tree, `none` standing for an absent child (10_state.md R35). -/
inductive PrefixTree where
  | none
  | leaf (sym : Byte) (freq : Nat)
  | node (freq : Nat) (left right : PrefixTree)
  deriving DecidableEq, Repr

/-- The arena holds the tree t at the index. -/
inductive Roots (nodes : List (Nat × Node)) : Option Nat → PrefixTree → Prop
  | absent : Roots nodes none .none
  | leaf {n : Nat} {y : Byte} {f : Count} :
      cellAt nodes n = some (.leaf y f) → Roots nodes (some n) (.leaf y f.toNat)
  | node {n : Nat} {f : Count} {l r : Option Nat} {a b : PrefixTree} :
      cellAt nodes n = some (.internal f l r) → Roots nodes l a → Roots nodes r b →
        Roots nodes (some n) (.node f.toNat a b)

/-- Each leaf's symbol with its path from the root, 0 for a left edge (30_encoding.md R77). -/
def PrefixTree.paths : PrefixTree → List (Byte × Bits)
  | .none => []
  | .leaf y _ => [(y, [])]
  | .node _ l r => l.paths.map (fun p => (p.1, false :: p.2)) ++ r.paths.map (fun p => (p.1, true :: p.2))

/-- The symbols of the leaves. -/
def PrefixTree.syms (t : PrefixTree) : List Byte := t.paths.map Prod.fst

/-- Number of nodes. -/
def PrefixTree.size : PrefixTree → Nat
  | .none => 0
  | .leaf _ _ => 1
  | .node _ l r => 1 + l.size + r.size

/-- Number of leaves. -/
def PrefixTree.leaves : PrefixTree → Nat
  | .none => 0
  | .leaf _ _ => 1
  | .node _ l r => l.leaves + r.leaves

/-- Edges on the longest path from the root. -/
def PrefixTree.depth : PrefixTree → Nat
  | .none => 0
  | .leaf _ _ => 0
  | .node _ l r => 1 + max l.depth r.depth

/-- The frequency at the root. -/
def PrefixTree.freq : PrefixTree → Nat
  | .none => 0
  | .leaf _ f => f
  | .node f _ _ => f

/-- Every internal node has exactly two children (10_state.md R36). -/
def PrefixTree.full : PrefixTree → Prop
  | .none => False
  | .leaf _ _ => True
  | .node _ l r => l.full ∧ r.full

/-- Every leaf's frequency is the table's, every internal node's the sum of its children's (10_state.md R36). -/
def PrefixTree.weighted (table : Byte → Nat) : PrefixTree → Prop
  | .none => True
  | .leaf y f => f = table y
  | .node f l r => f = l.freq + r.freq ∧ l.weighted table ∧ r.weighted table

/-! ## The stream -/

/-- How SR.SCAN reads a bit stream: ws are the codes matched, each the shortest non-empty match at its place, and
rest the bits in which nothing matches (44_decompress.md R136). -/
structure GreedyParse (rev : List (Bits × Byte)) (stream : Bits) (ws : List (Bits × Byte)) (rest : Bits) : Prop where
  split : stream = (ws.map Prod.fst).flatten ++ rest
  code : ∀ w ∈ ws, w.1 ≠ [] ∧ revLookup rev w.1 = some w.2
  shortest : ∀ w ∈ ws, ∀ p, p <+: w.1 → p ≠ [] → p ≠ w.1 → revLookup rev p = none
  leftover : ∀ p, p <+: rest → p ≠ [] → revLookup rev p = none

/-- The accumulator of the streaming bit packer (43_compress_bitpacker.md R124). -/
structure Packer where
  acc : Nat
  nacc : Nat
  bitCount : Nat
  out : List Byte
  deriving DecidableEq, Repr

/-- What the streaming bit packer does for one code bit (43_compress_bitpacker.md R124). -/
def Packer.push (p : Packer) (b : Bool) : Packer :=
  if p.nacc + 1 = 8 then ⟨0, 0, p.bitCount + 1, p.out ++ [BitVec.ofNat 8 ((2 * p.acc + b.toNat) % 256)]⟩
  else ⟨(2 * p.acc + b.toNat) % 256, p.nacc + 1, p.bitCount + 1, p.out⟩

/-- The streaming bit packer on a whole stream: its bytes, `PADBITS` and `BITCOUNT` (43_compress_bitpacker.md R124). -/
def streamPack (stream : Bits) : List Byte × Nat × Nat :=
  let p := stream.foldl Packer.push ⟨0, 0, 0, []⟩
  if 0 < p.nacc then (p.out ++ [BitVec.ofNat 8 (p.acc * 2 ^ (8 - p.nacc))], 8 - p.nacc, p.bitCount)
  else (p.out, 0, p.bitCount)

/-! ## Invariants -/

/-- The form every state of the machine has, whatever the host does: the flags agree with `PHASE` and `ERR`
(10_state.md R23, R25), no phase code is one that never occurs (30_encoding.md R74), every memory, the arena and the
queue are canonical and inside their index ranges (20_memory.md R50, 10_state.md R35, R37, R38). -/
structure Legal (s : State) : Prop where
  notBoth : ¬ (s.busy = true ∧ s.done = true)
  errfErr : s.errf = true ↔ s.err ≠ .none
  errfDone : s.errf = true → s.done = true
  busyPhase : s.busy = true ↔ s.phase ≠ 0#5
  phaseOccurs : s.phase.toNat ≤ 16
  textWf : s.text.wf = true
  packedWf : s.packed.wf = true
  clenWf : s.clen.wf = true
  cbitsWf : s.cbits.wf = true
  freqWf : s.freq.wf = true
  clenZeroed : s.clen.zeroed = true
  textRange : ∀ c ∈ s.text.cells, c.1 < Config.NMAX
  packedRange : ∀ c ∈ s.packed.cells, c.1 < Config.PMAX
  clenRange : ∀ c ∈ s.clen.cells, c.1 < Config.ALPHA
  cbitsRange : ∀ c ∈ s.cbits.cells, c.1 < Config.ALPHA
  freqRange : ∀ c ∈ s.freq.cells, c.1 < Config.ALPHA
  nodeRising : rising s.node = true
  nodeRange : ∀ c ∈ s.node, c.1 < Config.NODES
  queueRising : s.pq.Pairwise (· < ·)
  queueRange : ∀ n ∈ s.pq, n < Config.NODES
  nleafRange : s.nleaf ≤ Config.ALPHA
  nnextRange : s.nnext ≤ Config.NODES
  outposRange : s.outpos ≤ Config.NMAX

/-- How often y occurs in the text (40_frequency_table.md R90). -/
def occurrences (s : State) (y : Byte) : Nat := s.textSymbols.count y

/-- The text COMPRESS has admitted (43_compress_bitpacker.md R118). -/
def TextAdmitted (s : State) : Prop := s.textLen ≠ 0#32 ∧ s.textLen.toNat ≤ Config.NMAX

/-- `FREQ` is the text's table (40_frequency_table.md R91). -/
def TableOfText (s : State) : Prop := TextAdmitted s ∧ ∀ y, (s.freqAt y).toNat = occurrences s y

/-- The symbols that occur, ascending. -/
def alphabet (s : State) : List Byte := symbols.filter fun y => occurrences s y != 0

/-- The queue holds the roots of a forest of full trees over the alphabet, of the text's frequencies, that fills the
arena below `NNEXT` (41_tree_builder.md R97, R98, 10_state.md R36). -/
def Forest (s : State) : Prop :=
  ∃ ts : List PrefixTree,
    List.Forall₂ (fun n t => Roots s.node (some n) t) s.pq ts ∧
    (∀ t ∈ ts, t.full ∧ t.weighted (occurrences s)) ∧
    (ts.flatMap PrefixTree.syms).Perm (alphabet s) ∧
    s.nleaf = (alphabet s).length ∧
    s.nnext + s.pq.length = 2 * s.nleaf ∧
    ∀ n, (cellAt s.node n).isSome = true → n < s.nnext

/-- `ROOT` roots the prefix tree of the text: full, or the synthetic root over the only leaf
(41_tree_builder.md R99, R103). -/
def FinishedTree (s : State) : Prop :=
  ∃ t, Roots s.node (some s.root) t ∧ t.weighted (occurrences s) ∧ t.syms.Perm (alphabet s) ∧
    t.freq = s.textLen.toNat ∧
    ((t.full ∧ 2 ≤ t.leaves) ∨ ∃ y f, t = .node f (.leaf y f) .none)

/-- The code map of the encoder (42_code_assigner.md R113): one non-empty code for each symbol of the text, none a
prefix of another's. -/
def EncoderMap (s : State) : Prop :=
  (∀ y, s.clenAt y ≠ 0#8 ↔ y ∈ s.textSymbols) ∧ s.prefixFree = true

/-- The concatenated codes of the text (43_compress_bitpacker.md R119). -/
def encodedText (s : State) : Bits := s.textSymbols.flatMap s.code

/-- `REV` is the reverse of the code map (44_decompress.md R133): defined on the codes and nowhere else. -/
def Inverted (s : State) : Prop :=
  ∀ b y, revLookup s.rev b = some y ↔ s.clenAt y ≠ 0#8 ∧ s.code y = b

/-- What holds when a micro-operation is about to be executed, by the code in `PHASE` (30_encoding.md R82). -/
def PhaseInvariant (s : State) : Prop :=
  match s.phase.toNat with
  | 2 => TextAdmitted s
  | 3 => TableOfText s
  | 4 => TableOfText s ∧ Forest s ∧ 2 ≤ s.pq.length
  | 5 => TableOfText s ∧ Forest s ∧ s.nleaf = 1
  | 6 => TableOfText s ∧ Forest s ∧ s.pq.length = 1 ∧ 2 ≤ s.nleaf
  | 7 => TextAdmitted s ∧ FinishedTree s
  | 8 => TextAdmitted s ∧ EncoderMap s
  | 9 => TextAdmitted s ∧ EncoderMap s ∧ s.bits = encodedText s ∧ s.bitCount.toNat = s.bits.length
  | 10 => TextAdmitted s ∧ EncoderMap s ∧
      s.bits = encodedText s ++ List.replicate s.padBits.toNat false ∧
      s.bitCount.toNat = (encodedText s).length ∧ s.padBits.toNat = padding s.bitCount.toNat ∧
      s.bits.length / 8 ≤ Config.PMAX
  | 12 => s.packedLen.toNat ≤ Config.PMAX
  | 13 => s.packedLen.toNat ≤ Config.PMAX ∧ s.packedLen ≠ 0#32 ∧ s.prefixFree = true
  | 14 => s.packedLen.toNat ≤ Config.PMAX ∧ s.packedLen ≠ 0#32 ∧ s.prefixFree = true ∧ Inverted s
  | 15 => s.packedLen.toNat ≤ Config.PMAX ∧ s.prefixFree = true ∧ Inverted s ∧ s.padBits.toNat ≤ 7 ∧
      s.bitCount.toNat + s.padBits.toNat = 8 * s.packedLen.toNat
  | 16 => s.prefixFree = true ∧ Inverted s ∧ s.bits = (List.range s.bitCount.toNat).map s.streamBit
  | _ => True

end Sys2Proof.Safety
end

