-- ==== Sys2Proof/Certificates/Slice0/Obligations.lean ====
section
/-! DEFINITION. The statements. `{ t with f := s.f, … } = s` says that t differs from s at most in the fields f
named; what t holds there is said beside it. -/

open Sys2Proof Sys2Proof.Machine Sys2Proof.Safety

/-! ## Encoding and fetch -/

/-- The command words and phase codes as the opcode table writes them (30_encoding.md R71 to R74). -/
def Obligations.SpecWordsDecode : Prop :=
  decode (.command 0x00000001#32) = .ok .compress ∧
  decode (.command 0x00000002#32) = .ok .decompress ∧
  decode (.command 0x00000000#32) = .ok (.illegal 0x000000#24 0x00#8) ∧
  decode (.command 0x00000003#32) = .ok (.illegal 0x000000#24 0x03#8) ∧
  decode (.command 0x00000101#32) = .ok (.illegal 0x000001#24 0x01#8) ∧
  decode (.phase 0b00000#5) = .ok .idle ∧
  decode (.phase 0b00001#5) = .ok .cStart ∧
  decode (.phase 0b00010#5) = .ok .ftBuild ∧
  decode (.phase 0b00100#5) = .ok .tbMerge ∧
  decode (.phase 0b00111#5) = .ok .caAssign ∧
  decode (.phase 0b01010#5) = .ok .bpPack ∧
  decode (.phase 0b01011#5) = .ok .dStart ∧
  decode (.phase 0b01111#5) = .ok .buUnpack ∧
  decode (.phase 0b10000#5) = .ok .srScan

/-- Decoding an encoded well-formed operation gives it back, and every word that decodes is the encoding of the
well-formed operation it decodes to; only the queue primitives have no encoding (30_encoding.md R71 to R74). -/
def Obligations.DecodeInvertsEncode : Prop :=
  (∀ i w, i.wellFormed = true → encode i = some w → decode w = .ok i) ∧
  (∀ i w, decode w = .ok i → i.wellFormed = true ∧ encode i = some w) ∧
  (∀ i, encode i = none ↔ i.format = .primitive)

/-- A step executes the operation the phase code or the written command word decodes to (30_encoding.md R74,
10_state.md R22); what the step adds is taking the host's action off its script (log 5). -/
def Obligations.StepExecutesTheFetchedOperation : Prop :=
  ∀ (s : State) (i : Instr) (rest : List HostEvent),
    (s.inputs = [] → decode (.phase s.phase) = .ok i → step s = exec i s) ∧
    (s.inputs = .engine :: rest → decode (.phase s.phase) = .ok i → step s = exec i { s with inputs := rest }) ∧
    (s.inputs = .wait :: rest → s.done = false → decode (.phase s.phase) = .ok i →
      step s = exec i { s with readData := some (.word s.statusWord) }) ∧
    (∀ v, s.inputs = .writeReg 0 v :: rest → decode (.command v) = .ok i →
      step s = exec i { s with inputs := rest })

/-- A table word that decodes is what the next step runs when it is placed where the step fetches (log 20). -/
def Obligations.PlacedTableWordRuns : Prop :=
  ∀ (s : State) (nbits w : Nat) (i : Instr), decodeTableWord nbits w = some i →
    step (s.withFetchWord nbits w) = exec i (if nbits = 32 then s else { s with phase := BitVec.ofNat 5 w })

/-- Phase codes 17 to 31 never occur and select nothing (30_encoding.md R74). -/
def Obligations.UnusedPhaseCodesRefused : Prop :=
  ∀ s : State, s.inputs = [] → 17 ≤ s.phase.toNat → step s = .refused .phaseNeverOccurs

/-! ## Reset -/

/-- The values the spec gives for reset; an element it calls unspecified holds a free value (10_state.md R44, log 1). -/
def Obligations.ResetStateValues : Prop :=
  State.reset.statusWord = 0#32 ∧ State.reset.errWord = 0#32 ∧ State.reset.phaseWord = 0#32 ∧
  State.reset.textLen = 0#32 ∧ State.reset.packedLen = 0#32 ∧ State.reset.padBits = 0#32 ∧
  State.reset.bitCount = 0#32 ∧
  (∀ y, State.reset.clenAt y = 0#8) ∧
  (∀ y, State.reset.cbitsAt y = Config.freeCbits 0 y.toNat) ∧
  (∀ i, State.reset.textAt i = Config.freeText 0 i) ∧
  (∀ j, State.reset.packedAt j = Config.freePacked 0 j)

/-- The reset event gives the reset values in any state, a running command included; it reports nothing, and `TEXT`,
`PACKED`, `CBITS` and `FREQ` become unspecified (70_reset_and_hazards.md R176; log 2, 23). -/
def Obligations.ResetEventFromAnyState : Prop :=
  ∀ (s : State) (rest : List HostEvent), s.inputs = .reset :: rest →
    ∃ t, step s = .next t ∧
      t.statusWord = 0#32 ∧ t.errWord = 0#32 ∧ t.phase = 0#5 ∧
      t.textLen = 0#32 ∧ t.packedLen = 0#32 ∧ t.padBits = 0#32 ∧ t.bitCount = 0#32 ∧
      (∀ y, t.clenAt y = 0#8) ∧
      (∀ y, t.cbitsAt y = Config.freeCbits (s.cbits.epoch + 1) y.toNat) ∧
      (∀ i, t.textAt i = Config.freeText (s.text.epoch + 1) i) ∧
      (∀ j, t.packedAt j = Config.freePacked (s.packed.epoch + 1) j) ∧
      (∀ y, t.freqAt y = Config.freeFreq (s.freq.epoch + 1) y.toNat) ∧
      t.inputs = rest ∧ t.readData = s.readData ∧ t.draws = s.draws

/-- Either command issued straight after reset succeeds with empty results (70_reset_and_hazards.md R177). -/
def Obligations.CommandsAfterResetGiveEmptyResults : Prop :=
  (∃ t, runSteps 2 { State.reset with inputs := [.writeReg 0 0x00000001#32] } = .next t ∧ Ended .none t ∧
    t.packedLen = 0#32 ∧ (∀ y, t.clenAt y = 0#8) ∧ t.padBits = 0#32 ∧ t.bitCount = 0#32) ∧
  (∃ t, runSteps 2 { State.reset with inputs := [.writeReg 0 0x00000002#32] } = .next t ∧ Ended .none t ∧
    t.textLen = 0#32)

/-! ## Commands -/

/-- What the write of a command word does, decoded on all 32 bits, and that it does nothing while busy (10_state.md R22,
60_exceptions.md R154). The last clause, that a read of `CMD` gives 0, is R22's while idle; while busy it is the
model's choice (log 8), and it is seen through the model's own `readData` (log 9). -/
def Obligations.CmdWriteStartsOrRejects : Prop :=
  ∀ (s : State) (v : Reg) (rest : List HostEvent), s.inputs = .writeReg 0 v :: rest →
    (s.busy = true → step s = .next { s with inputs := rest }) ∧
    (s.busy = false → v = 0x00000001#32 →
      step s = .next { s with
        inputs := rest, err := .none, errf := false, done := false, busy := true, phase := 0b00001#5 }) ∧
    (s.busy = false → v = 0x00000002#32 →
      step s = .next { s with
        inputs := rest, err := .none, errf := false, done := false, busy := true, phase := 0b01011#5 }) ∧
    (s.busy = false → v ≠ 0x00000001#32 → v ≠ 0x00000002#32 →
      step s = .next { s with inputs := rest, err := .illegalCommand, errf := true, done := true }) ∧
    (s.hostRead .reg 0).readData = some (.word 0#32)

/-- COMPRESS and DECOMPRESS start their first micro-operation when the block is not busy and are ignored when it is
(10_state.md R22). -/
def Obligations.CommandsStartWhenIdle : Prop :=
  ∀ s : State,
    (s.busy = false →
      exec .compress s = .next { s with
        err := .none, errf := false, done := false, busy := true, phase := 0b00001#5 } ∧
      exec .decompress s = .next { s with
        err := .none, errf := false, done := false, busy := true, phase := 0b01011#5 }) ∧
    (s.busy = true → exec .compress s = .next s ∧ exec .decompress s = .next s)

/-- An illegal command word changes only `ERR` and `STATUS` (60_exceptions.md R154). -/
def Obligations.IllegalWordRecordsOnlyTheError : Prop :=
  ∀ (s : State) (zero : BitVec 24) (op : BitVec 8),
    (s.busy = false →
      exec (.illegal zero op) s = .next { s with err := .illegalCommand, errf := true, done := true }) ∧
    (s.busy = true → exec (.illegal zero op) s = .next s)

/-- The idle engine does nothing (10_state.md R25, 30_encoding.md R74). -/
def Obligations.IdleChangesNothing : Prop := ∀ s : State, exec .idle s = .next s

/-! ## COMPRESS -/

/-- C.START: too long a text, the empty text, and the rest (43_compress_bitpacker.md R118). -/
def Obligations.CStartAdmits : Prop :=
  ∀ s : State,
    (65535 < s.textLen.toNat → ∃ t, exec .cStart s = .next t ∧ RaisedInCompress .capacityExceeded s t) ∧
    (s.textLen = 0#32 → ∃ t, exec .cStart s = .next t ∧ Ended .none t ∧
      t.packedLen = 0#32 ∧ t.padBits = 0#32 ∧ t.bitCount = 0#32 ∧
      (∀ y, t.clenAt y = 0#8 ∧ t.cbitsAt y = 0#255) ∧
      { t with
        err := s.err, errf := s.errf, busy := s.busy, done := s.done, phase := s.phase, packedLen := s.packedLen,
        padBits := s.padBits, bitCount := s.bitCount, clen := s.clen, cbits := s.cbits } = s) ∧
    (s.textLen ≠ 0#32 → s.textLen.toNat ≤ 65535 → exec .cStart s = .next { s with phase := 0b00010#5 })

/-- FT.BUILD counts the occurrences of every symbol value and changes nothing else (40_frequency_table.md R90). -/
def Obligations.FtBuildCountsOccurrences : Prop :=
  ∀ s : State, s.textLen.toNat ≤ 65535 →
    ∃ t, exec .ftBuild s = .next t ∧ t.phase = 0b00011#5 ∧
      (∀ y, (t.freqAt y).toNat = (List.range s.textLen.toNat).countP fun i => s.textAt i == y) ∧
      { t with freq := s.freq, phase := s.phase } = s

/-- The frequency table's invariant: the counts sum to the text's length, its keys are the symbols that occur, and
their number A is at most `TEXT_LEN` and 256, at least 1 for a text that is not empty and 0 for the empty one
(40_frequency_table.md R91). -/
def Obligations.FrequencyTableInvariant : Prop :=
  ∀ s t : State, exec .ftBuild s = .next t →
    (symbols.map fun y => (t.freqAt y).toNat).sum = t.textLen.toNat ∧
    (∀ y, 0 < (t.freqAt y).toNat ↔ ∃ i, i < t.textLen.toNat ∧ t.textAt i = y) ∧
    (symbols.countP fun y => decide (0 < (t.freqAt y).toNat)) ≤ min t.textLen.toNat 256 ∧
    (1 ≤ t.textLen.toNat → 1 ≤ symbols.countP fun y => decide (0 < (t.freqAt y).toNat)) ∧
    (t.textLen.toNat = 0 → (symbols.countP fun y => decide (0 < (t.freqAt y).toNat)) = 0)

/-- TB.LOAD makes one leaf per key, in ascending symbol order, and queues them all; it refuses the empty table
(41_tree_builder.md R97, R102). -/
def Obligations.TbLoadMakesOneLeafPerKey : Prop :=
  ∀ (s : State) (keys : List Byte), keys = symbols.filter (fun y => s.freqAt y != 0#16) →
    (keys = [] → exec .tbLoad s = .refused .emptyFrequencyTable) ∧
    (keys ≠ [] → ∃ t, exec .tbLoad s = .next t ∧
      (∀ n, cellAt t.node n = (keys[n]?).map fun y => .leaf y (s.freqAt y)) ∧
      t.pq = List.range keys.length ∧ t.nnext = keys.length ∧ t.nleaf = keys.length ∧
      t.phase = (if keys.length = 1 then 0b00101#5 else 0b00100#5) ∧
      { t with node := s.node, pq := s.pq, nnext := s.nnext, nleaf := s.nleaf, phase := s.phase } = s)

/-- PQ.INSERT adds its operand to the set and does nothing else (41_tree_builder.md R95). -/
def Obligations.PqInsertAddsOneMember : Prop :=
  ∀ (s : State) (n : Nat), ∃ t, exec (.pqInsert n) s = .next t ∧
    (∀ m, m ∈ t.pq ↔ m = n ∨ m ∈ s.pq) ∧
    (s.pq.Pairwise (· < ·) → t.pq.Pairwise (· < ·)) ∧
    { t with pq := s.pq } = s

/-- PQ.EXTRACTMIN returns the member with the least key (frequency, index) and removes only it (41_tree_builder.md
R96). Where the returned member is kept, `pqOut`, is the model's choice (log 9). -/
def Obligations.PqExtractminTakesTheLeastKey : Prop :=
  ∀ s : State, s.pq ≠ [] → QueueAllocated s →
    ∃ n t, exec .pqExtractmin s = .next t ∧ t.pqOut = some n ∧ IsLeast s.node s.pq n ∧
      t.pq = s.pq.filter (fun m => m != n) ∧
      { t with pq := s.pq, pqOut := s.pqOut } = s

/-- TB.MERGE extracts the two least, merges them first on the left, and reinserts the merged node
(41_tree_builder.md R98). -/
def Obligations.TbMergeJoinsTheTwoLeast : Prop :=
  ∀ s : State, s.pq.Pairwise (· < ·) → 2 ≤ s.pq.length → QueueAllocated s → s.nnext < 512 →
    cellAt s.node s.nnext = none →
    ∃ a b t, exec .tbMerge s = .next t ∧
      IsLeast s.node s.pq a ∧ IsLeast s.node (s.pq.filter fun m => m != a) b ∧
      cellAt t.node s.nnext =
        some (.internal (BitVec.ofNat 16 (nodeFreq s.node a + nodeFreq s.node b)) (some a) (some b)) ∧
      (∀ n, n ≠ s.nnext → cellAt t.node n = cellAt s.node n) ∧
      (∀ m, m ∈ t.pq ↔ m = s.nnext ∨ (m ∈ s.pq ∧ m ≠ a ∧ m ≠ b)) ∧
      t.pq.Pairwise (· < ·) ∧ t.pq.length + 1 = s.pq.length ∧ t.nnext = s.nnext + 1 ∧
      t.phase = (if 2 ≤ t.pq.length then 0b00100#5 else 0b00110#5) ∧
      { t with node := s.node, pq := s.pq, nnext := s.nnext, phase := s.phase } = s

/-- TB.WRAP puts the lone leaf as the left child of a synthetic root of its frequency (41_tree_builder.md R99). -/
def Obligations.TbWrapMakesTheSyntheticRoot : Prop :=
  ∀ (s : State) (l : Nat) (r : Node), s.pq = [l] → cellAt s.node l = some r → s.nnext < 512 →
    ∃ t, exec .tbWrap s = .next t ∧
      cellAt t.node s.nnext = some (.internal r.freq (some l) none) ∧
      (∀ n, n ≠ s.nnext → cellAt t.node n = cellAt s.node n) ∧
      t.root = s.nnext ∧ t.nnext = s.nnext + 1 ∧ t.pq = [] ∧ t.phase = 0b00111#5 ∧
      { t with node := s.node, root := s.root, nnext := s.nnext, pq := s.pq, phase := s.phase } = s

/-- TB.FINISH makes the last queued node the root (41_tree_builder.md R100). -/
def Obligations.TbFinishMakesTheLastNodeRoot : Prop :=
  ∀ (s : State) (n : Nat), s.pq = [n] → (cellAt s.node n).isSome = true →
    exec .tbFinish s = .next { s with root := n, pq := [], phase := 0b00111#5 }

/-- When the operations over the queue and the arena stop (41_tree_builder.md R96, R98, R99; log 10, 11). -/
def Obligations.QueueOperationsStopOnBrokenPreconditions : Prop :=
  ∀ s : State,
    (s.pq = [] → ∀ i ∈ [Instr.pqExtractmin, .tbMerge, .tbWrap, .tbFinish], exec i s = .refused .queueEmpty) ∧
    (∀ n, s.pq = [n] → QueueAllocated s → exec .tbMerge s = .refused .queueEmpty) ∧
    (s.pq ≠ [] → ¬ QueueAllocated s →
      ∀ i ∈ [Instr.pqExtractmin, .tbMerge, .tbWrap, .tbFinish], exec i s = .refused .nodeUnallocated) ∧
    (s.pq ≠ [] → QueueAllocated s → 512 ≤ s.nnext → exec .tbWrap s = .refused .arenaFull) ∧
    (s.pq.Pairwise (· < ·) → 2 ≤ s.pq.length → QueueAllocated s → 512 ≤ s.nnext →
      exec .tbMerge s = .refused .arenaFull)

/-- CA.ASSIGN writes each leaf's path as its code, `"0"` for an empty path, leaves every other entry absent and every
position above a code 0 (42_code_assigner.md R110 to R112). -/
def Obligations.CaAssignWritesLeafPaths : Prop :=
  ∀ (s : State) (tree : PrefixTree), Roots s.node (some s.root) tree → tree.size ≤ 512 → tree.depth ≤ 255 →
    tree.syms.Nodup →
    ∃ t, exec .caAssign s = .next t ∧ t.phase = 0b01000#5 ∧ t.walkStack = [] ∧
      (∀ y path, (y, path) ∈ tree.paths → t.code y = if path = [] then [false] else path) ∧
      (∀ y, y ∉ tree.syms → t.clenAt y = 0#8) ∧
      (∀ y k, (t.clenAt y).toNat ≤ k → (t.cbitsAt y).getLsbD k = false) ∧
      { t with clen := s.clen, cbits := s.cbits, walkStack := s.walkStack, phase := s.phase } = s

/-- The codes of a tree's leaves are not empty and none is a prefix of another (42_code_assigner.md R111, R113). -/
def Obligations.TreeCodesArePrefixFree : Prop :=
  ∀ (s t : State) (tree : PrefixTree), Roots s.node (some s.root) tree → tree.syms.Nodup → exec .caAssign s = .next t →
    (∀ y ∈ tree.syms, t.code y ≠ []) ∧
    ∀ y ∈ tree.syms, ∀ z ∈ tree.syms, y ≠ z → ¬ t.code y <+: t.code z

/-- When CA.ASSIGN stops: an unallocated root, a leaf too deep for its code, an arena that is no tree of at most `NODES`
nodes (42_code_assigner.md R110, 41_tree_builder.md R103; log 10, 13). -/
def Obligations.CaAssignStopsOnWhatIsNoPrefixTree : Prop :=
  ∀ s : State,
    (cellAt s.node s.root = none → exec .caAssign s = .refused .nodeUnallocated) ∧
    (∀ tree, Roots s.node (some s.root) tree → tree.size ≤ 512 → (∃ p ∈ tree.paths, 255 < p.2.length) →
      exec .caAssign s = .refused .codeTooLong) ∧
    (∀ tree, Roots s.node (some s.root) tree → 512 < tree.size → tree.depth ≤ 255 →
      exec .caAssign s = .refused .notATree)

/-- BP.CONCAT joins the codes of the text in order; `BITCOUNT` is the number of their bits, which is the sum of the
codes' lengths and at least the text's length where every symbol has a code (43_compress_bitpacker.md R119). -/
def Obligations.BpConcatJoinsTheCodes : Prop :=
  ∀ s : State, s.textLen.toNat ≤ 65535 →
    ∃ t, exec .bpConcat s = .next t ∧ t.phase = 0b01001#5 ∧
      t.bits = (List.range s.textLen.toNat).flatMap (fun i => s.code (s.textAt i)) ∧
      t.bitCount.toNat = t.bits.length ∧
      t.bitCount.toNat = ((List.range s.textLen.toNat).map fun i => (s.clenAt (s.textAt i)).toNat).sum ∧
      ((∀ i, i < s.textLen.toNat → s.clenAt (s.textAt i) ≠ 0#8) → s.textLen.toNat ≤ t.bitCount.toNat) ∧
      { t with bits := s.bits, bitCount := s.bitCount, phase := s.phase } = s

/-- BP.PAD appends the zero bits that reach the next byte boundary, or raises where the stream does not fit `PACKED`
(43_compress_bitpacker.md R120). -/
def Obligations.BpPadReachesTheByteBoundary : Prop :=
  ∀ (s : State) (pad : Nat), pad = (8 - s.bitCount.toNat % 8) % 8 →
    (65535 < (s.bitCount.toNat + pad) / 8 →
      ∃ t, exec .bpPad s = .next t ∧ RaisedInCompress .capacityExceeded s t) ∧
    ((s.bitCount.toNat + pad) / 8 ≤ 65535 →
      exec .bpPad s = .next { s with
        padBits := BitVec.ofNat 32 pad, bits := s.bits ++ List.replicate pad false, phase := 0b01010#5 })

/-- BP.PACK writes each group of eight bits as a byte, most significant bit first, and completes
(43_compress_bitpacker.md R121, 20_memory.md R51). -/
def Obligations.BpPackWritesBigEndianBytes : Prop :=
  ∀ s : State, s.bits.length / 8 ≤ 65535 →
    ∃ t, exec .bpPack s = .next t ∧ Ended .none t ∧ t.packedLen.toNat = s.bits.length / 8 ∧
      (∀ j, j < s.bits.length / 8 → (t.packedAt j).toNat =
        ((List.range 8).map fun k => (s.bits.getD (8 * j + k) false).toNat * 2 ^ (7 - k)).sum) ∧
      (∀ j, s.bits.length / 8 ≤ j → t.packedAt j = s.packedAt j) ∧
      { t with
        err := s.err, errf := s.errf, busy := s.busy, done := s.done, phase := s.phase, packedLen := s.packedLen,
        packed := s.packed } = s

/-- The metadata of every payload COMPRESS produces without error, the empty one included
(43_compress_bitpacker.md R123). -/
def Obligations.PayloadMetadataRelations : Prop :=
  ∀ (s t : State) (k : Nat), Legal s → s.busy = false →
    runSteps (k + 1) { s with inputs := [.writeReg 0 0x00000001#32] } = .next t → t.done = true → t.err = .none →
    t.padBits.toNat ≤ 7 ∧ (t.bitCount.toNat + t.padBits.toNat) % 8 = 0 ∧
    t.packedLen.toNat = (t.bitCount.toNat + t.padBits.toNat) / 8 ∧
    t.packedLen.toNat = (t.bitCount.toNat + 7) / 8 ∧
    (t.bitCount.toNat = 0 ↔ t.textLen.toNat = 0) ∧ t.textLen.toNat ≤ t.bitCount.toNat

/-- COMPRESS without error gives exactly the symbols of the text a code, each non-empty, none a prefix of another's
(42_code_assigner.md R113). -/
def Obligations.CompressProducesAPrefixFreeMap : Prop :=
  ∀ (s t : State) (k : Nat), Legal s → s.busy = false →
    runSteps (k + 1) { s with inputs := [.writeReg 0 0x00000001#32] } = .next t → t.done = true → t.err = .none →
    (∀ y, t.clenAt y ≠ 0#8 ↔ ∃ i, i < t.textLen.toNat ∧ t.textAt i = y) ∧
    (∀ y, t.clenAt y ≠ 0#8 → t.code y ≠ []) ∧
    (∀ y z, y ≠ z → t.clenAt y ≠ 0#8 → t.clenAt z ≠ 0#8 → ¬ t.code y <+: t.code z)

/-- The streaming bit packer gives the bytes, the padding and the bit count of BP.CONCAT, BP.PAD and BP.PACK
(43_compress_bitpacker.md R124). -/
def Obligations.StreamingPackerAgrees : Prop :=
  ∀ (stream padded : Bits), padded = stream ++ List.replicate (padding stream.length) false →
    streamPack stream =
      ((List.range (padded.length / 8)).map (packByte padded), padding stream.length, stream.length)

/-! ## DECOMPRESS -/

/-- D.START: too long a stream, the empty payload, its inconsistent metadata, and the rest (44_decompress.md R131). -/
def Obligations.DStartAdmits : Prop :=
  ∀ s : State,
    (65535 < s.packedLen.toNat → exec .dStart s = .next (raisedInDecompress s .capacityExceeded)) ∧
    ((∀ y, s.clenAt y = 0#8) → s.packedLen = 0#32 →
      (s.padBits = 0#32 → s.bitCount = 0#32 →
        exec .dStart s = .next { s with
          textLen := 0#32, err := .none, errf := false, busy := false, done := true, phase := 0b00000#5 }) ∧
      (s.padBits ≠ 0#32 ∨ s.bitCount ≠ 0#32 →
        exec .dStart s = .next (raisedInDecompress s .malformedPayload))) ∧
    (s.packedLen.toNat ≤ 65535 → (∃ y, s.clenAt y ≠ 0#8) ∨ s.packedLen ≠ 0#32 →
      exec .dStart s = .next { s with phase := 0b01100#5 })

/-- D.MAPCHECK raises InvalidCodeMap on an empty map, empty bytes, or a code that is a prefix of another symbol's, and
otherwise goes on (44_decompress.md R132). -/
def Obligations.DMapcheckChecksTheCodeMap : Prop :=
  ∀ s : State,
    ((∀ y, s.clenAt y = 0#8) ∨ s.packedLen = 0#32 →
      exec .dMapcheck s = .next (raisedInDecompress s .invalidCodeMap)) ∧
    ((∃ y z, y ≠ z ∧ s.clenAt y ≠ 0#8 ∧ s.clenAt z ≠ 0#8 ∧ s.code y <+: s.code z) →
      exec .dMapcheck s = .next (raisedInDecompress s .invalidCodeMap)) ∧
    ((∃ y, s.clenAt y ≠ 0#8) → s.packedLen ≠ 0#32 →
      (∀ y z, y ≠ z → s.clenAt y ≠ 0#8 → s.clenAt z ≠ 0#8 → ¬ s.code y <+: s.code z) →
      exec .dMapcheck s = .next { s with phase := 0b01101#5 })

/-- D.INVERT makes `REV` defined on the codes, with their symbols, and nowhere else; it refuses two equal codes
(44_decompress.md R133; log 15). -/
def Obligations.DInvertReversesTheCodeMap : Prop :=
  ∀ s : State,
    ((∀ y z, y ≠ z → s.clenAt y ≠ 0#8 → s.clenAt z ≠ 0#8 → s.code y ≠ s.code z) →
      ∃ t, exec .dInvert s = .next t ∧ t.phase = 0b01110#5 ∧
        (∀ b y, revLookup t.rev b = some y ↔ s.clenAt y ≠ 0#8 ∧ s.code y = b) ∧
        { t with rev := s.rev, phase := s.phase } = s) ∧
    ((∃ y z, y ≠ z ∧ s.clenAt y ≠ 0#8 ∧ s.clenAt z ≠ 0#8 ∧ s.code y = s.code z) →
      exec .dInvert s = .refused .reverseMapIllDefined)

/-- D.META compares the metadata as natural numbers (44_decompress.md R134). -/
def Obligations.DMetaChecksTheLengths : Prop :=
  ∀ s : State,
    (7 < s.padBits.toNat ∨ s.bitCount.toNat + s.padBits.toNat ≠ 8 * s.packedLen.toNat →
      exec .dMeta s = .next (raisedInDecompress s .malformedPayload)) ∧
    (s.padBits.toNat ≤ 7 → s.bitCount.toNat + s.padBits.toNat = 8 * s.packedLen.toNat →
      exec .dMeta s = .next { s with phase := 0b01111#5 })

/-- BU.UNPACK reads the first `BITCOUNT` stream bits, most significant bit of each byte first (44_decompress.md R135,
20_memory.md R52). -/
def Obligations.BuUnpackReadsTheStreamBits : Prop :=
  ∀ s : State, s.bitCount.toNat ≤ 8 * 65535 →
    ∃ t, exec .buUnpack s = .next t ∧ t.phase = 0b10000#5 ∧ t.bits.length = s.bitCount.toNat ∧
      (∀ n, n < s.bitCount.toNat → t.bits[n]? = some ((s.packedAt (n / 8)).toNat.testBit (7 - n % 8))) ∧
      { t with bits := s.bits, phase := s.phase } = s

/-- Every stream has a greedy reading, and SR.SCAN emits its symbols: with nothing left over it completes; with a
leftover it raises MalformedPayload; past `NMAX` symbols it raises CapacityExceeded, `TEXT` being unspecified after
either (44_decompress.md R136, R137, 60_exceptions.md R159). -/
def Obligations.SrScanEmitsTheGreedyReading : Prop :=
  ∀ s : State, ∃ ws rest t, GreedyParse s.rev s.bits ws rest ∧ exec .srScan s = .next t ∧
    (ws.length ≤ 65535 → rest = [] →
      Ended .none t ∧ t.textLen.toNat = ws.length ∧
      (∀ k, k < ws.length → (ws[k]?).map Prod.snd = some (t.textAt k)) ∧
      (∀ k, ws.length ≤ k → t.textAt k = s.textAt k)) ∧
    (ws.length ≤ 65535 → rest ≠ [] →
      Ended .malformedPayload t ∧ t.textLen = 0#32 ∧
      ∀ k, t.textAt k = Config.freeText (s.text.epoch + 1) k) ∧
    (65535 < ws.length →
      Ended .capacityExceeded t ∧ t.textLen = 0#32 ∧
      ∀ k, t.textAt k = Config.freeText (s.text.epoch + 1) k) ∧
    { t with
      err := s.err, errf := s.errf, busy := s.busy, done := s.done, phase := s.phase, text := s.text,
      textLen := s.textLen, buf := s.buf, outpos := s.outpos } = s

/-- Unpacking what BP.PACK packed gives back the stream's first `BITCOUNT` bits (20_memory.md R51, R52). -/
def Obligations.UnpackInvertsPack : Prop :=
  ∀ s t u : State, s.bits.length % 8 = 0 → s.bitCount.toNat ≤ s.bits.length →
    exec .bpPack s = .next t → exec .buUnpack t = .next u → u.bits = s.bits.take s.bitCount.toNat

/-- The greedy scan of a concatenation of codes of a prefix-free map returns the symbols in order
(44_decompress.md R138, 30_encoding.md R79). -/
def Obligations.ScanOfConcatenatedCodesReturnsTheSymbols : Prop :=
  ∀ (s : State) (ys : List Byte), s.prefixFree = true → Inverted s → (∀ y ∈ ys, s.clenAt y ≠ 0#8) →
    ys.length ≤ 65535 → s.bits = ys.flatMap s.code →
    ∃ t, exec .srScan s = .next t ∧ Ended .none t ∧ t.textLen.toNat = ys.length ∧
      ∀ k, k < ys.length → ys[k]? = some (t.textAt k)

/-- A stream that contains the code of a symbol missing from the map ends in MalformedPayload (44_decompress.md R140). -/
def Obligations.MissingCodeIsMalformed : Prop :=
  ∀ (s : State) (ys : List Byte) (x : Byte), s.prefixFree = true → (∀ y ∈ ys, s.clenAt y ≠ 0#8) → x ∈ ys →
    ys.length ≤ 65535 → s.bits = ys.flatMap s.code →
    (∀ b y, revLookup s.rev b = some y ↔ y ≠ x ∧ s.clenAt y ≠ 0#8 ∧ s.code y = b) →
    ∃ t, exec .srScan s = .next t ∧ Ended .malformedPayload t ∧ t.textLen = 0#32

/-- The engine's accesses outside a space stop it (20_memory.md R57; log 16). -/
def Obligations.AccessOutsideASpaceFaults : Prop :=
  ∀ s : State,
    (65535 < s.textLen.toNat →
      exec .ftBuild s = .fault (.noSuchElement .text) ∧ exec .bpConcat s = .fault (.noSuchElement .text)) ∧
    (65535 < s.bits.length / 8 → exec .bpPack s = .fault (.noSuchElement .packed)) ∧
    (8 * 65535 < s.bitCount.toNat → exec .buUnpack s = .fault (.noSuchElement .packed))

/-! ## The host -/

/-- A host write to a register other than `CMD` while not busy: the four data registers take the value, every other
index has no effect (10_state.md R21, 20_memory.md R57). That it does so from `BUSY` = 0 on, `DONE` read or not, is the
model's choice (log 26). -/
def Obligations.HostWritesDataRegisters : Prop :=
  ∀ (s : State) (i : Nat) (v : Reg) (rest : List HostEvent), s.inputs = .writeReg i v :: rest → i ≠ 0 →
    s.busy = false →
    step s = .next { s with
      inputs := rest
      textLen := if i = 4 then v else s.textLen
      packedLen := if i = 5 then v else s.packedLen
      padBits := if i = 6 then v else s.padBits
      bitCount := if i = 7 then v else s.bitCount }

/-- A host write to a memory element while not busy stores it and nothing else; outside the space it has no effect
(20_memory.md R50, R55, R57). That it does so from `BUSY` = 0 on, `DONE` read or not, is the model's choice (log 26). -/
def Obligations.HostWritesOneElement : Prop :=
  ∀ (s : State) (i : Nat) (rest : List HostEvent), s.busy = false →
    (∀ v, s.inputs = .writeText i v :: rest → ∃ t, step s = .next t ∧
      (∀ j, t.textAt j = if j = i ∧ i < 65535 then v else s.textAt j) ∧ t.inputs = rest ∧
      { t with inputs := s.inputs, text := s.text } = s) ∧
    (∀ v, s.inputs = .writePacked i v :: rest → ∃ t, step s = .next t ∧
      (∀ j, t.packedAt j = if j = i ∧ i < 65535 then v else s.packedAt j) ∧ t.inputs = rest ∧
      { t with inputs := s.inputs, packed := s.packed } = s) ∧
    (∀ v, s.inputs = .writeClen i v :: rest → ∃ t, step s = .next t ∧
      (∀ y : Byte, t.clenAt y = if y.toNat = i then v else s.clenAt y) ∧ t.inputs = rest ∧
      { t with inputs := s.inputs, clen := s.clen } = s) ∧
    (∀ v, s.inputs = .writeCbits i v :: rest → ∃ t, step s = .next t ∧
      (∀ y : Byte, t.cbitsAt y = if y.toNat = i then v else s.cbitsAt y) ∧ t.inputs = rest ∧
      { t with inputs := s.inputs, cbits := s.cbits } = s)

/-- While busy every host write is ignored, the writes to `CMD` included (70_reset_and_hazards.md R180). -/
def Obligations.WritesWhileBusyAreIgnored : Prop :=
  ∀ (s : State) (e : HostEvent) (rest : List HostEvent), s.inputs = e :: rest → isHostWrite e = true →
    s.busy = true → step s = .next { s with inputs := rest }

/-- A host read changes nothing of the block and returns the element: the control registers at any time, the others
while not busy; any other read returns an unspecified value (20_memory.md R55, R57, 10_state.md R22 to R25,
70_reset_and_hazards.md R180). The unspecified values, `CMD` read while busy, `readData`, and that the elements can be
read from `BUSY` = 0 on, are the model's choices (log 7, 8, 9, 26). -/
def Obligations.HostReadsReturnTheElement : Prop :=
  ∀ (s : State) (sp : Space) (i : Nat) (rest : List HostEvent), s.inputs = .read sp i :: rest →
    ∃ t v, step s = .next t ∧ t.inputs = rest ∧ t.readData = some v ∧
      { t with inputs := s.inputs, readData := s.readData, draws := s.draws } = s ∧
      (sp = .reg → i = 0 → v = .word 0#32) ∧
      (sp = .reg → i = 1 → ∃ w : Reg, v = .word w ∧ w.getLsbD 0 = s.busy ∧ w.getLsbD 1 = s.done ∧
        w.getLsbD 2 = s.errf ∧ ∀ n, 3 ≤ n → w.getLsbD n = false) ∧
      (sp = .reg → i = 2 → ∃ w : Reg, v = .word w ∧ w.toNat = s.err.code) ∧
      (sp = .reg → i = 3 → ∃ w : Reg, v = .word w ∧ w.toNat = s.phase.toNat) ∧
      (s.busy = false →
        (sp = .reg → i = 4 → v = .word s.textLen) ∧ (sp = .reg → i = 5 → v = .word s.packedLen) ∧
        (sp = .reg → i = 6 → v = .word s.padBits) ∧ (sp = .reg → i = 7 → v = .word s.bitCount) ∧
        (sp = .text → i < 65535 → v = .byte (s.textAt i)) ∧
        (sp = .packed → i < 65535 → v = .byte (s.packedAt i)) ∧
        (∀ y : Byte, sp = .clen → i = y.toNat → v = .byte (s.clenAt y)) ∧
        (∀ y : Byte, sp = .cbits → i = y.toNat → v = .code (s.cbitsAt y))) ∧
      (s.busy = true → sp ≠ .reg ∨ 4 ≤ i → v = drawnValue sp s.draws ∧ t.draws = s.draws + 1) ∧
      (sp = .reg ∧ 8 ≤ i ∨ sp = .text ∧ 65535 ≤ i ∨ sp = .packed ∧ 65535 ≤ i ∨ sp = .clen ∧ 256 ≤ i ∨
        sp = .cbits ∧ 256 ≤ i → v = drawnValue sp s.draws ∧ t.draws = s.draws + 1)

/-! ## The whole machine -/

/-- COMPRESS never writes `TEXT` or `TEXT_LEN`; DECOMPRESS never writes the payload and touches no encoder state
(20_memory.md R62, 30_encoding.md R75, 00_scope.md R3). -/
def Obligations.CommandsKeepTheirInputs : Prop :=
  (∀ i ∈ compressOps, ∀ s t : State, exec i s = .next t → t.text = s.text ∧ t.textLen = s.textLen) ∧
  (∀ i ∈ decompressOps, ∀ s t : State, exec i s = .next t →
    t.packed = s.packed ∧ t.packedLen = s.packedLen ∧ t.clen = s.clen ∧ t.cbits = s.cbits ∧
    t.padBits = s.padBits ∧ t.bitCount = s.bitCount ∧ t.freq = s.freq ∧ t.node = s.node ∧ t.pq = s.pq ∧
    t.nleaf = s.nleaf ∧ t.nnext = s.nnext ∧ t.root = s.root)

/-- A micro-operation leaves the flags and `ERR` alone or ends its command with one of its own codes
(60_exceptions.md R156, 10_state.md R23, R24). -/
def Obligations.MicroOperationsEndOnlyWithTheirCodes : Prop :=
  ∀ i ∈ compressOps ++ decompressOps, ∀ s t : State, exec i s = .next t →
    (t.err = s.err ∧ t.errf = s.errf ∧ t.busy = s.busy ∧ t.done = s.done) ∨ ∃ e ∈ endCodes i, Ended e t

/-- The micro-operation graph (30_encoding.md R82). -/
def Obligations.PhaseFollowsTheGraph : Prop :=
  ∀ i ∈ compressOps ++ decompressOps, ∀ s t : State, exec i s = .next t → t.phase ∈ successors i

/-- The state after reset is legal. -/
def Obligations.ResetIsLegal : Prop := Legal State.reset

/-- Every step keeps the legal form: flags that agree, a phase code that occurs, canonical memories inside their ranges
(10_state.md R23, R25, 20_memory.md R50). -/
def Obligations.StepKeepsLegal : Prop := ∀ s t : State, Legal s → step s = .next t → Legal t

/-- Between commands nothing is asked of the engine: the state after reset meets the phase invariant. -/
def Obligations.ResetMeetsThePhaseInvariant : Prop := PhaseInvariant State.reset

/-- From a state that meets the invariants no step stops, whatever the host does, and the next state meets the phase
invariant again: the engine accesses no element outside a space, and the tree, map and stream are as the rules say
(20_memory.md R57, 10_state.md R36, 41_tree_builder.md R103, 42_code_assigner.md R113). -/
def Obligations.EngineNeverStops : Prop :=
  ∀ s : State, Legal s → PhaseInvariant s → ∃ t, step s = .next t ∧ PhaseInvariant t

/-- Every command started reaches `complete` after finitely many micro-operations (30_encoding.md R82,
70_reset_and_hazards.md R186): at most 263, the merge loop running at most 255 times. -/
def Obligations.EveryCommandCompletes : Prop :=
  ∀ s : State, Legal s → PhaseInvariant s → s.busy = true → s.inputs = [] →
    ∃ k t, k ≤ 263 ∧ runSteps k s = .next t ∧ t.done = true ∧ t.busy = false ∧ t.phase = 0#5

/-- The round trip: DECOMPRESS after a COMPRESS that ended without error gives back the text (44_decompress.md R138). -/
def Obligations.DecompressAfterCompressRestoresTheText : Prop :=
  ∀ (s t : State) (k : Nat), Legal s → s.busy = false → s.textLen.toNat ≤ 65535 →
    runSteps (k + 1) { s with inputs := [.writeReg 0 0x00000001#32] } = .next t → t.done = true → t.err = .none →
    ∃ j u, runSteps j { t with inputs := [.writeReg 0 0x00000002#32] } = .next u ∧ u.inputs = [] ∧ Ended .none u ∧
      u.textLen = s.textLen ∧ ∀ i, i < s.textLen.toNat → u.textAt i = s.textAt i

/-- A symbol of higher frequency never has a longer code than one of lower frequency (42_code_assigner.md R114). -/
def Obligations.MoreFrequentSymbolsGetNoLongerCodes : Prop :=
  ∀ (s t : State) (k : Nat), Legal s → s.busy = false →
    runSteps (k + 1) { s with inputs := [.writeReg 0 0x00000001#32] } = .next t → t.done = true → t.err = .none →
    ∀ y z, 0 < occurrences t z → occurrences t z < occurrences t y → (t.clenAt y).toNat ≤ (t.clenAt z).toNat

/-- What DECOMPRESS reports for every payload: the first failing check in the order of the rule, and otherwise the
symbols of the stream's greedy reading (60_exceptions.md R158, 44_decompress.md R130). -/
def Obligations.DecompressReportsTheFirstDefect : Prop :=
  ∀ (s t : State) (k : Nat), Legal s → s.busy = false →
    runSteps (k + 1) { s with inputs := [.writeReg 0 0x00000002#32] } = .next t → t.done = true →
    if 65535 < s.packedLen.toNat then t.err = .capacityExceeded
    else if s.mapEmpty = true ∧ s.packedLen = 0#32 then
      if s.padBits = 0#32 ∧ s.bitCount = 0#32 then t.err = .none ∧ t.textLen = 0#32 else t.err = .malformedPayload
    else if s.mapEmpty = true ∨ s.packedLen = 0#32 then t.err = .invalidCodeMap
    else if s.prefixFree = false then t.err = .invalidCodeMap
    else if 7 < s.padBits.toNat ∨ s.bitCount.toNat + s.padBits.toNat ≠ 8 * s.packedLen.toNat then
      t.err = .malformedPayload
    else
      ∀ (rev ws : List (Bits × Byte)) (rest : Bits),
        (∀ b y, revLookup rev b = some y ↔ s.clenAt y ≠ 0#8 ∧ s.code y = b) →
        GreedyParse rev ((List.range s.bitCount.toNat).map s.streamBit) ws rest →
        if 65535 < ws.length then t.err = .capacityExceeded
        else if rest ≠ [] then t.err = .malformedPayload
        else
          t.err = .none ∧ t.textLen.toNat = ws.length ∧
          ∀ j, j < ws.length → (ws[j]?).map Prod.snd = some (t.textAt j)

/-- The payload is a function of the text alone: two runs of COMPRESS on the same text, from any two idle states, end
together and with the same payload (70_reset_and_hazards.md R184, 10_state.md R41). -/
def Obligations.SameTextGivesTheSamePayload : Prop :=
  ∀ (s s' t t' : State) (k : Nat), Legal s → Legal s' → s.busy = false → s'.busy = false →
    s.textLen = s'.textLen → (∀ i, i < s.textLen.toNat → s.textAt i = s'.textAt i) →
    runSteps (k + 1) { s with inputs := [.writeReg 0 0x00000001#32] } = .next t →
    runSteps (k + 1) { s' with inputs := [.writeReg 0 0x00000001#32] } = .next t' →
    t.done = t'.done ∧ t.phase = t'.phase ∧
    (t.done = true →
      t.err = t'.err ∧ t.packedLen = t'.packedLen ∧ t.padBits = t'.padBits ∧ t.bitCount = t'.bitCount ∧
      (∀ j, j < t.packedLen.toNat → t.packedAt j = t'.packedAt j) ∧
      ∀ y, t.clenAt y = t'.clenAt y ∧ t.code y = t'.code y)
end

