-- ==== Sys2Proof/Laws/Memory.lean ====
section
/-! SUPPORT. Memories: read after write, and that every memory operation keeps the canonical form. -/

namespace Sys2Proof.Machine

variable {α : Type} {w : Nat}

@[simp] theorem cellAt_putCell_same (l : List (Nat × α)) (i : Nat) (v : α) :
    cellAt (putCell l i v) i = some v := by
  induction l with
  | nil => simp [putCell, cellAt]
  | cons c rest ih =>
    obtain ⟨a, u⟩ := c
    by_cases h1 : i < a
    · simp [putCell, cellAt, h1]
    · by_cases h2 : i = a
      · subst h2; simp [putCell, cellAt]
      · simp [putCell, cellAt, h1, h2, ih]

theorem cellAt_putCell_ne (l : List (Nat × α)) {i j : Nat} (v : α) (h : j ≠ i) :
    cellAt (putCell l i v) j = cellAt l j := by
  induction l with
  | nil => simp [putCell, cellAt, h]
  | cons c rest ih =>
    obtain ⟨a, u⟩ := c
    by_cases h1 : i < a
    · simp [putCell, cellAt, h1, h]
    · by_cases h2 : i = a
      · subst h2; simp [putCell, cellAt, h]
      · by_cases h3 : j = a
        · simp [putCell, cellAt, h1, h2, h3]
        · simp [putCell, cellAt, h1, h2, h3, ih]

@[simp] theorem cellAt_dropCell_same (l : List (Nat × α)) (i : Nat) : cellAt (dropCell l i) i = none := by
  induction l with
  | nil => rfl
  | cons c rest ih =>
    obtain ⟨a, u⟩ := c
    by_cases h : i = a
    · simpa [dropCell, h] using h ▸ ih
    · simp [dropCell, cellAt, h, ih]

theorem cellAt_dropCell_ne (l : List (Nat × α)) {i j : Nat} (h : j ≠ i) :
    cellAt (dropCell l i) j = cellAt l j := by
  induction l with
  | nil => rfl
  | cons c rest ih =>
    obtain ⟨a, u⟩ := c
    by_cases h1 : i = a
    · subst h1; simp [dropCell, cellAt, h, ih]
    · by_cases h2 : j = a
      · subst h2; simp [dropCell, cellAt, h1]
      · simp [dropCell, cellAt, h1, h2, ih]

theorem mem_putCell {l : List (Nat × α)} {i : Nat} {v : α} {c : Nat × α} (h : c ∈ putCell l i v) :
    c = (i, v) ∨ c ∈ l := by
  induction l with
  | nil => simpa [putCell] using h
  | cons d rest ih =>
    obtain ⟨a, u⟩ := d
    simp only [putCell] at h
    split at h
    · simpa using h
    · split at h
      · rcases List.mem_cons.1 h with h | h
        · exact .inl h
        · exact .inr (List.mem_cons_of_mem _ h)
      · rcases List.mem_cons.1 h with h | h
        · exact .inr (h ▸ List.mem_cons_self)
        · exact (ih h).imp_right (List.mem_cons_of_mem _)

theorem mem_dropCell {l : List (Nat × α)} {i : Nat} {c : Nat × α} (h : c ∈ dropCell l i) : c ∈ l := by
  induction l with
  | nil => simp [dropCell] at h
  | cons d rest ih =>
    obtain ⟨a, u⟩ := d
    simp only [dropCell] at h
    split at h
    · exact List.mem_cons_of_mem _ (ih h)
    · rcases List.mem_cons.1 h with h | h
      · exact h ▸ List.mem_cons_self
      · exact List.mem_cons_of_mem _ (ih h)

/-- The canonical order, as a pairwise fact about the indices. -/
theorem rising_iff_pairwise (l : List (Nat × α)) :
    rising l = true ↔ l.Pairwise fun c d => c.1 < d.1 := by
  induction l with
  | nil => simp [rising]
  | cons c rest ih =>
    obtain ⟨a, u⟩ := c
    cases rest with
    | nil => simp [rising]
    | cons d rest =>
      obtain ⟨b, v⟩ := d
      simp only [rising, Bool.and_eq_true, decide_eq_true_eq, ih, List.pairwise_cons, List.mem_cons,
        forall_eq_or_imp]
      constructor
      · rintro ⟨h, h1, h2⟩
        exact ⟨⟨h, fun x hx => h.trans (h1 x hx)⟩, h1, h2⟩
      · rintro ⟨⟨h, _⟩, h1, h2⟩
        exact ⟨h, h1, h2⟩

theorem rising_putCell {l : List (Nat × α)} (h : rising l = true) (i : Nat) (v : α) :
    rising (putCell l i v) = true := by
  rw [rising_iff_pairwise] at h ⊢
  induction l with
  | nil => simp [putCell]
  | cons d rest ih =>
    obtain ⟨a, u⟩ := d
    obtain ⟨h1, h2⟩ := List.pairwise_cons.1 h
    simp only [putCell]
    split
    · next hlt =>
      refine List.pairwise_cons.2 ⟨?_, h⟩
      intro x hx
      rcases List.mem_cons.1 hx with rfl | hx
      · exact hlt
      · exact hlt.trans (h1 x hx)
    · split
      · next heq => subst heq; exact List.pairwise_cons.2 ⟨h1, h2⟩
      · next hlt hne =>
        refine List.pairwise_cons.2 ⟨?_, ih h2⟩
        intro x hx
        rcases mem_putCell hx with rfl | hx
        · show a < i
          omega
        · exact h1 x hx

theorem rising_dropCell {l : List (Nat × α)} (h : rising l = true) (i : Nat) :
    rising (dropCell l i) = true := by
  rw [rising_iff_pairwise] at h ⊢
  induction l with
  | nil => simp [dropCell]
  | cons d rest ih =>
    obtain ⟨a, u⟩ := d
    obtain ⟨h1, h2⟩ := List.pairwise_cons.1 h
    simp only [dropCell]
    split
    · exact ih h2
    · exact List.pairwise_cons.2 ⟨fun x hx => h1 x (mem_dropCell hx), ih h2⟩

/-- `M[i]` after `M[i] <- v` is v. -/
@[simp] theorem Memory.read_write_same (m : Memory w) (free : Nat → Nat → BitVec w) (i : Nat) (v : BitVec w) :
    (m.write i v).read free i = v := by
  unfold Memory.write
  split
  · next h =>
    simp only [Bool.and_eq_true, beq_iff_eq] at h
    simp [Memory.read, h.1, h.2]
  · simp [Memory.read]

/-- `M[j]` after `M[i] <- v` is as before, for j ≠ i. -/
theorem Memory.read_write_ne (m : Memory w) (free : Nat → Nat → BitVec w) {i j : Nat} (v : BitVec w) (h : j ≠ i) :
    (m.write i v).read free j = m.read free j := by
  unfold Memory.write
  split
  · simp [Memory.read, cellAt_dropCell_ne _ h]
  · simp [Memory.read, cellAt_putCell_ne _ _ h]

@[simp] theorem Memory.read_clear (m : Memory w) (free : Nat → Nat → BitVec w) (i : Nat) :
    m.clear.read free i = 0#w := by
  simp [Memory.clear, Memory.read, cellAt]

@[simp] theorem Memory.zeroed_write (m : Memory w) (i : Nat) (v : BitVec w) : (m.write i v).zeroed = m.zeroed := by
  unfold Memory.write; split <;> rfl

@[simp] theorem Memory.epoch_write (m : Memory w) (i : Nat) (v : BitVec w) : (m.write i v).epoch = m.epoch := by
  unfold Memory.write; split <;> rfl

/-- Every memory operation keeps the canonical form. -/
theorem Memory.wf_write {m : Memory w} (h : m.wf = true) (i : Nat) (v : BitVec w) : (m.write i v).wf = true := by
  simp only [Memory.wf, Bool.and_eq_true, Bool.or_eq_true, Bool.not_eq_true', List.all_eq_true] at h
  obtain ⟨h1, h2⟩ := h
  simp only [Memory.wf, Bool.and_eq_true, Bool.or_eq_true, Bool.not_eq_true', List.all_eq_true, zeroed_write]
  unfold Memory.write
  split
  · exact ⟨rising_dropCell h1 i, h2.imp_right fun h c hc => h c (mem_dropCell hc)⟩
  · next hv =>
    refine ⟨rising_putCell h1 i v, ?_⟩
    rcases h2 with h2 | h2
    · exact .inl h2
    · by_cases hz : m.zeroed = true
      · refine .inr fun c hc => ?_
        rcases mem_putCell hc with rfl | hc
        · simpa [hz] using hv
        · exact h2 c hc
      · exact .inl (by simpa using hz)

@[simp] theorem Memory.wf_clear (m : Memory w) : m.clear.wf = true := by
  simp [Memory.clear, Memory.wf, rising]

@[simp] theorem Memory.wf_forget (m : Memory w) : m.forget.wf = true := by
  simp [Memory.forget, Memory.wf, rising]

theorem Memory.wf_writeRange {m : Memory w} (h : m.wf = true) (v : Nat → BitVec w) (n : Nat) :
    (m.writeRange v n).wf = true := by
  induction n with
  | zero => exact h
  | succ n ih => exact wf_write ih n (v n)

/-- The indices a memory lists after a write were listed before, or are the one written. -/
theorem Memory.mem_cells_write {m : Memory w} {i : Nat} {v : BitVec w} {c : Nat × BitVec w}
    (h : c ∈ (m.write i v).cells) : c.1 = i ∨ c ∈ m.cells := by
  unfold Memory.write at h
  split at h
  · exact .inr (mem_dropCell h)
  · exact (mem_putCell h).imp_left fun h => by rw [h]

/-- `M[j]` after `M[i] <- v i` for i in 0 .. n−1. -/
theorem Memory.read_writeRange (m : Memory w) (free : Nat → Nat → BitVec w) (v : Nat → BitVec w) (n j : Nat) :
    (m.writeRange v n).read free j = if j < n then v j else m.read free j := by
  induction n with
  | zero => simp [Memory.writeRange]
  | succ n ih =>
    by_cases h : j = n
    · subst h; simp [Memory.writeRange]
    · rw [Memory.writeRange, Memory.read_write_ne _ _ _ h, ih]
      by_cases h2 : j < n
      · simp [h2, Nat.lt_succ_of_lt h2]
      · simp [h2, show ¬ j < n + 1 by omega]

/-- The memories of the state after reset are in canonical form. -/
theorem reset_memories_wf :
    State.reset.text.wf && State.reset.packed.wf && State.reset.clen.wf && State.reset.cbits.wf &&
      State.reset.freq.wf = true := by decide

end Sys2Proof.Machine
end

