-- ==== Sys2Proof/Laws/State.lean ====
section
/-! SUPPORT. What each named update of State leaves in each field. -/

namespace Sys2Proof.Machine

variable (s : State)

@[simp] theorem State.goto_busy (i : Instr) : (s.goto i).busy = s.busy := rfl
@[simp] theorem State.goto_done (i : Instr) : (s.goto i).done = s.done := rfl
@[simp] theorem State.goto_errf (i : Instr) : (s.goto i).errf = s.errf := rfl
@[simp] theorem State.goto_err (i : Instr) : (s.goto i).err = s.err := rfl
@[simp] theorem State.goto_phase (i : Instr) : (s.goto i).phase = phaseOf i := rfl
@[simp] theorem State.goto_textLen (i : Instr) : (s.goto i).textLen = s.textLen := rfl
@[simp] theorem State.goto_packedLen (i : Instr) : (s.goto i).packedLen = s.packedLen := rfl
@[simp] theorem State.goto_padBits (i : Instr) : (s.goto i).padBits = s.padBits := rfl
@[simp] theorem State.goto_bitCount (i : Instr) : (s.goto i).bitCount = s.bitCount := rfl
@[simp] theorem State.goto_text (i : Instr) : (s.goto i).text = s.text := rfl
@[simp] theorem State.goto_packed (i : Instr) : (s.goto i).packed = s.packed := rfl
@[simp] theorem State.goto_clen (i : Instr) : (s.goto i).clen = s.clen := rfl
@[simp] theorem State.goto_cbits (i : Instr) : (s.goto i).cbits = s.cbits := rfl
@[simp] theorem State.goto_freq (i : Instr) : (s.goto i).freq = s.freq := rfl
@[simp] theorem State.goto_node (i : Instr) : (s.goto i).node = s.node := rfl
@[simp] theorem State.goto_pq (i : Instr) : (s.goto i).pq = s.pq := rfl
@[simp] theorem State.goto_nleaf (i : Instr) : (s.goto i).nleaf = s.nleaf := rfl
@[simp] theorem State.goto_nnext (i : Instr) : (s.goto i).nnext = s.nnext := rfl
@[simp] theorem State.goto_root (i : Instr) : (s.goto i).root = s.root := rfl
@[simp] theorem State.goto_bits (i : Instr) : (s.goto i).bits = s.bits := rfl
@[simp] theorem State.goto_rev (i : Instr) : (s.goto i).rev = s.rev := rfl
@[simp] theorem State.goto_buf (i : Instr) : (s.goto i).buf = s.buf := rfl
@[simp] theorem State.goto_outpos (i : Instr) : (s.goto i).outpos = s.outpos := rfl
@[simp] theorem State.goto_walkStack (i : Instr) : (s.goto i).walkStack = s.walkStack := rfl
@[simp] theorem State.goto_pqOut (i : Instr) : (s.goto i).pqOut = s.pqOut := rfl
@[simp] theorem State.goto_inputs (i : Instr) : (s.goto i).inputs = s.inputs := rfl
@[simp] theorem State.goto_readData (i : Instr) : (s.goto i).readData = s.readData := rfl
@[simp] theorem State.goto_draws (i : Instr) : (s.goto i).draws = s.draws := rfl

@[simp] theorem State.start_busy (i : Instr) : (s.start i).busy = true := rfl
@[simp] theorem State.start_done (i : Instr) : (s.start i).done = false := rfl
@[simp] theorem State.start_errf (i : Instr) : (s.start i).errf = false := rfl
@[simp] theorem State.start_err (i : Instr) : (s.start i).err = .none := rfl
@[simp] theorem State.start_phase (i : Instr) : (s.start i).phase = phaseOf i := rfl
@[simp] theorem State.start_textLen (i : Instr) : (s.start i).textLen = s.textLen := rfl
@[simp] theorem State.start_packedLen (i : Instr) : (s.start i).packedLen = s.packedLen := rfl
@[simp] theorem State.start_padBits (i : Instr) : (s.start i).padBits = s.padBits := rfl
@[simp] theorem State.start_bitCount (i : Instr) : (s.start i).bitCount = s.bitCount := rfl
@[simp] theorem State.start_text (i : Instr) : (s.start i).text = s.text := rfl
@[simp] theorem State.start_packed (i : Instr) : (s.start i).packed = s.packed := rfl
@[simp] theorem State.start_clen (i : Instr) : (s.start i).clen = s.clen := rfl
@[simp] theorem State.start_cbits (i : Instr) : (s.start i).cbits = s.cbits := rfl
@[simp] theorem State.start_freq (i : Instr) : (s.start i).freq = s.freq := rfl
@[simp] theorem State.start_node (i : Instr) : (s.start i).node = s.node := rfl
@[simp] theorem State.start_pq (i : Instr) : (s.start i).pq = s.pq := rfl
@[simp] theorem State.start_nleaf (i : Instr) : (s.start i).nleaf = s.nleaf := rfl
@[simp] theorem State.start_nnext (i : Instr) : (s.start i).nnext = s.nnext := rfl
@[simp] theorem State.start_root (i : Instr) : (s.start i).root = s.root := rfl
@[simp] theorem State.start_bits (i : Instr) : (s.start i).bits = s.bits := rfl
@[simp] theorem State.start_rev (i : Instr) : (s.start i).rev = s.rev := rfl
@[simp] theorem State.start_buf (i : Instr) : (s.start i).buf = s.buf := rfl
@[simp] theorem State.start_outpos (i : Instr) : (s.start i).outpos = s.outpos := rfl
@[simp] theorem State.start_walkStack (i : Instr) : (s.start i).walkStack = s.walkStack := rfl
@[simp] theorem State.start_pqOut (i : Instr) : (s.start i).pqOut = s.pqOut := rfl
@[simp] theorem State.start_inputs (i : Instr) : (s.start i).inputs = s.inputs := rfl
@[simp] theorem State.start_readData (i : Instr) : (s.start i).readData = s.readData := rfl
@[simp] theorem State.start_draws (i : Instr) : (s.start i).draws = s.draws := rfl

@[simp] theorem State.complete_busy (e : ErrCode) : (s.complete e).busy = false := rfl
@[simp] theorem State.complete_done (e : ErrCode) : (s.complete e).done = true := rfl
@[simp] theorem State.complete_errf (e : ErrCode) : (s.complete e).errf = decide (e ≠ .none) := rfl
@[simp] theorem State.complete_err (e : ErrCode) : (s.complete e).err = e := rfl
@[simp] theorem State.complete_phase (e : ErrCode) : (s.complete e).phase = phaseOf .idle := rfl
@[simp] theorem State.complete_textLen (e : ErrCode) : (s.complete e).textLen = s.textLen := rfl
@[simp] theorem State.complete_packedLen (e : ErrCode) : (s.complete e).packedLen = s.packedLen := rfl
@[simp] theorem State.complete_padBits (e : ErrCode) : (s.complete e).padBits = s.padBits := rfl
@[simp] theorem State.complete_bitCount (e : ErrCode) : (s.complete e).bitCount = s.bitCount := rfl
@[simp] theorem State.complete_text (e : ErrCode) : (s.complete e).text = s.text := rfl
@[simp] theorem State.complete_packed (e : ErrCode) : (s.complete e).packed = s.packed := rfl
@[simp] theorem State.complete_clen (e : ErrCode) : (s.complete e).clen = s.clen := rfl
@[simp] theorem State.complete_cbits (e : ErrCode) : (s.complete e).cbits = s.cbits := rfl
@[simp] theorem State.complete_freq (e : ErrCode) : (s.complete e).freq = s.freq := rfl
@[simp] theorem State.complete_node (e : ErrCode) : (s.complete e).node = s.node := rfl
@[simp] theorem State.complete_pq (e : ErrCode) : (s.complete e).pq = s.pq := rfl
@[simp] theorem State.complete_nleaf (e : ErrCode) : (s.complete e).nleaf = s.nleaf := rfl
@[simp] theorem State.complete_nnext (e : ErrCode) : (s.complete e).nnext = s.nnext := rfl
@[simp] theorem State.complete_root (e : ErrCode) : (s.complete e).root = s.root := rfl
@[simp] theorem State.complete_bits (e : ErrCode) : (s.complete e).bits = s.bits := rfl
@[simp] theorem State.complete_rev (e : ErrCode) : (s.complete e).rev = s.rev := rfl
@[simp] theorem State.complete_buf (e : ErrCode) : (s.complete e).buf = s.buf := rfl
@[simp] theorem State.complete_outpos (e : ErrCode) : (s.complete e).outpos = s.outpos := rfl
@[simp] theorem State.complete_walkStack (e : ErrCode) : (s.complete e).walkStack = s.walkStack := rfl
@[simp] theorem State.complete_pqOut (e : ErrCode) : (s.complete e).pqOut = s.pqOut := rfl
@[simp] theorem State.complete_inputs (e : ErrCode) : (s.complete e).inputs = s.inputs := rfl
@[simp] theorem State.complete_readData (e : ErrCode) : (s.complete e).readData = s.readData := rfl
@[simp] theorem State.complete_draws (e : ErrCode) : (s.complete e).draws = s.draws := rfl

@[simp] theorem State.rejectCommand_busy : (s.rejectCommand).busy = s.busy := rfl
@[simp] theorem State.rejectCommand_done : (s.rejectCommand).done = true := rfl
@[simp] theorem State.rejectCommand_errf : (s.rejectCommand).errf = true := rfl
@[simp] theorem State.rejectCommand_err : (s.rejectCommand).err = .illegalCommand := rfl
@[simp] theorem State.rejectCommand_phase : (s.rejectCommand).phase = s.phase := rfl
@[simp] theorem State.rejectCommand_textLen : (s.rejectCommand).textLen = s.textLen := rfl
@[simp] theorem State.rejectCommand_packedLen : (s.rejectCommand).packedLen = s.packedLen := rfl
@[simp] theorem State.rejectCommand_padBits : (s.rejectCommand).padBits = s.padBits := rfl
@[simp] theorem State.rejectCommand_bitCount : (s.rejectCommand).bitCount = s.bitCount := rfl
@[simp] theorem State.rejectCommand_text : (s.rejectCommand).text = s.text := rfl
@[simp] theorem State.rejectCommand_packed : (s.rejectCommand).packed = s.packed := rfl
@[simp] theorem State.rejectCommand_clen : (s.rejectCommand).clen = s.clen := rfl
@[simp] theorem State.rejectCommand_cbits : (s.rejectCommand).cbits = s.cbits := rfl
@[simp] theorem State.rejectCommand_freq : (s.rejectCommand).freq = s.freq := rfl
@[simp] theorem State.rejectCommand_node : (s.rejectCommand).node = s.node := rfl
@[simp] theorem State.rejectCommand_pq : (s.rejectCommand).pq = s.pq := rfl
@[simp] theorem State.rejectCommand_nleaf : (s.rejectCommand).nleaf = s.nleaf := rfl
@[simp] theorem State.rejectCommand_nnext : (s.rejectCommand).nnext = s.nnext := rfl
@[simp] theorem State.rejectCommand_root : (s.rejectCommand).root = s.root := rfl
@[simp] theorem State.rejectCommand_bits : (s.rejectCommand).bits = s.bits := rfl
@[simp] theorem State.rejectCommand_rev : (s.rejectCommand).rev = s.rev := rfl
@[simp] theorem State.rejectCommand_buf : (s.rejectCommand).buf = s.buf := rfl
@[simp] theorem State.rejectCommand_outpos : (s.rejectCommand).outpos = s.outpos := rfl
@[simp] theorem State.rejectCommand_walkStack : (s.rejectCommand).walkStack = s.walkStack := rfl
@[simp] theorem State.rejectCommand_pqOut : (s.rejectCommand).pqOut = s.pqOut := rfl
@[simp] theorem State.rejectCommand_inputs : (s.rejectCommand).inputs = s.inputs := rfl
@[simp] theorem State.rejectCommand_readData : (s.rejectCommand).readData = s.readData := rfl
@[simp] theorem State.rejectCommand_draws : (s.rejectCommand).draws = s.draws := rfl

@[simp] theorem State.raiseCompress_busy (e : ErrCode) : (s.raiseCompress e).busy = false := rfl
@[simp] theorem State.raiseCompress_done (e : ErrCode) : (s.raiseCompress e).done = true := rfl
@[simp] theorem State.raiseCompress_errf (e : ErrCode) : (s.raiseCompress e).errf = decide (e ≠ .none) := rfl
@[simp] theorem State.raiseCompress_err (e : ErrCode) : (s.raiseCompress e).err = e := rfl
@[simp] theorem State.raiseCompress_phase (e : ErrCode) : (s.raiseCompress e).phase = phaseOf .idle := rfl
@[simp] theorem State.raiseCompress_textLen (e : ErrCode) : (s.raiseCompress e).textLen = s.textLen := rfl
@[simp] theorem State.raiseCompress_packedLen (e : ErrCode) : (s.raiseCompress e).packedLen = 0#32 := rfl
@[simp] theorem State.raiseCompress_padBits (e : ErrCode) : (s.raiseCompress e).padBits = 0#32 := rfl
@[simp] theorem State.raiseCompress_bitCount (e : ErrCode) : (s.raiseCompress e).bitCount = 0#32 := rfl
@[simp] theorem State.raiseCompress_text (e : ErrCode) : (s.raiseCompress e).text = s.text := rfl
@[simp] theorem State.raiseCompress_packed (e : ErrCode) : (s.raiseCompress e).packed = s.packed.forget := rfl
@[simp] theorem State.raiseCompress_clen (e : ErrCode) : (s.raiseCompress e).clen = s.clen.clear := rfl
@[simp] theorem State.raiseCompress_cbits (e : ErrCode) : (s.raiseCompress e).cbits = s.cbits.forget := rfl
@[simp] theorem State.raiseCompress_freq (e : ErrCode) : (s.raiseCompress e).freq = s.freq := rfl
@[simp] theorem State.raiseCompress_node (e : ErrCode) : (s.raiseCompress e).node = s.node := rfl
@[simp] theorem State.raiseCompress_pq (e : ErrCode) : (s.raiseCompress e).pq = s.pq := rfl
@[simp] theorem State.raiseCompress_nleaf (e : ErrCode) : (s.raiseCompress e).nleaf = s.nleaf := rfl
@[simp] theorem State.raiseCompress_nnext (e : ErrCode) : (s.raiseCompress e).nnext = s.nnext := rfl
@[simp] theorem State.raiseCompress_root (e : ErrCode) : (s.raiseCompress e).root = s.root := rfl
@[simp] theorem State.raiseCompress_bits (e : ErrCode) : (s.raiseCompress e).bits = s.bits := rfl
@[simp] theorem State.raiseCompress_rev (e : ErrCode) : (s.raiseCompress e).rev = s.rev := rfl
@[simp] theorem State.raiseCompress_buf (e : ErrCode) : (s.raiseCompress e).buf = s.buf := rfl
@[simp] theorem State.raiseCompress_outpos (e : ErrCode) : (s.raiseCompress e).outpos = s.outpos := rfl
@[simp] theorem State.raiseCompress_walkStack (e : ErrCode) : (s.raiseCompress e).walkStack = s.walkStack := rfl
@[simp] theorem State.raiseCompress_pqOut (e : ErrCode) : (s.raiseCompress e).pqOut = s.pqOut := rfl
@[simp] theorem State.raiseCompress_inputs (e : ErrCode) : (s.raiseCompress e).inputs = s.inputs := rfl
@[simp] theorem State.raiseCompress_readData (e : ErrCode) : (s.raiseCompress e).readData = s.readData := rfl
@[simp] theorem State.raiseCompress_draws (e : ErrCode) : (s.raiseCompress e).draws = s.draws := rfl

@[simp] theorem State.raiseDecompress_busy (e : ErrCode) : (s.raiseDecompress e).busy = false := rfl
@[simp] theorem State.raiseDecompress_done (e : ErrCode) : (s.raiseDecompress e).done = true := rfl
@[simp] theorem State.raiseDecompress_errf (e : ErrCode) : (s.raiseDecompress e).errf = decide (e ≠ .none) := rfl
@[simp] theorem State.raiseDecompress_err (e : ErrCode) : (s.raiseDecompress e).err = e := rfl
@[simp] theorem State.raiseDecompress_phase (e : ErrCode) : (s.raiseDecompress e).phase = phaseOf .idle := rfl
@[simp] theorem State.raiseDecompress_textLen (e : ErrCode) : (s.raiseDecompress e).textLen = 0#32 := rfl
@[simp] theorem State.raiseDecompress_packedLen (e : ErrCode) : (s.raiseDecompress e).packedLen = s.packedLen := rfl
@[simp] theorem State.raiseDecompress_padBits (e : ErrCode) : (s.raiseDecompress e).padBits = s.padBits := rfl
@[simp] theorem State.raiseDecompress_bitCount (e : ErrCode) : (s.raiseDecompress e).bitCount = s.bitCount := rfl
@[simp] theorem State.raiseDecompress_text (e : ErrCode) : (s.raiseDecompress e).text = s.text := rfl
@[simp] theorem State.raiseDecompress_packed (e : ErrCode) : (s.raiseDecompress e).packed = s.packed := rfl
@[simp] theorem State.raiseDecompress_clen (e : ErrCode) : (s.raiseDecompress e).clen = s.clen := rfl
@[simp] theorem State.raiseDecompress_cbits (e : ErrCode) : (s.raiseDecompress e).cbits = s.cbits := rfl
@[simp] theorem State.raiseDecompress_freq (e : ErrCode) : (s.raiseDecompress e).freq = s.freq := rfl
@[simp] theorem State.raiseDecompress_node (e : ErrCode) : (s.raiseDecompress e).node = s.node := rfl
@[simp] theorem State.raiseDecompress_pq (e : ErrCode) : (s.raiseDecompress e).pq = s.pq := rfl
@[simp] theorem State.raiseDecompress_nleaf (e : ErrCode) : (s.raiseDecompress e).nleaf = s.nleaf := rfl
@[simp] theorem State.raiseDecompress_nnext (e : ErrCode) : (s.raiseDecompress e).nnext = s.nnext := rfl
@[simp] theorem State.raiseDecompress_root (e : ErrCode) : (s.raiseDecompress e).root = s.root := rfl
@[simp] theorem State.raiseDecompress_bits (e : ErrCode) : (s.raiseDecompress e).bits = s.bits := rfl
@[simp] theorem State.raiseDecompress_rev (e : ErrCode) : (s.raiseDecompress e).rev = s.rev := rfl
@[simp] theorem State.raiseDecompress_buf (e : ErrCode) : (s.raiseDecompress e).buf = s.buf := rfl
@[simp] theorem State.raiseDecompress_outpos (e : ErrCode) : (s.raiseDecompress e).outpos = s.outpos := rfl
@[simp] theorem State.raiseDecompress_walkStack (e : ErrCode) : (s.raiseDecompress e).walkStack = s.walkStack := rfl
@[simp] theorem State.raiseDecompress_pqOut (e : ErrCode) : (s.raiseDecompress e).pqOut = s.pqOut := rfl
@[simp] theorem State.raiseDecompress_inputs (e : ErrCode) : (s.raiseDecompress e).inputs = s.inputs := rfl
@[simp] theorem State.raiseDecompress_readData (e : ErrCode) : (s.raiseDecompress e).readData = s.readData := rfl
@[simp] theorem State.raiseDecompress_draws (e : ErrCode) : (s.raiseDecompress e).draws = s.draws := rfl

@[simp] theorem State.raiseScan_busy (e : ErrCode) : (s.raiseScan e).busy = false := rfl
@[simp] theorem State.raiseScan_done (e : ErrCode) : (s.raiseScan e).done = true := rfl
@[simp] theorem State.raiseScan_errf (e : ErrCode) : (s.raiseScan e).errf = decide (e ≠ .none) := rfl
@[simp] theorem State.raiseScan_err (e : ErrCode) : (s.raiseScan e).err = e := rfl
@[simp] theorem State.raiseScan_phase (e : ErrCode) : (s.raiseScan e).phase = phaseOf .idle := rfl
@[simp] theorem State.raiseScan_textLen (e : ErrCode) : (s.raiseScan e).textLen = 0#32 := rfl
@[simp] theorem State.raiseScan_packedLen (e : ErrCode) : (s.raiseScan e).packedLen = s.packedLen := rfl
@[simp] theorem State.raiseScan_padBits (e : ErrCode) : (s.raiseScan e).padBits = s.padBits := rfl
@[simp] theorem State.raiseScan_bitCount (e : ErrCode) : (s.raiseScan e).bitCount = s.bitCount := rfl
@[simp] theorem State.raiseScan_text (e : ErrCode) : (s.raiseScan e).text = s.text.forget := rfl
@[simp] theorem State.raiseScan_packed (e : ErrCode) : (s.raiseScan e).packed = s.packed := rfl
@[simp] theorem State.raiseScan_clen (e : ErrCode) : (s.raiseScan e).clen = s.clen := rfl
@[simp] theorem State.raiseScan_cbits (e : ErrCode) : (s.raiseScan e).cbits = s.cbits := rfl
@[simp] theorem State.raiseScan_freq (e : ErrCode) : (s.raiseScan e).freq = s.freq := rfl
@[simp] theorem State.raiseScan_node (e : ErrCode) : (s.raiseScan e).node = s.node := rfl
@[simp] theorem State.raiseScan_pq (e : ErrCode) : (s.raiseScan e).pq = s.pq := rfl
@[simp] theorem State.raiseScan_nleaf (e : ErrCode) : (s.raiseScan e).nleaf = s.nleaf := rfl
@[simp] theorem State.raiseScan_nnext (e : ErrCode) : (s.raiseScan e).nnext = s.nnext := rfl
@[simp] theorem State.raiseScan_root (e : ErrCode) : (s.raiseScan e).root = s.root := rfl
@[simp] theorem State.raiseScan_bits (e : ErrCode) : (s.raiseScan e).bits = s.bits := rfl
@[simp] theorem State.raiseScan_rev (e : ErrCode) : (s.raiseScan e).rev = s.rev := rfl
@[simp] theorem State.raiseScan_buf (e : ErrCode) : (s.raiseScan e).buf = s.buf := rfl
@[simp] theorem State.raiseScan_outpos (e : ErrCode) : (s.raiseScan e).outpos = s.outpos := rfl
@[simp] theorem State.raiseScan_walkStack (e : ErrCode) : (s.raiseScan e).walkStack = s.walkStack := rfl
@[simp] theorem State.raiseScan_pqOut (e : ErrCode) : (s.raiseScan e).pqOut = s.pqOut := rfl
@[simp] theorem State.raiseScan_inputs (e : ErrCode) : (s.raiseScan e).inputs = s.inputs := rfl
@[simp] theorem State.raiseScan_readData (e : ErrCode) : (s.raiseScan e).readData = s.readData := rfl
@[simp] theorem State.raiseScan_draws (e : ErrCode) : (s.raiseScan e).draws = s.draws := rfl

@[simp] theorem State.pqInsert_busy (n : Nat) : (s.pqInsert n).busy = s.busy := rfl
@[simp] theorem State.pqInsert_done (n : Nat) : (s.pqInsert n).done = s.done := rfl
@[simp] theorem State.pqInsert_errf (n : Nat) : (s.pqInsert n).errf = s.errf := rfl
@[simp] theorem State.pqInsert_err (n : Nat) : (s.pqInsert n).err = s.err := rfl
@[simp] theorem State.pqInsert_phase (n : Nat) : (s.pqInsert n).phase = s.phase := rfl
@[simp] theorem State.pqInsert_textLen (n : Nat) : (s.pqInsert n).textLen = s.textLen := rfl
@[simp] theorem State.pqInsert_packedLen (n : Nat) : (s.pqInsert n).packedLen = s.packedLen := rfl
@[simp] theorem State.pqInsert_padBits (n : Nat) : (s.pqInsert n).padBits = s.padBits := rfl
@[simp] theorem State.pqInsert_bitCount (n : Nat) : (s.pqInsert n).bitCount = s.bitCount := rfl
@[simp] theorem State.pqInsert_text (n : Nat) : (s.pqInsert n).text = s.text := rfl
@[simp] theorem State.pqInsert_packed (n : Nat) : (s.pqInsert n).packed = s.packed := rfl
@[simp] theorem State.pqInsert_clen (n : Nat) : (s.pqInsert n).clen = s.clen := rfl
@[simp] theorem State.pqInsert_cbits (n : Nat) : (s.pqInsert n).cbits = s.cbits := rfl
@[simp] theorem State.pqInsert_freq (n : Nat) : (s.pqInsert n).freq = s.freq := rfl
@[simp] theorem State.pqInsert_node (n : Nat) : (s.pqInsert n).node = s.node := rfl
@[simp] theorem State.pqInsert_pq (n : Nat) : (s.pqInsert n).pq = insertMember s.pq n := rfl
@[simp] theorem State.pqInsert_nleaf (n : Nat) : (s.pqInsert n).nleaf = s.nleaf := rfl
@[simp] theorem State.pqInsert_nnext (n : Nat) : (s.pqInsert n).nnext = s.nnext := rfl
@[simp] theorem State.pqInsert_root (n : Nat) : (s.pqInsert n).root = s.root := rfl
@[simp] theorem State.pqInsert_bits (n : Nat) : (s.pqInsert n).bits = s.bits := rfl
@[simp] theorem State.pqInsert_rev (n : Nat) : (s.pqInsert n).rev = s.rev := rfl
@[simp] theorem State.pqInsert_buf (n : Nat) : (s.pqInsert n).buf = s.buf := rfl
@[simp] theorem State.pqInsert_outpos (n : Nat) : (s.pqInsert n).outpos = s.outpos := rfl
@[simp] theorem State.pqInsert_walkStack (n : Nat) : (s.pqInsert n).walkStack = s.walkStack := rfl
@[simp] theorem State.pqInsert_pqOut (n : Nat) : (s.pqInsert n).pqOut = s.pqOut := rfl
@[simp] theorem State.pqInsert_inputs (n : Nat) : (s.pqInsert n).inputs = s.inputs := rfl
@[simp] theorem State.pqInsert_readData (n : Nat) : (s.pqInsert n).readData = s.readData := rfl
@[simp] theorem State.pqInsert_draws (n : Nat) : (s.pqInsert n).draws = s.draws := rfl

@[simp] theorem State.allocate_busy (r : Node) : (s.allocate r).busy = s.busy := rfl
@[simp] theorem State.allocate_done (r : Node) : (s.allocate r).done = s.done := rfl
@[simp] theorem State.allocate_errf (r : Node) : (s.allocate r).errf = s.errf := rfl
@[simp] theorem State.allocate_err (r : Node) : (s.allocate r).err = s.err := rfl
@[simp] theorem State.allocate_phase (r : Node) : (s.allocate r).phase = s.phase := rfl
@[simp] theorem State.allocate_textLen (r : Node) : (s.allocate r).textLen = s.textLen := rfl
@[simp] theorem State.allocate_packedLen (r : Node) : (s.allocate r).packedLen = s.packedLen := rfl
@[simp] theorem State.allocate_padBits (r : Node) : (s.allocate r).padBits = s.padBits := rfl
@[simp] theorem State.allocate_bitCount (r : Node) : (s.allocate r).bitCount = s.bitCount := rfl
@[simp] theorem State.allocate_text (r : Node) : (s.allocate r).text = s.text := rfl
@[simp] theorem State.allocate_packed (r : Node) : (s.allocate r).packed = s.packed := rfl
@[simp] theorem State.allocate_clen (r : Node) : (s.allocate r).clen = s.clen := rfl
@[simp] theorem State.allocate_cbits (r : Node) : (s.allocate r).cbits = s.cbits := rfl
@[simp] theorem State.allocate_freq (r : Node) : (s.allocate r).freq = s.freq := rfl
@[simp] theorem State.allocate_node (r : Node) : (s.allocate r).node = putCell s.node s.nnext r := rfl
@[simp] theorem State.allocate_pq (r : Node) : (s.allocate r).pq = s.pq := rfl
@[simp] theorem State.allocate_nleaf (r : Node) : (s.allocate r).nleaf = s.nleaf := rfl
@[simp] theorem State.allocate_nnext (r : Node) : (s.allocate r).nnext = s.nnext + 1 := rfl
@[simp] theorem State.allocate_root (r : Node) : (s.allocate r).root = s.root := rfl
@[simp] theorem State.allocate_bits (r : Node) : (s.allocate r).bits = s.bits := rfl
@[simp] theorem State.allocate_rev (r : Node) : (s.allocate r).rev = s.rev := rfl
@[simp] theorem State.allocate_buf (r : Node) : (s.allocate r).buf = s.buf := rfl
@[simp] theorem State.allocate_outpos (r : Node) : (s.allocate r).outpos = s.outpos := rfl
@[simp] theorem State.allocate_walkStack (r : Node) : (s.allocate r).walkStack = s.walkStack := rfl
@[simp] theorem State.allocate_pqOut (r : Node) : (s.allocate r).pqOut = s.pqOut := rfl
@[simp] theorem State.allocate_inputs (r : Node) : (s.allocate r).inputs = s.inputs := rfl
@[simp] theorem State.allocate_readData (r : Node) : (s.allocate r).readData = s.readData := rfl
@[simp] theorem State.allocate_draws (r : Node) : (s.allocate r).draws = s.draws := rfl

@[simp] theorem State.clearMap_busy : (s.clearMap).busy = s.busy := rfl
@[simp] theorem State.clearMap_done : (s.clearMap).done = s.done := rfl
@[simp] theorem State.clearMap_errf : (s.clearMap).errf = s.errf := rfl
@[simp] theorem State.clearMap_err : (s.clearMap).err = s.err := rfl
@[simp] theorem State.clearMap_phase : (s.clearMap).phase = s.phase := rfl
@[simp] theorem State.clearMap_textLen : (s.clearMap).textLen = s.textLen := rfl
@[simp] theorem State.clearMap_packedLen : (s.clearMap).packedLen = s.packedLen := rfl
@[simp] theorem State.clearMap_padBits : (s.clearMap).padBits = s.padBits := rfl
@[simp] theorem State.clearMap_bitCount : (s.clearMap).bitCount = s.bitCount := rfl
@[simp] theorem State.clearMap_text : (s.clearMap).text = s.text := rfl
@[simp] theorem State.clearMap_packed : (s.clearMap).packed = s.packed := rfl
@[simp] theorem State.clearMap_clen : (s.clearMap).clen = s.clen.clear := rfl
@[simp] theorem State.clearMap_cbits : (s.clearMap).cbits = s.cbits.clear := rfl
@[simp] theorem State.clearMap_freq : (s.clearMap).freq = s.freq := rfl
@[simp] theorem State.clearMap_node : (s.clearMap).node = s.node := rfl
@[simp] theorem State.clearMap_pq : (s.clearMap).pq = s.pq := rfl
@[simp] theorem State.clearMap_nleaf : (s.clearMap).nleaf = s.nleaf := rfl
@[simp] theorem State.clearMap_nnext : (s.clearMap).nnext = s.nnext := rfl
@[simp] theorem State.clearMap_root : (s.clearMap).root = s.root := rfl
@[simp] theorem State.clearMap_bits : (s.clearMap).bits = s.bits := rfl
@[simp] theorem State.clearMap_rev : (s.clearMap).rev = s.rev := rfl
@[simp] theorem State.clearMap_buf : (s.clearMap).buf = s.buf := rfl
@[simp] theorem State.clearMap_outpos : (s.clearMap).outpos = s.outpos := rfl
@[simp] theorem State.clearMap_walkStack : (s.clearMap).walkStack = s.walkStack := rfl
@[simp] theorem State.clearMap_pqOut : (s.clearMap).pqOut = s.pqOut := rfl
@[simp] theorem State.clearMap_inputs : (s.clearMap).inputs = s.inputs := rfl
@[simp] theorem State.clearMap_readData : (s.clearMap).readData = s.readData := rfl
@[simp] theorem State.clearMap_draws : (s.clearMap).draws = s.draws := rfl

@[simp] theorem State.writeCode_busy (y : Byte) (c : Bits) : (s.writeCode y c).busy = s.busy := rfl
@[simp] theorem State.writeCode_done (y : Byte) (c : Bits) : (s.writeCode y c).done = s.done := rfl
@[simp] theorem State.writeCode_errf (y : Byte) (c : Bits) : (s.writeCode y c).errf = s.errf := rfl
@[simp] theorem State.writeCode_err (y : Byte) (c : Bits) : (s.writeCode y c).err = s.err := rfl
@[simp] theorem State.writeCode_phase (y : Byte) (c : Bits) : (s.writeCode y c).phase = s.phase := rfl
@[simp] theorem State.writeCode_textLen (y : Byte) (c : Bits) : (s.writeCode y c).textLen = s.textLen := rfl
@[simp] theorem State.writeCode_packedLen (y : Byte) (c : Bits) : (s.writeCode y c).packedLen = s.packedLen := rfl
@[simp] theorem State.writeCode_padBits (y : Byte) (c : Bits) : (s.writeCode y c).padBits = s.padBits := rfl
@[simp] theorem State.writeCode_bitCount (y : Byte) (c : Bits) : (s.writeCode y c).bitCount = s.bitCount := rfl
@[simp] theorem State.writeCode_text (y : Byte) (c : Bits) : (s.writeCode y c).text = s.text := rfl
@[simp] theorem State.writeCode_packed (y : Byte) (c : Bits) : (s.writeCode y c).packed = s.packed := rfl
@[simp] theorem State.writeCode_clen (y : Byte) (c : Bits) : (s.writeCode y c).clen = s.clen.write y.toNat (BitVec.ofNat 8 c.length) := rfl
@[simp] theorem State.writeCode_cbits (y : Byte) (c : Bits) : (s.writeCode y c).cbits = s.cbits.write y.toNat (BitVec.ofNat 255 (overlay c (s.cbitsAt y).toNat)) := rfl
@[simp] theorem State.writeCode_freq (y : Byte) (c : Bits) : (s.writeCode y c).freq = s.freq := rfl
@[simp] theorem State.writeCode_node (y : Byte) (c : Bits) : (s.writeCode y c).node = s.node := rfl
@[simp] theorem State.writeCode_pq (y : Byte) (c : Bits) : (s.writeCode y c).pq = s.pq := rfl
@[simp] theorem State.writeCode_nleaf (y : Byte) (c : Bits) : (s.writeCode y c).nleaf = s.nleaf := rfl
@[simp] theorem State.writeCode_nnext (y : Byte) (c : Bits) : (s.writeCode y c).nnext = s.nnext := rfl
@[simp] theorem State.writeCode_root (y : Byte) (c : Bits) : (s.writeCode y c).root = s.root := rfl
@[simp] theorem State.writeCode_bits (y : Byte) (c : Bits) : (s.writeCode y c).bits = s.bits := rfl
@[simp] theorem State.writeCode_rev (y : Byte) (c : Bits) : (s.writeCode y c).rev = s.rev := rfl
@[simp] theorem State.writeCode_buf (y : Byte) (c : Bits) : (s.writeCode y c).buf = s.buf := rfl
@[simp] theorem State.writeCode_outpos (y : Byte) (c : Bits) : (s.writeCode y c).outpos = s.outpos := rfl
@[simp] theorem State.writeCode_walkStack (y : Byte) (c : Bits) : (s.writeCode y c).walkStack = s.walkStack := rfl
@[simp] theorem State.writeCode_pqOut (y : Byte) (c : Bits) : (s.writeCode y c).pqOut = s.pqOut := rfl
@[simp] theorem State.writeCode_inputs (y : Byte) (c : Bits) : (s.writeCode y c).inputs = s.inputs := rfl
@[simp] theorem State.writeCode_readData (y : Byte) (c : Bits) : (s.writeCode y c).readData = s.readData := rfl
@[simp] theorem State.writeCode_draws (y : Byte) (c : Bits) : (s.writeCode y c).draws = s.draws := rfl

end Sys2Proof.Machine
end

