-- ==== Sys2Proof/Laws/Ops.lean ====
section
/-! SUPPORT. What the shared operations over the queue, the code map and the bit stream do. -/

namespace Sys2Proof.Machine

/-! The queue. -/

theorem mem_insertMember {l : List Nat} {n x : Nat} : x ∈ insertMember l n ↔ x = n ∨ x ∈ l := by
  induction l with
  | nil => simp [insertMember]
  | cons m ms ih =>
    simp only [insertMember]
    split
    · simp
    · split
      · next h => subst h; simp
      · simp only [List.mem_cons, ih]; tauto

theorem pairwise_insertMember {l : List Nat} (h : l.Pairwise (· < ·)) (n : Nat) :
    (insertMember l n).Pairwise (· < ·) := by
  induction l with
  | nil => simp [insertMember]
  | cons m ms ih =>
    obtain ⟨h1, h2⟩ := List.pairwise_cons.1 h
    simp only [insertMember]
    split
    · next hlt =>
      refine List.pairwise_cons.2 ⟨fun x hx => ?_, h⟩
      rcases List.mem_cons.1 hx with rfl | hx
      · exact hlt
      · exact hlt.trans (h1 x hx)
    · split
      · exact h
      · refine List.pairwise_cons.2 ⟨fun x hx => ?_, ih h2⟩
        rcases mem_insertMember.1 hx with rfl | hx
        · omega
        · exact h1 x hx

theorem length_insertMember {l : List Nat} {n : Nat} (h : n ∉ l) : (insertMember l n).length = l.length + 1 := by
  induction l with
  | nil => rfl
  | cons m ms ih =>
    simp only [List.mem_cons, not_or] at h
    simp only [insertMember]
    split
    · rfl
    · simp [h.1, ih h.2]

theorem keyLess_iff (nodes : List (Nat × Node)) (m n : Nat) :
    keyLess nodes m n = true ↔
      nodeFreq nodes m < nodeFreq nodes n ∨ (nodeFreq nodes m = nodeFreq nodes n ∧ m < n) := by
  simp [keyLess]

theorem leastMember_mem (nodes : List (Nat × Node)) (best : Nat) (l : List Nat) :
    leastMember nodes best l ∈ best :: l := by
  induction l generalizing best with
  | nil => simp [leastMember]
  | cons m ms ih =>
    have h := ih (if keyLess nodes m best then m else best)
    simp only [leastMember, List.mem_cons] at h ⊢
    by_cases hk : keyLess nodes m best = true
    · simp only [hk, if_true] at h ⊢; exact .inr h
    · simp only [hk, Bool.false_eq_true, if_false] at h ⊢; exact h.imp_right .inr

theorem leastMember_least (nodes : List (Nat × Node)) (best : Nat) (l : List Nat) :
    ∀ x ∈ best :: l, x = leastMember nodes best l ∨ keyLess nodes (leastMember nodes best l) x = true := by
  induction l generalizing best with
  | nil => simp [leastMember]
  | cons m ms ih =>
    intro x hx
    by_cases hk : keyLess nodes m best = true
    · have h := ih m
      simp only [leastMember, hk, if_true]
      rcases List.mem_cons.1 hx with rfl | hx
      · have hm := h m List.mem_cons_self
        rw [keyLess_iff] at hk ⊢
        rw [keyLess_iff] at hm
        rcases hm with hm | hm
        · rw [← hm]; exact .inr hk
        · exact .inr (by omega)
      · exact h x hx
    · have h := ih best
      simp only [leastMember, hk, Bool.false_eq_true, if_false]
      rcases List.mem_cons.1 hx with rfl | hx
      · exact h x List.mem_cons_self
      · rcases List.mem_cons.1 hx with rfl | hx
        · have hb := h best List.mem_cons_self
          rw [keyLess_iff] at hk ⊢
          rw [keyLess_iff] at hb
          by_cases hxb : x = best
          · subst hxb; rcases hb with hb | hb
            · exact .inl hb
            · exact .inr hb
          · rcases hb with hb | hb
            · rw [← hb]; exact .inr (by omega)
            · exact .inr (by omega)
        · exact h x (List.mem_cons_of_mem _ hx)

/-- All PQ.EXTRACTMIN does when it answers a member: it is the one with the least key, and only it leaves the queue. -/
theorem pqExtractMin_ok {s t : State} {n : Nat} (h : s.pqExtractMin = .ok (n, t)) :
    n ∈ s.pq ∧ (∀ m ∈ s.pq, m ≠ n → keyLess s.node n m = true) ∧
      (∀ m ∈ s.pq, (cellAt s.node m).isSome = true) ∧ t = { s with pq := s.pq.filter fun x => x != n } := by
  unfold State.pqExtractMin at h
  split at h
  · cases h
  · next m ms hpq =>
    split at h
    · next hall =>
      simp only [Except.ok.injEq, Prod.mk.injEq] at h
      obtain ⟨rfl, rfl⟩ := h
      refine ⟨hpq ▸ leastMember_mem _ _ _, fun x hx hne => ?_, by simpa using hall, rfl⟩
      rcases leastMember_least s.node m ms x (hpq ▸ hx) with h | h
      · exact absurd h hne
      · exact h
    · cases h

/-- When PQ.EXTRACTMIN answers a member. -/
theorem pqExtractMin_exists {s : State} (hne : s.pq ≠ []) (hall : ∀ m ∈ s.pq, (cellAt s.node m).isSome = true) :
    ∃ n t, s.pqExtractMin = .ok (n, t) := by
  unfold State.pqExtractMin
  split
  · contradiction
  · exact ⟨_, _, if_pos (by simpa using hall)⟩

/-! Symbols, codes and the code map. -/

@[simp] theorem mem_symbols (y : Byte) : y ∈ symbols := by
  refine List.mem_map.2 ⟨y.toNat, List.mem_range.2 y.isLt, by simp⟩

theorem mem_present {s : State} {y : Byte} : y ∈ s.present ↔ s.clenAt y ≠ 0#8 := by
  simp [State.present]

theorem mapEmpty_iff {s : State} : s.mapEmpty = true ↔ ∀ y, s.clenAt y = 0#8 := by
  simp [State.mapEmpty]

theorem prefixFree_iff {s : State} :
    s.prefixFree = true ↔
      ∀ y z, y ≠ z → s.clenAt y ≠ 0#8 → s.clenAt z ≠ 0#8 → ¬ s.code y <+: s.code z := by
  simp only [State.prefixFree, List.all_eq_true, mem_present, Bool.or_eq_true, beq_iff_eq, Bool.not_eq_true',
    ← Bool.not_eq_true, List.isPrefixOf_iff_prefix]
  exact ⟨fun h y z hne hy hz => (h y hy z hz).resolve_left hne,
    fun h y hy z hz => or_iff_not_imp_left.2 fun hne => h y z hne hy hz⟩

theorem codesDistinct_iff {s : State} :
    s.codesDistinct = true ↔
      ∀ y z, y ≠ z → s.clenAt y ≠ 0#8 → s.clenAt z ≠ 0#8 → s.code y ≠ s.code z := by
  simp only [State.codesDistinct, List.all_eq_true, mem_present, Bool.or_eq_true, beq_iff_eq, Bool.not_eq_true',
    ← Bool.not_eq_true]
  exact ⟨fun h y z hne hy hz => (h y hy z hz).resolve_left hne,
    fun h y hy z hz => or_iff_not_imp_left.2 fun hne => h y z hne hy hz⟩

@[simp] theorem length_code (s : State) (y : Byte) : (s.code y).length = (s.clenAt y).toNat := by
  simp [State.code]

/-- The bits of an overlaid vector: those of the code at its positions, the old ones above. -/
theorem testBit_overlay (p : Bits) (old k : Nat) :
    (overlay p old).testBit k = if h : k < p.length then p[k] else old.testBit k := by
  induction p generalizing old k with
  | nil => simp [overlay]
  | cons b bs ih =>
    cases k with
    | zero =>
      cases b <;> simp [overlay]
    | succ k =>
      have h : (b.toNat + 2 * overlay bs (old / 2)) / 2 = overlay bs (old / 2) := by
        cases b <;> (simp; try omega)
      rw [overlay, Nat.testBit_succ, h, ih]
      simp [Nat.testBit_succ]

theorem toNat_ne_of_ne {y z : Byte} (h : y ≠ z) : y.toNat ≠ z.toNat := fun e => h (BitVec.eq_of_toNat_eq e)

@[simp] theorem clenAt_writeCode_same (s : State) (y : Byte) (c : Bits) :
    (s.writeCode y c).clenAt y = BitVec.ofNat 8 c.length := by
  simp [State.clenAt]

theorem clenAt_writeCode_ne (s : State) {y z : Byte} (c : Bits) (h : z ≠ y) :
    (s.writeCode y c).clenAt z = s.clenAt z := by
  simp [State.clenAt, Memory.read_write_ne _ _ _ (toNat_ne_of_ne h)]

@[simp] theorem cbitsAt_writeCode_same (s : State) (y : Byte) (c : Bits) :
    (s.writeCode y c).cbitsAt y = BitVec.ofNat 255 (overlay c (s.cbitsAt y).toNat) := by
  simp [State.cbitsAt]

theorem cbitsAt_writeCode_ne (s : State) {y z : Byte} (c : Bits) (h : z ≠ y) :
    (s.writeCode y c).cbitsAt z = s.cbitsAt z := by
  simp [State.cbitsAt, Memory.read_write_ne _ _ _ (toNat_ne_of_ne h)]

/-- A code written is the code read, if it fits its vector. -/
theorem code_writeCode_same (s : State) (y : Byte) {c : Bits} (h : c.length ≤ Config.LMAX) :
    (s.writeCode y c).code y = c := by
  have hlen : (BitVec.ofNat 8 c.length).toNat = c.length := by
    simp only [BitVec.toNat_ofNat, Config.LMAX] at h ⊢; omega
  refine List.ext_getElem (by simp; omega) fun k h1 h2 => ?_
  have hk : k < 255 := by omega
  simp only [State.code, cbitsAt_writeCode_same, List.getElem_map, List.getElem_range, BitVec.getLsbD_ofNat,
    testBit_overlay, hk, h2, decide_true, Bool.true_and, dif_pos]

theorem code_writeCode_ne (s : State) {y z : Byte} (c : Bits) (h : z ≠ y) :
    (s.writeCode y c).code z = s.code z := by
  simp [State.code, clenAt_writeCode_ne s c h, cbitsAt_writeCode_ne s c h]

/-! The bit stream. -/

theorem padding_le (n : Nat) : padding n ≤ 7 := by unfold padding; omega

theorem add_padding_mod (n : Nat) : (n + padding n) % 8 = 0 := by unfold padding; omega

/-- Bit k of a packed byte, most significant first, is stream bit 8j + k. -/
theorem packByte_bit (b : Bits) (j : Nat) {k : Nat} (hk : k < 8) :
    (packByte b j).toNat / 2 ^ (7 - k) % 2 = (b.getD (8 * j + k) false).toNat := by
  have key : ∀ x0 x1 x2 x3 x4 x5 x6 x7 : Bool, ∀ i : Fin 8,
      (BitVec.ofNat 8 (x0.toNat * 128 + (x1.toNat * 64 + (x2.toNat * 32 + (x3.toNat * 16 + (x4.toNat * 8 +
        (x5.toNat * 4 + (x6.toNat * 2 + (x7.toNat * 1 + 0))))))))).toNat / 2 ^ (7 - i.1) % 2 =
        ([x0, x1, x2, x3, x4, x5, x6, x7].getD i.1 false).toNat := by decide
  have h := key (b.getD (8 * j + 0) false) (b.getD (8 * j + 1) false) (b.getD (8 * j + 2) false)
    (b.getD (8 * j + 3) false) (b.getD (8 * j + 4) false) (b.getD (8 * j + 5) false)
    (b.getD (8 * j + 6) false) (b.getD (8 * j + 7) false) ⟨k, hk⟩
  have e : packByte b j = BitVec.ofNat 8 ((b.getD (8 * j + 0) false).toNat * 128 +
      ((b.getD (8 * j + 1) false).toNat * 64 + ((b.getD (8 * j + 2) false).toNat * 32 +
      ((b.getD (8 * j + 3) false).toNat * 16 + ((b.getD (8 * j + 4) false).toNat * 8 +
      ((b.getD (8 * j + 5) false).toNat * 4 + ((b.getD (8 * j + 6) false).toNat * 2 +
      ((b.getD (8 * j + 7) false).toNat * 1 + 0)))))))) := rfl
  rw [e, h]
  match k, hk with
  | 0, _ | 1, _ | 2, _ | 3, _ | 4, _ | 5, _ | 6, _ | 7, _ => rfl

end Sys2Proof.Machine
end

