-- ==== Sys2Proof/Laws/Decoder.lean ====
section
/-! SUPPORT. What the scan does with a stretch of bits, and that every stream has a greedy reading. -/

namespace Sys2Proof.Machine

open Sys2Proof.Safety

/-- Bits with no match are kept in `BUF` (44_decompress.md R136). -/
theorem scan_skip (b q : Bits) (s : State)
    (h : ∀ p, p <+: b → p ≠ [] → revLookup s.rev (s.buf ++ p) = none) :
    scan (b ++ q) s = scan q { s with buf := s.buf ++ b } := by
  induction b generalizing s with
  | nil => simp
  | cons x b ih =>
    have h1 : revLookup s.rev (s.buf ++ [x]) = none := h [x] (by simp) (by simp)
    rw [List.cons_append, scan]
    simp only [h1]
    rw [ih { s with buf := s.buf ++ [x] } (fun p hp hne => by
      have := h (x :: p) (by simpa using hp) (by simp)
      simpa using this)]
    simp

/-- A shortest match emits its symbol, or raises where `TEXT` is full (44_decompress.md R136). -/
theorem scan_match {cs : Bits} {y : Byte} (q : Bits) {s : State} (hb : s.buf = []) (hne : cs ≠ [])
    (hy : revLookup s.rev cs = some y)
    (h : ∀ p, p <+: cs → p ≠ [] → p ≠ cs → revLookup s.rev p = none) :
    scan (cs ++ q) s =
      if s.outpos = Config.NMAX then { s with buf := cs }.raiseScan .capacityExceeded
      else scan q { s with text := s.text.write s.outpos y, outpos := s.outpos + 1, buf := [] } := by
  obtain ⟨b, x, rfl⟩ : ∃ b x, cs = b ++ [x] := ⟨_, _, (List.dropLast_append_getLast hne).symm⟩
  rw [List.append_assoc, scan_skip b _ s (fun p hp hpn => by
    rw [hb]
    refine h _ (hp.trans (List.prefix_append b [x])) hpn fun e => ?_
    have := hp.length_le
    rw [List.nil_append] at e
    rw [e] at this
    simp at this)]
  rw [hb, List.nil_append, List.singleton_append, scan]
  simp only [hy]

/-- Every stream has a greedy reading (44_decompress.md R136). -/
theorem exists_greedyParse (rev : List (Bits × Byte)) (b : Bits) : ∃ ws rest, GreedyParse rev b ws rest := by
  induction hn : b.length using Nat.strong_induction_on generalizing b with
  | _ n ih =>
    by_cases h : ∃ k, 1 ≤ k ∧ k ≤ b.length ∧ revLookup rev (b.take k) ≠ none
    · classical
      let k := Nat.find h
      obtain ⟨h1, h2, h3⟩ := Nat.find_spec h
      obtain ⟨y, hy⟩ := Option.ne_none_iff_exists'.1 h3
      obtain ⟨ws, rest, hp⟩ := ih (b.drop k).length (by simp only [List.length_drop]; omega) (b.drop k) rfl
      refine ⟨(b.take k, y) :: ws, rest, ⟨?_, ?_, ?_, hp.leftover⟩⟩
      · rw [List.map_cons, List.flatten_cons, List.append_assoc, ← hp.split, List.take_append_drop]
      · intro w hw
        rcases List.mem_cons.1 hw with rfl | hw
        · refine ⟨fun e => ?_, hy⟩
          have := congrArg List.length e
          simp only [List.length_take, List.length_nil] at this
          omega
        · exact hp.code w hw
      · intro w hw p hpre hpn hpne
        rcases List.mem_cons.1 hw with rfl | hw
        · have hl := hpre.length_le
          have e : p = b.take p.length := by
            have := List.prefix_iff_eq_take.1 (hpre.trans (List.take_prefix k b)); exact this
          have hlt : p.length < k := by
            rcases Nat.lt_or_ge p.length k with hlt | hge
            · exact hlt
            · refine absurd ?_ hpne
              exact hpre.eq_of_length_le (by simp only [List.length_take]; omega)
          by_contra hc
          refine Nat.find_min h hlt ⟨List.length_pos_of_ne_nil hpn, by omega, ?_⟩
          rw [← e]; exact hc
        · exact hp.shortest w hw p hpre hpn hpne
    · push Not at h
      refine ⟨[], b, ⟨by simp, by simp, by simp, fun p hp hne => ?_⟩⟩
      have := h p.length (List.length_pos_of_ne_nil hne) hp.length_le
      rwa [← List.prefix_iff_eq_take.1 hp] at this

/-- A list of codes with their symbols, no two codes equal, looked up (44_decompress.md R133). -/
theorem revLookup_map {l : List Byte} {f : Byte → Bits} (hd : ∀ y ∈ l, ∀ z ∈ l, y ≠ z → f y ≠ f z) (b : Bits)
    (y : Byte) : revLookup (l.map fun y => (f y, y)) b = some y ↔ y ∈ l ∧ f y = b := by
  induction l with
  | nil => simp [revLookup]
  | cons x xs ih =>
    have ih := ih fun y hy z hz => hd y (List.mem_cons_of_mem _ hy) z (List.mem_cons_of_mem _ hz)
    simp only [List.map_cons, revLookup]
    split
    · next e =>
      subst e
      constructor
      · intro h; cases h; exact ⟨List.mem_cons_self, rfl⟩
      · rintro ⟨h, he⟩
        by_contra hne
        exact hd x List.mem_cons_self y h (fun e => hne (congrArg some e)) he.symm
    · next e =>
      rw [ih, List.mem_cons]
      refine ⟨fun h => ⟨.inr h.1, h.2⟩, ?_⟩
      rintro ⟨rfl | h, he⟩
      · exact absurd he.symm e
      · exact ⟨h, he⟩

/-- `complete` ends the command with its code (00_scope.md R11). -/
theorem ended_complete (s : State) (e : ErrCode) : Ended e (s.complete e) := ⟨rfl, rfl, rfl, rfl, rfl⟩

/-- t with what SR.SCAN writes as it is in s (20_memory.md R62). -/
def scanned (s t : State) : State :=
  { t with
    err := s.err, errf := s.errf, busy := s.busy, done := s.done, phase := s.phase, text := s.text
    textLen := s.textLen, buf := s.buf, outpos := s.outpos }

/-- However a scan ends, it ends the command with one of its codes, and writes only what SR.SCAN writes
(44_decompress.md R136, 20_memory.md R62). -/
theorem scan_spec (b : Bits) (s : State) :
    (∃ e ∈ [ErrCode.none, .malformedPayload, .capacityExceeded], Ended e (scan b s)) ∧
    scanned s (scan b s) = s := by
  induction b generalizing s with
  | nil =>
    unfold scan
    split
    · exact ⟨⟨.none, by simp, ended_complete _ _⟩, rfl⟩
    · exact ⟨⟨.malformedPayload, by simp, ended_complete _ _⟩, rfl⟩
  | cons x b ih =>
    have goes : ∀ u : State, scanned s u = s →
        (∃ e ∈ [ErrCode.none, .malformedPayload, .capacityExceeded], Ended e (scan b u)) ∧
          scanned s (scan b u) = s := fun u hu =>
      ⟨(ih u).1, (congrArg (scanned s) (ih u).2).trans hu⟩
    simp only [scan]
    cases revLookup s.rev (s.buf ++ [x]) with
    | none => exact goes _ rfl
    | some y =>
      by_cases hn : s.outpos = Config.NMAX
      · simp only [hn, if_true]
        exact ⟨⟨.capacityExceeded, by simp, ended_complete _ _⟩, rfl⟩
      · simp only [hn, if_false]
        exact goes _ rfl

end Sys2Proof.Machine
end

