-- ==== Sys2Proof/Laws/Encoder.lean ====
section
/-! SUPPORT. What the loops of the encoder compute: the counts, the leaves, the walk. -/

namespace Sys2Proof.Machine

open Sys2Proof.Safety

/-! FrequencyTable. -/

/-- FT.BUILD's loop adds to each count the number of occurrences. -/
theorem read_foldl_countSymbol (l : List Byte) (m : Memory 16) (y : Byte) :
    (l.foldl countSymbol m).read Config.freeFreq y.toNat =
      m.read Config.freeFreq y.toNat + BitVec.ofNat 16 (l.count y) := by
  induction l generalizing m with
  | nil => simp
  | cons x xs ih =>
    rw [List.foldl_cons, ih]
    by_cases h : x = y
    · subst h
      simp only [countSymbol, Memory.read_write_same, List.count_cons_self, BitVec.ofNat_add]
      rw [BitVec.add_assoc, BitVec.add_comm 1#16]
    · rw [countSymbol, Memory.read_write_ne _ _ _ (toNat_ne_of_ne (Ne.symm h)), List.count_cons_of_ne h]

theorem length_textSymbols (s : State) : s.textSymbols.length = s.textLen.toNat := by
  simp [State.textSymbols]

theorem mem_textSymbols {s : State} {y : Byte} :
    y ∈ s.textSymbols ↔ ∃ i, i < s.textLen.toNat ∧ s.textAt i = y := by
  simp [State.textSymbols]

/-! TreeBuilder. -/

/-- TB.LOAD's loop from any point of it: one leaf per key, in order, from `NNEXT` on. -/
theorem foldl_loadLeaf (ys : List Byte) (s : State) (hq : ∀ m ∈ s.pq, m < s.nnext)
    (hn : ∀ n, s.nnext ≤ n → cellAt s.node n = none) (keys : List Byte)
    (hk : keys = ys.filter fun y => s.freqAt y != 0#16) :
    (∀ n, cellAt (ys.foldl loadLeaf s).node n =
      if n < s.nnext then cellAt s.node n else (keys[n - s.nnext]?).map fun y => .leaf y (s.freqAt y)) ∧
    (ys.foldl loadLeaf s).pq = s.pq ++ (List.range keys.length).map (s.nnext + ·) ∧
    (ys.foldl loadLeaf s).nnext = s.nnext + keys.length ∧
    { ys.foldl loadLeaf s with node := s.node, pq := s.pq, nnext := s.nnext } = s := by
  induction ys generalizing s keys with
  | nil =>
    subst hk
    refine ⟨fun n => ?_, by simp, by simp, rfl⟩
    by_cases h : n < s.nnext
    · simp [h]
    · simpa [h] using hn n (by omega)
  | cons y ys ih =>
    rw [List.foldl_cons]
    by_cases h0 : s.freqAt y = 0#16
    · have e : loadLeaf s y = s := by simp [loadLeaf, h0]
      rw [e]
      exact ih s hq hn keys (by simpa [List.filter_cons, h0] using hk)
    · have hins : ∀ (l : List Nat) (k : Nat), (∀ m ∈ l, m < k) → insertMember l k = l ++ [k] := by
        intro l k hl
        induction l with
        | nil => rfl
        | cons m ms ihm =>
          have hm := hl m List.mem_cons_self
          simp [insertMember, show ¬ k < m by omega, show ¬ k = m by omega,
            ihm fun x hx => hl x (List.mem_cons_of_mem _ hx)]
      let s' := loadLeaf s y
      have es : s' = (s.pqInsert s.nnext).allocate (.leaf y (s.freqAt y)) := by simp [s', loadLeaf, h0]
      have epq : s'.pq = s.pq ++ [s.nnext] := by rw [es]; simp [hins _ _ hq]
      have enn : s'.nnext = s.nnext + 1 := by rw [es]; simp
      have endn : s'.node = putCell s.node s.nnext (.leaf y (s.freqAt y)) := by rw [es]; simp
      have efr : ∀ z, s'.freqAt z = s.freqAt z := by intro z; rw [es]; rfl
      have efm : { s' with node := s.node, pq := s.pq, nnext := s.nnext } = s := by rw [es]; rfl
      let keys' := ys.filter fun z => s'.freqAt z != 0#16
      have ek : keys = y :: keys' := by simp [hk, h0, keys', efr]
      obtain ⟨h1, h2, h3, h4⟩ := ih s' (by
          intro m hm
          rw [epq] at hm; rw [enn]
          rcases List.mem_append.1 hm with hm | hm
          · exact (hq m hm).trans (Nat.lt_succ_self _)
          · have := List.mem_singleton.1 hm; omega) (by
          intro n hle
          rw [enn] at hle
          rw [endn, cellAt_putCell_ne _ _ (by omega)]
          exact hn n (by omega)) keys' rfl
      refine ⟨fun n => ?_, ?_, ?_, ?_⟩
      · rw [h1, enn, endn, ek]
        by_cases hlt : n < s.nnext
        · simp [hlt, show n < s.nnext + 1 by omega, cellAt_putCell_ne _ _ (show n ≠ s.nnext by omega)]
        · by_cases heq : n = s.nnext
          · subst heq; simp
          · rw [if_neg (by omega), if_neg hlt, show n - s.nnext = (n - (s.nnext + 1)) + 1 by omega]
            simp [efr]
      · rw [h2, epq, enn, ek]
        simp [List.range_succ_eq_map, Function.comp_def, Nat.add_assoc, Nat.add_comm 1]
      · rw [h3, enn, ek]; simp; omega
      · have := congrArg (fun t : State => { t with node := s.node, pq := s.pq, nnext := s.nnext }) h4
        simpa [efm] using this.trans efm

/-- TB.LOAD's loop (41_tree_builder.md R97). -/
theorem loadLeaves_spec (s : State) (keys : List Byte) (hk : keys = symbols.filter fun y => s.freqAt y != 0#16) :
    (∀ n, cellAt (loadLeaves s).node n = (keys[n]?).map fun y => .leaf y (s.freqAt y)) ∧
    (loadLeaves s).pq = List.range keys.length ∧ (loadLeaves s).nnext = keys.length ∧
    { loadLeaves s with node := s.node, pq := s.pq, nnext := s.nnext } = s := by
  obtain ⟨h1, h2, h3, h4⟩ := foldl_loadLeaf symbols { s with pq := [], nnext := 0, node := [] }
    (fun _ h => nomatch h) (fun _ _ => rfl) keys hk
  unfold loadLeaves
  generalize symbols.foldl loadLeaf { s with pq := [], nnext := 0, node := [] } = u at h1 h2 h3 h4 ⊢
  refine ⟨fun n => (h1 n).trans (if_neg (Nat.not_lt_zero n)), h2.trans ?_, h3.trans (Nat.zero_add _),
    congrArg (fun t : State => { t with node := s.node, pq := s.pq, nnext := s.nnext }) h4⟩
  show [] ++ (List.range keys.length).map (0 + ·) = _
  simp

/-! CodeAssigner. -/

/-- The codes of a list of leaves written one after another. -/
def writeLeaves (s : State) (l : List (Byte × Bits)) : State :=
  l.foldl (fun s p => s.writeCode p.1 (leafCode p.2)) s

theorem writeLeaves_frame (s : State) (l : List (Byte × Bits)) :
    { writeLeaves s l with clen := s.clen, cbits := s.cbits } = s := by
  induction l generalizing s with
  | nil => rfl
  | cons p l ih =>
    have := congrArg (fun t : State => { t with clen := s.clen, cbits := s.cbits }) (ih (s.writeCode p.1 (leafCode p.2)))
    exact this

theorem writeLeaves_stack (s : State) (l : List (Byte × Bits)) (st : List (Nat × Bits)) :
    writeLeaves { s with walkStack := st } l = { writeLeaves s l with walkStack := st } := by
  induction l generalizing s with
  | nil => rfl
  | cons p l ih => exact ih (s.writeCode p.1 (leafCode p.2))

theorem writeLeaves_append (s : State) (l k : List (Byte × Bits)) :
    writeLeaves s (l ++ k) = writeLeaves (writeLeaves s l) k := List.foldl_append ..

@[simp] theorem writeLeaves_node (s : State) (l : List (Byte × Bits)) : (writeLeaves s l).node = s.node := by
  have := congrArg State.node (writeLeaves_frame s l); exact this

theorem childEntry_some (n : Nat) (p : Bits) : childEntry (some n) p = [(n, p)] := rfl

/-- A walk that visits a whole tree writes the tree's leaves in order and goes on with the rest of the stack
(42_code_assigner.md R110). -/
theorem walk_tree {nodes : List (Nat × Node)} {n : Option Nat} {t : PrefixTree} (hr : Roots nodes n t) (fuel : Nat)
    (s : State) (hs : s.node = nodes) (pre : Bits) (rest : List (Nat × Bits))
    (hlen : ∀ p ∈ t.paths, (leafCode (pre ++ p.2)).length ≤ Config.LMAX) :
    walk (t.size + fuel) { s with walkStack := childEntry n pre ++ rest } =
      walk fuel { writeLeaves s (t.paths.map fun p => (p.1, pre ++ p.2)) with walkStack := rest } := by
  induction hr generalizing fuel s pre rest with
  | absent => simp [PrefixTree.size, PrefixTree.paths, childEntry, writeLeaves]
  | @leaf n y f hc =>
    subst hs
    have hl := hlen (y, []) (by simp [PrefixTree.paths])
    rw [List.append_nil] at hl
    rw [show PrefixTree.size (.leaf y f.toNat) + fuel = fuel + 1 from Nat.add_comm _ _, walk]
    simp only [childEntry, List.cons_append, List.nil_append, hc, if_neg (Nat.not_lt.2 hl), PrefixTree.paths,
      List.map_cons, List.map_nil, List.append_nil]
    rfl
  | @node n f l r a b hc _ _ iha ihb =>
    subst hs
    rw [show PrefixTree.size (.node f.toNat a b) + fuel = a.size + (b.size + fuel) + 1 by
      simp only [PrefixTree.size]; omega, walk]
    simp only [childEntry_some, List.cons_append, List.nil_append, hc]
    rw [List.append_assoc]
    rw [iha (b.size + fuel) s rfl (pre ++ [false]) (childEntry r (pre ++ [true]) ++ rest) (fun p hp => by
      have := hlen (p.1, false :: p.2) (by simp [PrefixTree.paths, hp]); simpa using this)]
    rw [ihb fuel _ (by simp) (pre ++ [true]) rest (fun p hp => by
      have := hlen (p.1, true :: p.2) (by simp [PrefixTree.paths, hp]); simpa using this)]
    congr 1
    simp [PrefixTree.paths, writeLeaves_append, Function.comp_def]

/-- A walk writes only the code map and the stack, and ends with the stack empty (20_memory.md R62). -/
theorem walk_frame {fuel : Nat} {s t : State} (h : walk fuel s = .ok t) :
    t.walkStack = [] ∧ { t with clen := s.clen, cbits := s.cbits, walkStack := s.walkStack } = s := by
  induction fuel generalizing s with
  | zero =>
    unfold walk at h
    split at h
    · next hs => cases h; exact ⟨hs, rfl⟩
    · cases h
  | succ fuel ih =>
    unfold walk at h
    split at h
    · next hs => cases h; exact ⟨hs, rfl⟩
    · dsimp only at h
      split at h
      · cases h
      · split at h
        · cases h
        · obtain ⟨h1, h2⟩ := ih h
          exact ⟨h1, congrArg (fun u : State => { u with clen := s.clen, cbits := s.cbits, walkStack := s.walkStack }) h2⟩
      · obtain ⟨h1, h2⟩ := ih h
        exact ⟨h1, congrArg (fun u : State => { u with walkStack := s.walkStack }) h2⟩

theorem length_path_le_depth (t : PrefixTree) : ∀ p ∈ t.paths, p.2.length ≤ t.depth := by
  induction t with
  | none => simp [PrefixTree.paths]
  | leaf y f => simp [PrefixTree.paths]
  | node f l r ihl ihr =>
    intro p hp
    simp only [PrefixTree.paths, List.mem_append, List.mem_map] at hp
    rcases hp with ⟨q, hq, rfl⟩ | ⟨q, hq, rfl⟩
    · have := ihl q hq; simp [PrefixTree.depth]; omega
    · have := ihr q hq; simp [PrefixTree.depth]; omega

theorem length_leafCode_le {p : Bits} {n : Nat} (h : p.length ≤ n) (hn : 1 ≤ n) : (leafCode p).length ≤ n := by
  unfold leafCode; split
  · simpa using hn
  · exact h

end Sys2Proof.Machine
end

