-- ==== Sys2Proof/Laws/Trees.lean ====
section
/-! SUPPORT. Prefix trees: their size and depth, their paths, and the codes a walk leaves. -/

namespace Sys2Proof.Machine

open Sys2Proof.Safety

theorem syms_node (f : Nat) (l r : PrefixTree) : (PrefixTree.node f l r).syms = l.syms ++ r.syms := by
  simp [PrefixTree.syms, PrefixTree.paths, Function.comp_def]

theorem length_syms (t : PrefixTree) : t.syms.length = t.leaves := by
  induction t with
  | none => rfl
  | leaf y f => rfl
  | node f l r ihl ihr => rw [syms_node, List.length_append, ihl, ihr]; rfl

/-- A full tree has one internal node fewer than leaves (10_state.md R36). -/
theorem full_size {t : PrefixTree} (h : t.full) : t.size + 1 = 2 * t.leaves := by
  induction t with
  | none => exact h.elim
  | leaf y f => rfl
  | node f l r ihl ihr =>
    have := ihl h.1; have := ihr h.2
    simp only [PrefixTree.size, PrefixTree.leaves]; omega

/-- A full tree's longest path has fewer edges than the tree has leaves (41_tree_builder.md R103). -/
theorem full_depth {t : PrefixTree} (h : t.full) : t.depth + 1 ≤ t.leaves := by
  induction t with
  | none => exact h.elim
  | leaf y f => exact Nat.le_refl 1
  | node f l r ihl ihr =>
    have := ihl h.1; have := ihr h.2
    simp only [PrefixTree.depth, PrefixTree.leaves]; omega

theorem mem_syms {t : PrefixTree} {p : Byte × Bits} (h : p ∈ t.paths) : p.1 ∈ t.syms := List.mem_map_of_mem h

/-- Two leaves of a tree have paths neither of which is a prefix of the other (42_code_assigner.md R113). -/
theorem paths_not_prefix {t : PrefixTree} (hn : t.syms.Nodup) {p q : Byte × Bits} (hp : p ∈ t.paths) (hq : q ∈ t.paths)
    (hne : p.1 ≠ q.1) : ¬ p.2 <+: q.2 := by
  induction t generalizing p q with
  | none => cases hp
  | leaf y f =>
    simp only [PrefixTree.paths, List.mem_singleton] at hp hq
    exact absurd (by rw [hp, hq]) hne
  | node f l r ihl ihr =>
    rw [syms_node] at hn
    simp only [PrefixTree.paths, List.mem_append, List.mem_map] at hp hq
    rcases hp with ⟨p, hp, rfl⟩ | ⟨p, hp, rfl⟩ <;> rcases hq with ⟨q, hq, rfl⟩ | ⟨q, hq, rfl⟩
    · simpa using ihl hn.of_append_left hp hq hne
    · simp
    · simp
    · simpa using ihr hn.of_append_right hp hq hne

/-- The only empty path is that of a tree that is one leaf (42_code_assigner.md R111). -/
theorem path_eq_nil {t : PrefixTree} {p : Byte × Bits} (hp : p ∈ t.paths) (h : p.2 = []) : t.paths = [p] := by
  cases t with
  | none => cases hp
  | leaf y f => simp only [PrefixTree.paths, List.mem_singleton] at hp; rw [hp]; rfl
  | node f l r =>
    simp only [PrefixTree.paths, List.mem_append, List.mem_map] at hp
    rcases hp with ⟨q, _, rfl⟩ | ⟨q, _, rfl⟩ <;> cases h

/-- No leaf's code is a prefix of another's (42_code_assigner.md R111, R113). -/
theorem leafCodes_not_prefix {t : PrefixTree} (hn : t.syms.Nodup) {p q : Byte × Bits} (hp : p ∈ t.paths)
    (hq : q ∈ t.paths) (hne : p.1 ≠ q.1) : ¬ leafCode p.2 <+: leafCode q.2 := by
  have alone : ∀ r ∈ t.paths, r.2 ≠ [] := by
    intro r hr h
    have e := path_eq_nil hr h
    rw [e, List.mem_singleton] at hp hq
    exact hne (by rw [hp, hq])
  rw [leafCode, if_neg (alone p hp), leafCode, if_neg (alone q hq)]
  exact paths_not_prefix hn hp hq hne

theorem leafCode_ne_nil (p : Bits) : leafCode p ≠ [] := by
  unfold leafCode; split
  · simp
  · assumption

/-- The leaves written give each symbol of the list its code and leave the others alone (42_code_assigner.md R110). -/
theorem code_writeLeaves {l : List (Byte × Bits)} (s : State) (hn : (l.map Prod.fst).Nodup)
    (hlen : ∀ p ∈ l, (leafCode p.2).length ≤ Config.LMAX) :
    (∀ p ∈ l, (writeLeaves s l).code p.1 = leafCode p.2 ∧
      ((writeLeaves s l).clenAt p.1).toNat = (leafCode p.2).length) ∧
    ∀ y, y ∉ l.map Prod.fst →
      (writeLeaves s l).clenAt y = s.clenAt y ∧ (writeLeaves s l).cbitsAt y = s.cbitsAt y := by
  induction l generalizing s with
  | nil => exact ⟨fun _ h => (nomatch h), fun _ _ => ⟨rfl, rfl⟩⟩
  | cons p l ih =>
    rw [List.map_cons, List.nodup_cons] at hn
    obtain ⟨h1, h2⟩ := ih (s.writeCode p.1 (leafCode p.2)) hn.2 fun q hq => hlen q (List.mem_cons_of_mem _ hq)
    have hp := hlen p List.mem_cons_self
    refine ⟨fun q hq => ?_, fun y hy => ?_⟩
    · rcases List.mem_cons.1 hq with rfl | hq
      · have hk := h2 q.1 hn.1
        have e : (writeLeaves s (q :: l)).clenAt q.1 = BitVec.ofNat 8 (leafCode q.2).length :=
          hk.1.trans (clenAt_writeCode_same _ _ _)
        refine ⟨?_, ?_⟩
        · rw [← code_writeCode_same s q.1 hp]
          show (List.range ((writeLeaves s (q :: l)).clenAt q.1).toNat).map
            (fun k => ((writeLeaves s (q :: l)).cbitsAt q.1).getLsbD k) = _
          rw [State.code, show (writeLeaves s (q :: l)).clenAt q.1 = _ from hk.1,
            show (writeLeaves s (q :: l)).cbitsAt q.1 = _ from hk.2]
        · rw [e, BitVec.toNat_ofNat]
          simp only [Config.LMAX] at hp; omega
      · exact h1 q hq
    · rw [List.map_cons, List.mem_cons, not_or] at hy
      have hk := h2 y hy.2
      exact ⟨hk.1.trans (clenAt_writeCode_ne _ _ hy.1), hk.2.trans (cbitsAt_writeCode_ne _ _ hy.1)⟩

/-- Positions above a code that were 0 stay 0. -/
theorem high_bits_writeLeaves {l : List (Byte × Bits)} (s : State)
    (hlen : ∀ p ∈ l, (leafCode p.2).length ≤ Config.LMAX)
    (h0 : ∀ y, s.clenAt y = 0#8 ∧ s.cbitsAt y = 0#255 ∨
      ∀ k, (s.clenAt y).toNat ≤ k → (s.cbitsAt y).getLsbD k = false)
    (hn : (l.map Prod.fst).Nodup) (hf : ∀ p ∈ l, s.cbitsAt p.1 = 0#255) :
    ∀ y k, ((writeLeaves s l).clenAt y).toNat ≤ k → ((writeLeaves s l).cbitsAt y).getLsbD k = false := by
  induction l generalizing s with
  | nil =>
    intro y k hk
    rcases h0 y with h | h
    · rw [show (writeLeaves s []).cbitsAt y = s.cbitsAt y from rfl, h.2]; simp
    · exact h k hk
  | cons p l ih =>
    rw [List.map_cons, List.nodup_cons] at hn
    have hp := hlen p List.mem_cons_self
    refine ih (s.writeCode p.1 (leafCode p.2)) (fun q hq => hlen q (List.mem_cons_of_mem _ hq)) (fun y => ?_) hn.2
      fun q hq => ?_
    · by_cases hy : y = p.1
      · refine .inr fun k hk => ?_
        subst hy
        rw [clenAt_writeCode_same, BitVec.toNat_ofNat, Nat.mod_eq_of_lt (by simp only [Config.LMAX] at hp; omega)] at hk
        rw [cbitsAt_writeCode_same, hf p List.mem_cons_self, BitVec.getLsbD_ofNat, testBit_overlay,
          dif_neg (by omega)]
        simp
      · rw [clenAt_writeCode_ne _ _ hy, cbitsAt_writeCode_ne _ _ hy]; exact h0 y
    · have hne : q.1 ≠ p.1 := fun e => hn.1 (e ▸ List.mem_map_of_mem hq)
      rw [cbitsAt_writeCode_ne _ _ hne]
      exact hf q (List.mem_cons_of_mem _ hq)

/-- A walk over a tree that has a leaf too deep stops there (log 13). -/
theorem walk_codeTooLong {nodes : List (Nat × Node)} {n : Option Nat} {t : PrefixTree} (hr : Roots nodes n t) (fuel : Nat)
    (s : State) (hs : s.node = nodes) (pre : Bits) (rest : List (Nat × Bits)) (hf : t.size ≤ fuel)
    (hlen : ∃ p ∈ t.paths, Config.LMAX < (leafCode (pre ++ p.2)).length) :
    walk fuel { s with walkStack := childEntry n pre ++ rest } = .error .codeTooLong := by
  induction hr generalizing fuel s pre rest with
  | absent => obtain ⟨p, hp, _⟩ := hlen; cases hp
  | @leaf n y f hc =>
    subst hs
    obtain ⟨p, hp, hlen⟩ := hlen
    simp only [PrefixTree.paths, List.mem_singleton] at hp; subst hp
    obtain ⟨fuel, rfl⟩ : ∃ k, fuel = k + 1 := ⟨fuel - 1, by simp only [PrefixTree.size] at hf; omega⟩
    rw [walk]
    simp only [List.append_nil] at hlen
    simp only [childEntry, List.cons_append, List.nil_append, hc, if_pos hlen]
  | @node n f l r a b hc ha _ iha ihb =>
    subst hs
    simp only [PrefixTree.size] at hf
    obtain ⟨fuel, rfl⟩ : ∃ k, fuel = k + 1 := ⟨fuel - 1, by omega⟩
    rw [walk]
    simp only [childEntry_some, List.cons_append, List.nil_append, hc]
    rw [List.append_assoc]
    by_cases h1 : ∃ p ∈ a.paths, Config.LMAX < (leafCode (pre ++ [false] ++ p.2)).length
    · exact iha fuel s rfl (pre ++ [false]) _ (by omega) h1
    · push Not at h1
      obtain ⟨k, rfl⟩ : ∃ k, fuel = a.size + k := ⟨fuel - a.size, by omega⟩
      rw [walk_tree ha k s rfl (pre ++ [false]) _ h1]
      refine ihb k _ (by simp) (pre ++ [true]) rest (by omega) ?_
      obtain ⟨p, hp, hl⟩ := hlen
      simp only [PrefixTree.paths, List.mem_append, List.mem_map] at hp
      rcases hp with ⟨q, hq, rfl⟩ | ⟨q, hq, rfl⟩
      · have := h1 q hq
        simp only [List.append_assoc, List.singleton_append] at this
        exact absurd hl (Nat.not_lt.2 this)
      · exact ⟨q, hq, by simpa using hl⟩
/-- A walk over a tree with more nodes than it may visit stops (log 13). -/
theorem walk_notATree {nodes : List (Nat × Node)} {n : Option Nat} {t : PrefixTree} (hr : Roots nodes n t) (fuel : Nat)
    (s : State) (hs : s.node = nodes) (pre : Bits) (rest : List (Nat × Bits)) (hf : fuel < t.size)
    (hlen : ∀ p ∈ t.paths, (leafCode (pre ++ p.2)).length ≤ Config.LMAX) :
    walk fuel { s with walkStack := childEntry n pre ++ rest } = .error .notATree := by
  induction hr generalizing fuel s pre rest with
  | absent => cases hf
  | @leaf n y f hc =>
    subst hs
    simp only [PrefixTree.size] at hf
    obtain rfl : fuel = 0 := by omega
    rw [walk]; simp [childEntry]
  | @node n f l r a b hc ha _ iha ihb =>
    subst hs
    simp only [PrefixTree.size] at hf
    cases fuel with
    | zero => rw [walk]; simp [childEntry]
    | succ fuel =>
    rw [walk]
    simp only [childEntry_some, List.cons_append, List.nil_append, hc]
    rw [List.append_assoc]
    have h1 : ∀ p ∈ a.paths, (leafCode (pre ++ [false] ++ p.2)).length ≤ Config.LMAX := fun p hp => by
      have := hlen (p.1, false :: p.2) (by simp [PrefixTree.paths, hp]); simpa using this
    have h2 : ∀ p ∈ b.paths, (leafCode (pre ++ [true] ++ p.2)).length ≤ Config.LMAX := fun p hp => by
      have := hlen (p.1, true :: p.2) (by simp [PrefixTree.paths, hp]); simpa using this
    by_cases hk : fuel < a.size
    · exact iha fuel s rfl _ _ hk h1
    · obtain ⟨k, rfl⟩ : ∃ k, fuel = a.size + k := ⟨fuel - a.size, by omega⟩
      rw [walk_tree ha k s rfl (pre ++ [false]) _ h1]
      exact ihb k _ (by simp) (pre ++ [true]) rest (by omega) h2

/-- CA.ASSIGN's walk over a tree that fits writes the codes of its leaves (42_code_assigner.md R110). -/
theorem walk_root (s : State) (tree : PrefixTree) (hr : Roots s.node (some s.root) tree) (hsz : tree.size ≤ 512)
    (hlen : ∀ p ∈ tree.paths, (leafCode p.2).length ≤ Config.LMAX) :
    walk Config.NODES { s.clearMap with walkStack := [(s.root, [])] } = .ok { writeLeaves s.clearMap tree.paths with walkStack := [] } := by
  have := walk_tree hr (Config.NODES - tree.size) s.clearMap rfl [] [] (by simpa using hlen)
  rw [Nat.add_sub_cancel' hsz] at this
  simp only [childEntry_some, List.append_nil, List.nil_append, Prod.mk.eta, List.map_id'] at this
  rw [this]
  unfold walk; split
  · rfl
  · next h => cases h

end Sys2Proof.Machine
end

