-- ==== Sys2Proof/Laws/Forest.lean ====
section
/-! SUPPORT. The alphabet and the counts of a text, and the forest the tree builder's queue holds. -/

namespace Sys2Proof.Machine

open Sys2Proof.Safety

/-! Counts. -/

theorem symbols_nodup : symbols.Nodup := by
  unfold symbols
  refine List.Nodup.map_on ?_ List.nodup_range
  intro a ha b hb e
  have h := congrArg BitVec.toNat e
  have ha := List.mem_range.1 ha
  have hb := List.mem_range.1 hb
  simp only [Config.ALPHA] at ha hb
  simp only [BitVec.toNat_ofNat] at h
  omega

theorem symbols_length : symbols.length = 256 := by simp [symbols]

theorem sum_count_cons (ss : List Byte) (x : Byte) (xs : List Byte) :
    (ss.map fun y => (x :: xs).count y).sum = (ss.map fun y => xs.count y).sum + ss.count x := by
  induction ss with
  | nil => rfl
  | cons z zs ih =>
    simp only [List.map_cons, List.sum_cons, ih]
    by_cases h : x = z
    · subst h; rw [List.count_cons_self, List.count_cons_self]; omega
    · rw [List.count_cons_of_ne h, List.count_cons_of_ne (Ne.symm h)]; omega

theorem sum_count (l : List Byte) : (symbols.map fun y => l.count y).sum = l.length := by
  induction l with
  | nil => simp
  | cons x xs ih => rw [sum_count_cons, ih, List.count_eq_one_of_mem symbols_nodup (mem_symbols x)]; rfl

theorem sum_filter_ne_zero (f : Byte → Nat) (l : List Byte) :
    ((l.filter fun y => f y != 0).map f).sum = (l.map f).sum := by
  induction l with
  | nil => rfl
  | cons x l ih =>
    by_cases h : f x = 0
    · simp [h, ih]
    · simp [h, ih]

/-- The counts of a text sum to its length (40_frequency_table.md R91). -/
theorem sum_alphabet (s : State) : ((alphabet s).map (occurrences s)).sum = s.textLen.toNat := by
  rw [alphabet, sum_filter_ne_zero, ← length_textSymbols s, ← sum_count]; rfl

theorem alphabet_nodup (s : State) : (alphabet s).Nodup := symbols_nodup.filter _

theorem alphabet_length_le (s : State) : (alphabet s).length ≤ 256 := by
  rw [← symbols_length]; exact List.length_filter_le _ _

theorem mem_alphabet {s : State} {y : Byte} : y ∈ alphabet s ↔ y ∈ s.textSymbols := by
  simp [alphabet, occurrences, List.count_eq_zero]

/-- What is said of a text depends on `TEXT` and `TEXT_LEN` only. -/
theorem textSymbols_congr {s u : State} (h1 : u.text = s.text) (h2 : u.textLen = s.textLen) :
    u.textSymbols = s.textSymbols := by
  unfold State.textSymbols
  rw [h2, show u.textAt = s.textAt from by funext i; unfold State.textAt; rw [h1]]

theorem occurrences_congr {s u : State} (h : u.textSymbols = s.textSymbols) : occurrences u = occurrences s := by
  funext y; unfold occurrences; rw [h]

theorem alphabet_congr {s u : State} (h : u.textSymbols = s.textSymbols) : alphabet u = alphabet s := by
  unfold alphabet; rw [occurrences_congr h]

/-! Trees in an arena. -/

/-- The frequency of a weighted tree is the sum over its symbols (10_state.md R36). -/
theorem weighted_freq {table : Byte → Nat} {t : PrefixTree} (h : t.weighted table) :
    t.freq = (t.syms.map table).sum := by
  induction t with
  | none => rfl
  | leaf y f =>
    have : f = table y := h
    simp [PrefixTree.freq, PrefixTree.syms, PrefixTree.paths, this]
  | node f l r ihl ihr =>
    rw [syms_node, List.map_append, List.sum_append, ← ihl h.2.1, ← ihr h.2.2]; exact h.1

/-- A record written past the allocated ones leaves every tree of the arena. -/
theorem roots_putCell {nodes : List (Nat × Node)} {k : Nat} {r : Node}
    (hk : ∀ n, (cellAt nodes n).isSome = true → n < k) {n : Option Nat} {t : PrefixTree} (h : Roots nodes n t) :
    Roots (putCell nodes k r) n t := by
  have key : ∀ {n c}, cellAt nodes n = some c → cellAt (putCell nodes k r) n = some c := by
    intro n c h
    rw [cellAt_putCell_ne _ _ (Nat.ne_of_lt (hk n (by rw [h]; rfl))), h]
  induction h with
  | absent => exact .absent
  | leaf h => exact .leaf (key h)
  | node h _ _ iha ihb => exact .node (key h) iha ihb

theorem nodeFreq_roots {nodes : List (Nat × Node)} {n : Nat} {t : PrefixTree} (h : Roots nodes (some n) t) :
    nodeFreq nodes n = t.freq := by
  cases h with
  | leaf h => simp [nodeFreq, h, PrefixTree.freq, Node.freq]
  | node h => simp [nodeFreq, h, PrefixTree.freq, Node.freq]

theorem isSome_roots {nodes : List (Nat × Node)} {n : Nat} {t : PrefixTree} (h : Roots nodes (some n) t) :
    (cellAt nodes n).isSome = true := by
  cases h with
  | leaf h => rw [h]; rfl
  | node h => rw [h]; rfl

/-! Queues and forests. -/

theorem forall₂_mem {R : Nat → PrefixTree → Prop} {l : List Nat} {ts : List PrefixTree} (h : List.Forall₂ R l ts) :
    ∀ a ∈ l, ∃ t ∈ ts, R a t := by
  induction h with
  | nil => exact fun _ h => (nomatch h)
  | cons h _ ih =>
    intro a ha
    rcases List.mem_cons.1 ha with rfl | ha
    · exact ⟨_, List.mem_cons_self, h⟩
    · obtain ⟨t, ht, hr⟩ := ih a ha
      exact ⟨t, List.mem_cons_of_mem _ ht, hr⟩

/-- Taking one member out of a queue takes its tree out of the forest. -/
theorem forall₂_filter {R : Nat → PrefixTree → Prop} {l : List Nat} {ts : List PrefixTree} (h : List.Forall₂ R l ts)
    {a : Nat} (ha : a ∈ l) (hn : l.Nodup) :
    ∃ t ts', R a t ∧ List.Forall₂ R (l.filter fun x => x != a) ts' ∧ ts.Perm (t :: ts') := by
  induction h with
  | nil => cases ha
  | @cons x y l ts hxy h ih =>
    rw [List.nodup_cons] at hn
    by_cases e : a = x
    · subst e
      have : l.filter (fun x => x != a) = l := List.filter_eq_self.2 fun z hz => by
        rw [bne_iff_ne]; rintro rfl; exact hn.1 hz
      refine ⟨y, ts, hxy, ?_, List.Perm.refl _⟩
      simp [this, h]
    · obtain ⟨t, ts', h1, h2, h3⟩ := ih (by simpa [e] using ha) hn.2
      refine ⟨t, y :: ts', h1, ?_, (h3.cons y).trans (List.Perm.swap _ _ _)⟩
      rw [List.filter_cons_of_pos (by simpa using Ne.symm e)]
      exact .cons hxy h2

theorem insertMember_end {l : List Nat} {k : Nat} (h : ∀ m ∈ l, m < k) : insertMember l k = l ++ [k] := by
  induction l with
  | nil => rfl
  | cons m ms ih =>
    have hm := h m List.mem_cons_self
    simp [insertMember, show ¬ k < m by omega, show ¬ k = m by omega, ih fun x hx => h x (List.mem_cons_of_mem _ hx)]

theorem length_filter_ne {l : List Nat} (hd : l.Nodup) {n : Nat} (hn : n ∈ l) :
    (l.filter fun m => m != n).length + 1 = l.length := by
  have e : (l.filter fun m => m != n) = l.erase n := by rw [List.Nodup.erase_eq_filter hd n]
  have := List.length_pos_of_mem hn
  rw [e, List.length_erase_of_mem hn]
  omega

/-- The frequencies at the roots of the forest sum to the text's length (41_tree_builder.md R98). -/
theorem forest_freq {s : State} {ts : List PrefixTree} (hw : ∀ t ∈ ts, t.full ∧ t.weighted (occurrences s))
    (hp : (ts.flatMap PrefixTree.syms).Perm (alphabet s)) : (ts.map PrefixTree.freq).sum = s.textLen.toNat := by
  rw [← sum_alphabet, ← (hp.map _).sum_eq]
  clear hp
  induction ts with
  | nil => rfl
  | cons t ts ih =>
    simp only [List.map_cons, List.sum_cons, List.flatMap_cons, List.map_append, List.sum_append]
    rw [weighted_freq (hw t List.mem_cons_self).2, ih fun t ht => hw t (List.mem_cons_of_mem _ ht)]

end Sys2Proof.Machine
end

