-- ==== Sys2Proof/Laws/Frames.lean ====
section
/-! SUPPORT. What the looping micro-operations leave alone when they give a next state, and the phase they choose
(20_memory.md R62, 30_encoding.md R82). -/

namespace Sys2Proof.Machine

open Sys2Proof.Safety

theorem tbLoad_frame {s t : State} (h : exec .tbLoad s = .next t) :
    { t with node := s.node, pq := s.pq, nnext := s.nnext, nleaf := s.nleaf, phase := s.phase } = s ∧
      (t.phase = 5#5 ∨ t.phase = 4#5) := by
  have hf := (loadLeaves_spec s _ rfl).2.2.2
  simp only [exec, execTbLoad] at h
  generalize loadLeaves s = u at h hf
  have e := congrArg (fun v : State => { v with nleaf := s.nleaf, phase := s.phase }) hf
  split at h
  · cases h
  · split at h <;> cases h
    · exact ⟨e, .inl rfl⟩
    · exact ⟨e, .inr rfl⟩

theorem tbMerge_frame {s t : State} (h : exec .tbMerge s = .next t) :
    { t with node := s.node, pq := s.pq, nnext := s.nnext, phase := s.phase } = s ∧
      (t.phase = 4#5 ∨ t.phase = 6#5) := by
  simp only [exec, execTbMerge] at h
  split at h
  · cases h
  · next e1 =>
    split at h
    · cases h
    · next e2 =>
      obtain ⟨_, _, _, rfl⟩ := pqExtractMin_ok e1
      obtain ⟨_, _, _, rfl⟩ := pqExtractMin_ok e2
      split at h
      · cases h
      · cases h
        refine ⟨rfl, ?_⟩
        rw [State.goto_phase]
        split
        · exact .inl rfl
        · exact .inr rfl

theorem tbWrap_frame {s t : State} (h : exec .tbWrap s = .next t) :
    { t with node := s.node, pq := s.pq, nnext := s.nnext, root := s.root, phase := s.phase } = s ∧
      t.phase = 7#5 := by
  simp only [exec, execTbWrap] at h
  split at h
  · cases h
  · next e1 =>
    obtain ⟨_, _, _, rfl⟩ := pqExtractMin_ok e1
    split at h
    · cases h
    · cases h; exact ⟨rfl, rfl⟩

theorem tbFinish_frame {s t : State} (h : exec .tbFinish s = .next t) :
    { t with pq := s.pq, root := s.root, phase := s.phase } = s ∧ t.phase = 7#5 := by
  simp only [exec, execTbFinish] at h
  split at h
  · cases h
  · next e1 =>
    obtain ⟨_, _, _, rfl⟩ := pqExtractMin_ok e1
    cases h; exact ⟨rfl, rfl⟩

/-- CA.ASSIGN gives a next state exactly when its walk ends (42_code_assigner.md R110). -/
theorem caAssign_next {s t : State} (h : exec .caAssign s = .next t) :
    ∃ u, walk Config.NODES { s.clearMap with walkStack := [(s.root, [])] } = .ok u ∧ t = u.goto .bpConcat := by
  simp only [exec, execCaAssign] at h
  split at h
  · cases h
  · next u hu => cases h; exact ⟨u, hu, rfl⟩

theorem caAssign_frame {s t : State} (h : exec .caAssign s = .next t) :
    { t with clen := s.clen, cbits := s.cbits, walkStack := s.walkStack, phase := s.phase } = s ∧ t.phase = 8#5 := by
  obtain ⟨u, hu, rfl⟩ := caAssign_next h
  refine ⟨?_, rfl⟩
  have e := congrArg
    (fun v : State => { v with clen := s.clen, cbits := s.cbits, walkStack := s.walkStack, phase := s.phase })
    (walk_frame hu).2
  exact e

/-- SR.SCAN always ends its command (44_decompress.md R136). -/
theorem srScan_frame {s t : State} (h : exec .srScan s = .next t) :
    scanned s t = s ∧ ∃ e ∈ [ErrCode.none, .malformedPayload, .capacityExceeded], Ended e t := by
  simp only [exec, execSrScan] at h
  cases h
  have hs := scan_spec s.bits { s with buf := [], outpos := 0 }
  have e := congrArg (scanned s) hs.2
  exact ⟨e, hs.1⟩

end Sys2Proof.Machine
end

