-- ==== Sys2Proof/Laws/PerInstr.lean ====
section
/-! SUPPORT. Facts stated per operation: the format of each encoding. -/

namespace Sys2Proof.Laws.EncodingFormat

/-- An operation's encoding, where it has one, is of the format of its row (30_encoding.md R70, R74). -/
def Statement (i : Instr) : Prop := ∀ w, encode i = some w → w.format = i.format

theorem compress : Statement .compress := fun _ h => by cases h; rfl

theorem decompress : Statement .decompress := fun _ h => by cases h; rfl

theorem illegal (zero : BitVec 24) (op : BitVec 8) : Statement (.illegal zero op) := fun _ h => by cases h; rfl

theorem idle : Statement .idle := fun _ h => by cases h; rfl

theorem cStart : Statement .cStart := fun _ h => by cases h; rfl

theorem ftBuild : Statement .ftBuild := fun _ h => by cases h; rfl

theorem tbLoad : Statement .tbLoad := fun _ h => by cases h; rfl

theorem tbMerge : Statement .tbMerge := fun _ h => by cases h; rfl

theorem tbWrap : Statement .tbWrap := fun _ h => by cases h; rfl

theorem tbFinish : Statement .tbFinish := fun _ h => by cases h; rfl

theorem caAssign : Statement .caAssign := fun _ h => by cases h; rfl

theorem bpConcat : Statement .bpConcat := fun _ h => by cases h; rfl

theorem bpPad : Statement .bpPad := fun _ h => by cases h; rfl

theorem bpPack : Statement .bpPack := fun _ h => by cases h; rfl

theorem dStart : Statement .dStart := fun _ h => by cases h; rfl

theorem dMapcheck : Statement .dMapcheck := fun _ h => by cases h; rfl

theorem dInvert : Statement .dInvert := fun _ h => by cases h; rfl

theorem dMeta : Statement .dMeta := fun _ h => by cases h; rfl

theorem buUnpack : Statement .buUnpack := fun _ h => by cases h; rfl

theorem srScan : Statement .srScan := fun _ h => by cases h; rfl

theorem pqInsert (n : Nat) : Statement (.pqInsert n) := fun _ h => nomatch h

theorem pqExtractmin : Statement .pqExtractmin := fun _ h => nomatch h

end Sys2Proof.Laws.EncodingFormat
end

