-- ==== Sys2Proof/Laws/Step.lean ====
section
/-! SUPPORT. What a step can be, and runs of steps. -/

namespace Sys2Proof.Machine

open Sys2Proof.Safety

/-- The only thing the engine's turn can find: the operation of the code in `PHASE`. -/
theorem engineTurn_run {s u : State} {i : Instr} (h : engineTurn s = .run i u) :
    u = s ∧ decode (.phase s.phase) = .ok i := by
  unfold engineTurn at h
  split at h
  · next hd => cases h; exact ⟨rfl, hd⟩
  · cases h

/-- An operation the fetch finds is the one of the code in `PHASE` or a written command word's, and the fetch has
changed nothing but the script and the value of a poll. -/
theorem fetch_run {s u : State} {i : Instr} (h : fetch s = .run i u) :
    { u with inputs := s.inputs, readData := s.readData } = s ∧
      (decode (.phase s.phase) = .ok i ∨ ∃ v rest, s.inputs = .writeReg 0 v :: rest ∧ i = decodeCommand v) := by
  unfold fetch at h
  split at h
  · obtain ⟨rfl, hd⟩ := engineTurn_run h
    exact ⟨rfl, .inl hd⟩
  · next e rest hin =>
    unfold hostTurn at h
    split at h
    · split at h
      · next h0 => cases h; subst h0; exact ⟨rfl, .inr ⟨_, _, hin, rfl⟩⟩
      · cases h
    all_goals try cases h
    · obtain ⟨rfl, hd⟩ := engineTurn_run h
      exact ⟨rfl, .inl hd⟩
    · split at h
      · cases h
      · obtain ⟨rfl, hd⟩ := engineTurn_run h
        exact ⟨rfl, .inl hd⟩

/-- A step to a next state runs an operation or is a whole host action. -/
theorem step_next {s t : State} (h : step s = .next t) :
    (∃ i u, fetch s = .run i u ∧ exec i u = .next t) ∨ fetch s = .host t := by
  unfold step at h
  split at h
  · next i u hf => exact .inl ⟨i, u, hf, h⟩
  · next u hf => cases h; exact .inr hf
  · cases h

/-- With no host action pending a step is the engine's turn. -/
theorem step_engine {s : State} {i : Instr} (hin : s.inputs = []) (hd : decode (.phase s.phase) = .ok i) :
    step s = exec i s := by
  have hf : fetch s = .run i s := by
    unfold fetch; rw [hin]; simp [engineTurn, hd]
  unfold step; rw [hf]

/-- A pending write to `CMD` runs the command its word decodes to. -/
theorem step_command {s : State} {v : Reg} {rest : List HostEvent} (hin : s.inputs = .writeReg 0 v :: rest) :
    step s = exec (decodeCommand v) { s with inputs := rest } := by
  have hf : fetch s = .run (decodeCommand v) { s with inputs := rest } := by
    unfold fetch; rw [hin]; simp [hostTurn]
  unfold step; rw [hf]

theorem runSteps_succ {s t : State} (h : step s = .next t) (k : Nat) : runSteps (k + 1) s = runSteps k t := by
  rw [runSteps, h]

/-- Runs compose. -/
theorem runSteps_add {s t : State} {j : Nat} (h : runSteps j s = .next t) (k : Nat) :
    runSteps (j + k) s = runSteps k t := by
  induction j generalizing s with
  | zero => cases h; rw [Nat.zero_add]
  | succ j ih =>
    rw [runSteps] at h
    rw [Nat.add_right_comm, runSteps]
    split at h
    · next u hs => exact ih h
    · cases h
    · cases h

/-- The runs of the host's interface are these runs. -/
theorem core_run (k : Nat) (s : State) : Host.Core.run Sys2Proof.core k s = runSteps k s := by
  induction k generalizing s with
  | zero => rfl
  | succ k ih =>
    have h := Host.Core.run.eq_2 Sys2Proof.core s k
    rw [show Sys2Proof.core.step s = step s from rfl] at h
    refine h.trans ?_
    rw [runSteps]
    cases step s with
    | next t => exact ih t
    | fault r => rfl
    | refused r => rfl

end Sys2Proof.Machine
end

