-- ==== Sys2Proof/Tests/Slice0.lean ====
section
/-! SUPPORT. Tests of the definitions and witnesses of the statements' hypotheses. A vector V<n> is the one of
95_test_vectors.md. -/

namespace Sys2Proof.Tests

open Sys2Proof.Machine Sys2Proof.Safety

/-! ## Small states -/

/-- The numeral n as w bits, the first bit written first. -/
def bin (w n : Nat) : Bits := (List.range w).map fun k => n.testBit (w - 1 - k)

/-- A memory that holds a list of elements from index 0 on. -/
def memory {w : Nat} (l : List (BitVec w)) : Memory w := ⟨l.zipIdx.map fun p => (p.2, p.1), false, 0⟩

/-- The state after reset with a text. -/
def withText (l : List Byte) : State :=
  { State.reset with text := memory l, textLen := BitVec.ofNat 32 l.length }

/-- A state with a code map. -/
def withMap (s : State) (l : List (Byte × Bits)) : State := l.foldl (fun s p => s.writeCode p.1 p.2) s.clearMap

/-- The state after reset with a payload: bytes, map, `PADBITS`, `BITCOUNT`. -/
def withPayload (l : List Byte) (map : List (Byte × Bits)) (pad count : Nat) : State :=
  withMap
    { State.reset with
      packed := memory l, packedLen := BitVec.ofNat 32 l.length
      padBits := BitVec.ofNat 32 pad, bitCount := BitVec.ofNat 32 count } map

/-- The state after reset with an arena, a queue and `NNEXT`. -/
def withArena (nodes : List (Nat × Node)) (queue : List Nat) (next : Nat) : State :=
  { State.reset with node := nodes, pq := queue, nnext := next }

/-- The next state, if there is one. -/
def nextState : Host.Outcome State Fault Refusal → Option State
  | .next t => some t
  | .fault _ => none
  | .refused _ => none

/-- What an operation leaves, seen through f. -/
def after {α : Type} (i : Instr) (s : State) (f : State → α) : Option α := (nextState (exec i s)).map f

theorem exists_next {o : Host.Outcome State Fault Refusal} {p : State → Bool}
    (h : ((nextState o).map p) = some true) : ∃ t, o = .next t ∧ p t = true := by
  cases o with
  | next t => exact ⟨t, rfl, by simpa [nextState] using h⟩
  | fault r => simp [nextState] at h
  | refused r => simp [nextState] at h

/-- "abracadabra" (V3). -/
def abra : List Byte :=
  [0x61#8, 0x62#8, 0x72#8, 0x61#8, 0x63#8, 0x61#8, 0x64#8, 0x61#8, 0x62#8, 0x72#8, 0x61#8]

/-- The code map of V3. -/
def abraMap : List (Byte × Bits) :=
  [(0x61#8, bin 1 0b0), (0x62#8, bin 3 0b110), (0x63#8, bin 3 0b100), (0x64#8, bin 3 0b101), (0x72#8, bin 3 0b111)]

/-- The leaves of V3. -/
def abraLeaves : List (Nat × Node) :=
  [(0, .leaf 0x61#8 5#16), (1, .leaf 0x62#8 2#16), (2, .leaf 0x63#8 1#16), (3, .leaf 0x64#8 1#16),
   (4, .leaf 0x72#8 2#16)]

/-- The four merged nodes of V3. -/
def abraMerged : List (Nat × Node) :=
  [(5, .internal 2#16 (some 2) (some 3)), (6, .internal 4#16 (some 1) (some 4)),
   (7, .internal 6#16 (some 5) (some 6)), (8, .internal 11#16 (some 0) (some 7))]

/-! ## Well-formedness -/

theorem test_wf_refuses_compress_word : (Instr.illegal 0x000000#24 0x01#8).wellFormed = false := by decide
theorem test_wf_refuses_decompress_word : (Instr.illegal 0x000000#24 0x02#8).wellFormed = false := by decide
theorem test_wf_admits_high_bits : (Instr.illegal 0x000001#24 0x01#8).wellFormed = true := by decide
theorem test_wf_refuses_index_past_arena : (Instr.pqInsert 512).wellFormed = false := by decide
theorem test_wf_admits_last_index : (Instr.pqInsert 511).wellFormed = true := by decide

/-! ## Decoding: the words of 30_encoding.md R71 to R74, bit by bit -/

theorem test_decode_compress :
    decode (.command 0b00000000000000000000000000000001#32) = .ok .compress := by decide
theorem test_decode_decompress :
    decode (.command 0b00000000000000000000000000000010#32) = .ok .decompress := by decide
theorem test_decode_illegal :
    decode (.command 0b11111111000000000000000000000001#32) = .ok (.illegal 0xff0000#24 0x01#8) := by decide
theorem test_decode_idle : decode (.phase 0b00000#5) = .ok .idle := by decide
theorem test_decode_c_start : decode (.phase 0b00001#5) = .ok .cStart := by decide
theorem test_decode_ft_build : decode (.phase 0b00010#5) = .ok .ftBuild := by decide
theorem test_decode_tb_load : decode (.phase 0b00011#5) = .ok .tbLoad := by decide
theorem test_decode_tb_merge : decode (.phase 0b00100#5) = .ok .tbMerge := by decide
theorem test_decode_tb_wrap : decode (.phase 0b00101#5) = .ok .tbWrap := by decide
theorem test_decode_tb_finish : decode (.phase 0b00110#5) = .ok .tbFinish := by decide
theorem test_decode_ca_assign : decode (.phase 0b00111#5) = .ok .caAssign := by decide
theorem test_decode_bp_concat : decode (.phase 0b01000#5) = .ok .bpConcat := by decide
theorem test_decode_bp_pad : decode (.phase 0b01001#5) = .ok .bpPad := by decide
theorem test_decode_bp_pack : decode (.phase 0b01010#5) = .ok .bpPack := by decide
theorem test_decode_d_start : decode (.phase 0b01011#5) = .ok .dStart := by decide
theorem test_decode_d_mapcheck : decode (.phase 0b01100#5) = .ok .dMapcheck := by decide
theorem test_decode_d_invert : decode (.phase 0b01101#5) = .ok .dInvert := by decide
theorem test_decode_d_meta : decode (.phase 0b01110#5) = .ok .dMeta := by decide
theorem test_decode_bu_unpack : decode (.phase 0b01111#5) = .ok .buUnpack := by decide
theorem test_decode_sr_scan : decode (.phase 0b10000#5) = .ok .srScan := by decide
theorem test_decode_unused_phase : decode (.phase 0b10001#5) = .error (.phaseNeverOccurs 17#5) := by decide
theorem test_encode_primitives : encode (.pqInsert 0) = none ∧ encode .pqExtractmin = none := by decide
theorem test_table_words :
    decodeTableWord 32 2 = some .decompress ∧ decodeTableWord 5 16 = some .srScan ∧
    decodeTableWord 8 16 = some .srScan ∧ decodeTableWord 8 17 = none ∧ decodeTableWord 16 1 = none := by decide

/-! ## One operation each -/

/-- V34, 10_state.md R22. -/
theorem test_compress :
    after .compress { State.reset with err := .illegalCommand, errf := true, done := true }
      (fun t => (t.statusWord, t.errWord, t.phaseWord)) = some (0x1#32, 0#32, 1#32) := by decide
/-- V34: a command while busy is ignored. -/
theorem test_decompress_busy :
    after .decompress { State.reset with busy := true, phase := 4#5 } (fun t => (t.statusWord, t.phase)) =
      some (0x1#32, 4#5) := by decide
theorem test_decompress :
    after .decompress State.reset (fun t => (t.statusWord, t.phase)) = some (0x1#32, 11#5) := by decide
/-- V29. -/
theorem test_illegal :
    after (.illegal 0x000001#24 0x01#8) State.reset (fun t => (t.statusWord, t.errWord, t.phaseWord)) =
      some (0x6#32, 3#32, 0#32) := by decide
theorem test_idle : exec .idle State.reset = .next State.reset := rfl
/-- V30 (a). -/
theorem test_c_start_too_long :
    after .cStart { withText [] with textLen := 65536#32, packedLen := 9#32 }
      (fun t => (t.statusWord, t.errWord, t.packedLen, t.textLen)) = some (0x6#32, 4#32, 0#32, 65536#32) := by decide
/-- V1. -/
theorem test_c_start_empty :
    after .cStart { withText [] with bitCount := 9#32 } (fun t => (t.statusWord, t.errWord, t.bitCount)) =
      some (0x2#32, 0#32, 0#32) := by decide
/-- V32. -/
theorem test_ft_build :
    after .ftBuild (withText abra)
      (fun t => [0x61#8, 0x62#8, 0x63#8, 0x64#8, 0x72#8, 0x65#8].map t.freqAt) =
      some [5#16, 2#16, 1#16, 1#16, 2#16, 0#16] := by decide +kernel
/-- V3, from the table in a memory written out of order of frequency. -/
theorem test_tb_load :
    after .tbLoad
      { State.reset with freq := ⟨[(0x61, 5#16), (0x62, 2#16), (0x63, 1#16), (0x64, 1#16), (0x72, 2#16)], true, 0⟩ }
      (fun t => (t.node, t.pq, t.nleaf, t.nnext, t.phase)) =
      some (abraLeaves, [0, 1, 2, 3, 4], 5, 5, 4#5) := by decide +kernel
/-- V2. -/
theorem test_tb_load_single :
    after .tbLoad { State.reset with freq := ⟨[(0x61, 4#16)], true, 0⟩ } (fun t => (t.node, t.phase)) =
      some ([(0, .leaf 0x61#8 4#16)], 5#5) := by decide +kernel
/-- V3, merge 1. -/
theorem test_tb_merge :
    after .tbMerge (withArena abraLeaves [0, 1, 2, 3, 4] 5) (fun t => (cellAt t.node 5, t.pq, t.nnext, t.phase)) =
      some (some (.internal 2#16 (some 2) (some 3)), [0, 1, 4, 5], 6, 4#5) := by decide
/-- V9: the node of the lower frequency is the left child, and the last merge finishes. -/
theorem test_tb_merge_last :
    after .tbMerge (withArena [(0, .leaf 0x61#8 2#16), (1, .leaf 0x62#8 1#16)] [0, 1] 2)
      (fun t => (cellAt t.node 2, t.pq, t.phase)) =
      some (some (.internal 3#16 (some 1) (some 0)), [2], 6#5) := by decide
/-- V2. -/
theorem test_tb_wrap :
    after .tbWrap (withArena [(0, .leaf 0x61#8 4#16)] [0] 1) (fun t => (cellAt t.node 1, t.root, t.pq, t.phase)) =
      some (some (.internal 4#16 (some 0) none), 1, [], 7#5) := by decide
/-- V3. -/
theorem test_tb_finish :
    after .tbFinish (withArena (abraLeaves ++ abraMerged) [8] 9) (fun t => (t.root, t.pq, t.phase)) =
      some (8, [], 7#5) := by decide
/-- V3. -/
theorem test_ca_assign :
    after .caAssign { withArena (abraLeaves ++ abraMerged) [] 9 with root := 8 }
      (fun t => (abraMap.map fun p => (p.1, t.code p.1), t.clenAt 0x65#8, t.phase)) =
      some (abraMap, 0#8, 8#5) := by decide +kernel
/-- V2: the synthetic root has one leaf, whose code is "0". -/
theorem test_ca_assign_single :
    after .caAssign
      { withArena [(0, .leaf 0x61#8 4#16), (1, .internal 4#16 (some 0) none)] [] 2 with root := 1 }
      (fun t => (t.code 0x61#8, t.clenAt 0x62#8)) = some ([false], 0#8) := by decide +kernel
/-- V3. -/
theorem test_bp_concat :
    after .bpConcat (withMap (withText abra) abraMap) (fun t => (t.bits, t.bitCount, t.phase)) =
      some (bin 23 0b01101110100010101101110, 23#32, 9#5) := by decide +kernel
/-- V3: residue 7 gives padding 1. -/
theorem test_bp_pad :
    after .bpPad { State.reset with bits := bin 23 0b01101110100010101101110, bitCount := 23#32 }
      (fun t => (t.padBits, t.bits, t.phase)) =
      some (1#32, bin 24 0b011011101000101011011100, 10#5) := by decide +kernel
/-- V3. -/
theorem test_bp_pack :
    after .bpPack { State.reset with bits := bin 24 0b011011101000101011011100 }
      (fun t => (t.packedLen, t.packedAt 0, t.packedAt 1, t.packedAt 2, t.statusWord)) =
      some (3#32, 0x6E#8, 0x8A#8, 0xDC#8, 0x2#32) := by decide +kernel
/-- V24: an empty payload with inconsistent metadata. -/
theorem test_d_start_malformed :
    after .dStart (withPayload [] [] 3 0) (fun t => (t.statusWord, t.errWord, t.textLen)) =
      some (0x6#32, 1#32, 0#32) := by decide +kernel
/-- V30 (b). -/
theorem test_d_start_too_long :
    after .dStart { withPayload [] [] 0 0 with packedLen := 65536#32 } (fun t => (t.statusWord, t.errWord)) =
      some (0x6#32, 4#32) := by decide +kernel
/-- V21: "0" is a prefix of "01". -/
theorem test_d_mapcheck_prefix :
    after .dMapcheck (withPayload [0x6E#8, 0x8A#8, 0xDC#8] [(0x61#8, [false]), (0x62#8, [false, true])] 1 23)
      (fun t => (t.statusWord, t.errWord)) = some (0x6#32, 2#32) := by decide +kernel
/-- V17. -/
theorem test_d_mapcheck_good :
    after .dMapcheck (withPayload [0x6E#8, 0x8A#8, 0xDC#8] abraMap 1 23) (fun t => t.phase) = some 13#5 := by
  decide +kernel
/-- V3's map reversed. -/
theorem test_d_invert :
    after .dInvert (withPayload [0x6E#8] abraMap 1 23)
      (fun t => (revLookup t.rev (bin 3 0b101), revLookup t.rev (bin 2 0b10), t.phase)) =
      some (some 0x64#8, none, 14#5) := by decide +kernel
/-- V24: `PADBITS` above 7 although the lengths agree. -/
theorem test_d_meta_padding :
    after .dMeta { State.reset with packedLen := 3#32, padBits := 8#32, bitCount := 16#32 }
      (fun t => (t.statusWord, t.errWord)) = some (0x6#32, 1#32) := by decide
/-- V17. -/
theorem test_d_meta_good :
    after .dMeta { State.reset with packedLen := 3#32, padBits := 1#32, bitCount := 23#32 } (fun t => t.phase) =
      some 15#5 := by decide
/-- V32: the bits of 0x98. -/
theorem test_bu_unpack :
    after .buUnpack { State.reset with packed := memory [0x98#8], bitCount := 8#32 } (fun t => (t.bits, t.phase)) =
      some ([true, false, false, true, true, false, false, false], 16#5) := by decide +kernel
/-- V17. -/
theorem test_sr_scan :
    after .srScan
      { State.reset with
        bits := bin 23 0b01101110100010101101110, rev := abraMap.map fun p => (p.2, p.1) }
      (fun t => (t.textLen, t.textSymbols, t.statusWord)) = some (11#32, abra, 0x2#32) := by decide +kernel
/-- V19: a code cut short. -/
theorem test_sr_scan_leftover :
    after .srScan
      { State.reset with bits := bin 14 0b01101110100010, rev := abraMap.map fun p => (p.2, p.1) }
      (fun t => (t.textLen, t.statusWord, t.errWord)) = some (0#32, 0x6#32, 1#32) := by decide +kernel
theorem test_pq_insert :
    after (.pqInsert 2) (withArena [] [1, 3] 0) (fun t => t.pq) = some [1, 2, 3] := by decide
/-- V32. -/
theorem test_pq_extractmin :
    after .pqExtractmin (withArena abraLeaves [0, 1, 2, 3, 4] 5) (fun t => (t.pqOut, t.pq)) =
      some (some 2, [0, 1, 3, 4]) := by decide
/-- V32: the frequency decides before the index. -/
theorem test_pq_extractmin_frequency :
    after .pqExtractmin
      (withArena [(0, .leaf 0x69#8 4#16), (3, .leaf 0x73#8 4#16), (4, .internal 3#16 (some 1) (some 2))] [0, 3, 4] 5)
      (fun t => t.pqOut) = some (some 4) := by decide

/-! ## The host -/

/-- V34: a write while busy is ignored. -/
theorem test_host_write_busy :
    (nextState (step { State.reset with
      busy := true, phase := 3#5, textLen := 11#32, inputs := [.writeReg 4 0#32] })).map (fun t => t.textLen) =
      some 11#32 := by decide
/-- V34: `STATUS` while busy. -/
theorem test_host_read_busy :
    (nextState (step { State.reset with busy := true, phase := 3#5, inputs := [.read .reg 1] })).map
      (fun t => t.readData) = some (some (.word 0x1#32)) := by decide
/-- V33. -/
theorem test_host_read_after_reset :
    (nextState (step { State.reset with textLen := 7#32, inputs := [.reset] })).map
      (fun t => (t.statusWord, t.errWord, t.phaseWord, t.textLen)) = some (0#32, 0#32, 0#32, 0#32) := by decide

/-! ## Witnesses: for each statement with hypotheses, what meets them, each clause at a boundary -/

/-- The state after reset with the host's actions. -/
def withInputs (l : List HostEvent) : State := { State.reset with inputs := l }

theorem wit_DecodeInvertsEncode :
    (Instr.illegal 0xFFFFFF#24 0xFF#8).wellFormed = true ∧
    encode (.illegal 0xFFFFFF#24 0xFF#8) = some (.command 0xFFFFFFFF#32) ∧
    decode (.command 0xFFFFFFFF#32) = .ok (.illegal 0xFFFFFF#24 0xFF#8) ∧ Instr.pqExtractmin.format = .primitive := by
  decide

theorem wit_StepExecutesTheFetchedOperation :
    ((withInputs []).inputs = [] ∧ decode (.phase (withInputs []).phase) = .ok .idle) ∧
    (∃ s : State, s.inputs = [.engine] ∧ decode (.phase s.phase) = .ok .srScan) ∧
    (∃ s : State, s.inputs = [.wait] ∧ s.done = false ∧ decode (.phase s.phase) = .ok .cStart) ∧
    (∃ s : State, s.inputs = [.writeReg 0 0x00000101#32] ∧
      decode (.command 0x00000101#32) = .ok (.illegal 0x000001#24 0x01#8)) :=
  ⟨by decide, ⟨{ withInputs [.engine] with phase := 16#5 }, by decide⟩,
    ⟨{ withInputs [.wait] with busy := true, phase := 1#5 }, by decide⟩,
    ⟨withInputs [.writeReg 0 0x00000101#32], by decide⟩⟩

theorem wit_PlacedTableWordRuns :
    decodeTableWord 32 0xFFFFFFFF = some (.illegal 0xFFFFFF#24 0xFF#8) ∧ decodeTableWord 5 16 = some .srScan ∧
    decodeTableWord 8 0 = some .idle := by decide

theorem wit_UnusedPhaseCodesRefused :
    (∃ s : State, s.inputs = [] ∧ s.phase.toNat = 17 ∧ 17 ≤ s.phase.toNat) ∧
    (∃ s : State, s.inputs = [] ∧ s.phase.toNat = 31 ∧ 17 ≤ s.phase.toNat) :=
  ⟨⟨{ State.reset with phase := 17#5 }, by decide⟩, ⟨{ State.reset with phase := 31#5 }, by decide⟩⟩

theorem wit_ResetEventFromAnyState : ∃ s : State, s.inputs = [.reset] ∧ s.busy = true :=
  ⟨{ withInputs [.reset] with busy := true, phase := 4#5 }, by decide⟩

theorem wit_CmdWriteStartsOrRejects :
    (∃ s : State, s.inputs = [.writeReg 0 1#32] ∧ s.busy = true) ∧
    (∃ s : State, s.inputs = [.writeReg 0 0x00000001#32] ∧ s.busy = false) ∧
    (∃ s : State, s.inputs = [.writeReg 0 0x00000002#32] ∧ s.busy = false) ∧
    (∃ s : State, s.inputs = [.writeReg 0 0x00000003#32] ∧ s.busy = false ∧
      0x00000003#32 ≠ 0x00000001#32 ∧ 0x00000003#32 ≠ 0x00000002#32) :=
  ⟨⟨{ withInputs [.writeReg 0 1#32] with busy := true }, by decide⟩, ⟨withInputs [.writeReg 0 1#32], by decide⟩,
    ⟨withInputs [.writeReg 0 2#32], by decide⟩, ⟨withInputs [.writeReg 0 3#32], by decide⟩⟩

/-- For CommandsStartWhenIdle and IllegalWordRecordsOnlyTheError. -/
theorem wit_CommandsStartWhenIdle : (∃ s : State, s.busy = false) ∧ ∃ s : State, s.busy = true :=
  ⟨⟨State.reset, rfl⟩, ⟨{ State.reset with busy := true, phase := 1#5 }, rfl⟩⟩

theorem wit_CStartAdmits :
    (∃ s : State, s.textLen.toNat = 65536 ∧ 65535 < s.textLen.toNat) ∧ (∃ s : State, s.textLen = 0#32) ∧
    (∃ s : State, s.textLen ≠ 0#32 ∧ s.textLen.toNat = 65535 ∧ s.textLen.toNat ≤ 65535) :=
  ⟨⟨{ State.reset with textLen := 65536#32 }, by decide⟩, ⟨State.reset, rfl⟩,
    ⟨{ State.reset with textLen := 65535#32 }, by decide⟩⟩

/-- For FtBuildCountsOccurrences and BpConcatJoinsTheCodes. -/
theorem wit_FtBuildCountsOccurrences : ∃ s : State, s.textLen.toNat = 65535 ∧ s.textLen.toNat ≤ 65535 :=
  ⟨{ State.reset with textLen := 65535#32 }, by decide⟩

theorem wit_FrequencyTableInvariant :
    (∃ s t : State, exec .ftBuild s = .next t ∧ 1 ≤ t.textLen.toNat) ∧
    (∃ s t : State, exec .ftBuild s = .next t ∧ t.textLen.toNat = 0) := by
  constructor
  · obtain ⟨t, h, hp⟩ := exists_next (o := exec .ftBuild (withText abra))
      (p := fun t => decide (1 ≤ t.textLen.toNat)) (by decide +kernel)
    exact ⟨_, t, h, of_decide_eq_true hp⟩
  · obtain ⟨t, h, hp⟩ := exists_next (o := exec .ftBuild State.reset)
      (p := fun t => decide (t.textLen.toNat = 0)) (by decide +kernel)
    exact ⟨_, t, h, of_decide_eq_true hp⟩

theorem wit_TbLoadMakesOneLeafPerKey :
    (∃ s : State, symbols.filter (fun y => s.freqAt y != 0#16) = []) ∧
    (∃ s : State, symbols.filter (fun y => s.freqAt y != 0#16) = [0xFF#8]) ∧
    (∃ s : State, symbols.filter (fun y => s.freqAt y != 0#16) = [0x00#8, 0x80#8, 0xFF#8]) :=
  ⟨⟨{ State.reset with freq := ⟨[], true, 0⟩ }, by decide +kernel⟩,
    ⟨{ State.reset with freq := ⟨[(0xFF, 65535#16)], true, 0⟩ }, by decide +kernel⟩,
    ⟨{ State.reset with freq := ⟨[(0, 1#16), (0x80, 1#16), (0xFF, 2#16)], true, 0⟩ }, by decide +kernel⟩⟩

theorem wit_PqInsertAddsOneMember : ∃ s : State, s.pq = [0, 511] ∧ s.pq.Pairwise (· < ·) :=
  ⟨withArena [] [0, 511] 0, by decide⟩

theorem wit_PqExtractminTakesTheLeastKey : ∃ s : State, s.pq ≠ [] ∧ QueueAllocated s :=
  ⟨withArena abraLeaves [0, 1, 2, 3, 4] 5, by decide, by unfold QueueAllocated; decide⟩

/-- The last index of the arena is free and two nodes are queued. -/
theorem wit_TbMergeJoinsTheTwoLeast :
    ∃ s : State, s.pq.Pairwise (· < ·) ∧ s.pq.length = 2 ∧ 2 ≤ s.pq.length ∧ QueueAllocated s ∧ s.nnext = 511 ∧
      s.nnext < 512 ∧ cellAt s.node s.nnext = none :=
  ⟨withArena abraLeaves [1, 4] 511, by decide, by decide, by decide, by unfold QueueAllocated; decide, by decide,
    by decide, by decide⟩

theorem wit_TbWrapMakesTheSyntheticRoot :
    ∃ s : State, s.pq = [0] ∧ cellAt s.node 0 = some (.leaf 0x61#8 5#16) ∧ s.nnext = 511 ∧ s.nnext < 512 :=
  ⟨withArena abraLeaves [0] 511, by decide⟩

theorem wit_TbFinishMakesTheLastNodeRoot : ∃ s : State, s.pq = [8] ∧ (cellAt s.node 8).isSome = true :=
  ⟨withArena (abraLeaves ++ abraMerged) [8] 9, by decide⟩

theorem wit_QueueOperationsStopOnBrokenPreconditions :
    (∃ s : State, s.pq = []) ∧
    (∃ s : State, s.pq = [4] ∧ QueueAllocated s) ∧
    (∃ s : State, s.pq ≠ [] ∧ ¬ QueueAllocated s) ∧
    (∃ s : State, s.pq ≠ [] ∧ QueueAllocated s ∧ 512 ≤ s.nnext) ∧
    (∃ s : State, s.pq.Pairwise (· < ·) ∧ 2 ≤ s.pq.length ∧ QueueAllocated s ∧ 512 ≤ s.nnext) := by
  unfold QueueAllocated
  exact ⟨⟨State.reset, rfl⟩, ⟨withArena abraLeaves [4] 5, by decide⟩, ⟨withArena abraLeaves [4, 5] 5, by decide⟩,
    ⟨withArena abraLeaves [0] 512, by decide⟩, ⟨withArena abraLeaves [0, 1] 512, by decide⟩⟩

/-! Arenas that hold trees. -/

/-- The tree at an index, if one of at most that many levels is there. -/
def treeAt (nodes : List (Nat × Node)) : Nat → Option Nat → Option PrefixTree
  | _, none => some .none
  | 0, some _ => none
  | k + 1, some n =>
    match cellAt nodes n with
    | none => none
    | some (.leaf y f) => some (.leaf y f.toNat)
    | some (.internal f l r) =>
      match treeAt nodes k l, treeAt nodes k r with
      | some a, some b => some (.node f.toNat a b)
      | _, _ => none

theorem roots_of_treeAt {nodes : List (Nat × Node)} {k : Nat} {n : Option Nat} {t : PrefixTree}
    (h : treeAt nodes k n = some t) : Roots nodes n t := by
  induction k generalizing n t with
  | zero =>
    cases n with
    | none => cases h; exact .absent
    | some n => cases h
  | succ k ih =>
    cases n with
    | none => cases h; exact .absent
    | some n =>
      simp only [treeAt] at h
      split at h
      · cases h
      · next hc => cases h; exact .leaf hc
      · next hc =>
        split at h
        · next ha hb => cases h; exact .node hc (ih ha) (ih hb)
        · cases h

theorem exists_tree {nodes : List (Nat × Node)} {k : Nat} {n : Option Nat} {p : PrefixTree → Bool}
    (h : (treeAt nodes k n).map p = some true) : ∃ t, Roots nodes n t ∧ p t = true := by
  cases ht : treeAt nodes k n with
  | none => simp [ht] at h
  | some t => exact ⟨t, roots_of_treeAt ht, by simpa [ht] using h⟩

/-- An arena whose tree from index 0 is one branch of d edges with a leaf at its end. -/
def branch (d : Nat) : List (Nat × Node) :=
  (List.range d).map (fun k => (k, .internal 1#16 (some (k + 1)) none)) ++ [(d, .leaf 0x61#8 1#16)]

/-- An arena in which both children of each of d levels are the next index. -/
def shared (d : Nat) : List (Nat × Node) :=
  (List.range d).map (fun k => (k, .internal 1#16 (some (k + 1)) (some (k + 1)))) ++ [(d, .leaf 0x61#8 1#16)]

/-- At the longest code, and for the tree of V3. -/
theorem wit_CaAssignWritesLeafPaths :
    (∃ (s : State) (tree : PrefixTree), Roots s.node (some s.root) tree ∧ tree.size ≤ 512 ∧ tree.depth = 255 ∧
      tree.depth ≤ 255 ∧ tree.syms.Nodup) ∧
    (∃ (s : State) (tree : PrefixTree), Roots s.node (some s.root) tree ∧ tree.size ≤ 512 ∧ tree.depth ≤ 255 ∧
      tree.syms.Nodup ∧ tree.syms.length = 5) := by
  constructor
  · obtain ⟨t, h, hp⟩ := exists_tree (nodes := branch 255) (k := 256) (n := some 0)
      (p := fun t => decide (t.size ≤ 512 ∧ t.depth = 255 ∧ t.depth ≤ 255 ∧ t.syms.Nodup)) (by decide +kernel)
    exact ⟨withArena (branch 255) [] 256, t, h, of_decide_eq_true hp⟩
  · obtain ⟨t, h, hp⟩ := exists_tree (nodes := abraLeaves ++ abraMerged) (k := 5) (n := some 8)
      (p := fun t => decide (t.size ≤ 512 ∧ t.depth ≤ 255 ∧ t.syms.Nodup ∧ t.syms.length = 5)) (by decide +kernel)
    exact ⟨{ withArena (abraLeaves ++ abraMerged) [] 9 with root := 8 }, t, h, of_decide_eq_true hp⟩

theorem wit_TreeCodesArePrefixFree :
    ∃ (s t : State) (tree : PrefixTree), Roots s.node (some s.root) tree ∧ tree.syms.Nodup ∧ tree.syms.length = 5 ∧
      exec .caAssign s = .next t := by
  obtain ⟨tree, h, hp⟩ := exists_tree (nodes := abraLeaves ++ abraMerged) (k := 5) (n := some 8)
    (p := fun t => decide (t.syms.Nodup ∧ t.syms.length = 5)) (by decide +kernel)
  obtain ⟨t, ht, -⟩ := exists_next (o := exec .caAssign { withArena (abraLeaves ++ abraMerged) [] 9 with root := 8 })
    (p := fun _ => true) (by decide +kernel)
  have hp := of_decide_eq_true hp
  exact ⟨_, t, tree, h, hp.1, hp.2, ht⟩

theorem wit_CaAssignStopsOnWhatIsNoPrefixTree :
    (∃ s : State, cellAt s.node s.root = none) ∧
    (∃ (s : State) (tree : PrefixTree), Roots s.node (some s.root) tree ∧ tree.size ≤ 512 ∧
      ∃ p ∈ tree.paths, p.2.length = 256 ∧ 255 < p.2.length) ∧
    (∃ (s : State) (tree : PrefixTree), Roots s.node (some s.root) tree ∧ 512 < tree.size ∧ tree.depth ≤ 255) := by
  refine ⟨⟨State.reset, rfl⟩, ?_, ?_⟩
  · obtain ⟨t, h, hp⟩ := exists_tree (nodes := branch 256) (k := 257) (n := some 0)
      (p := fun t => decide (t.size ≤ 512 ∧ ∃ p ∈ t.paths, p.2.length = 256 ∧ 255 < p.2.length)) (by decide +kernel)
    exact ⟨withArena (branch 256) [] 257, t, h, of_decide_eq_true hp⟩
  · obtain ⟨t, h, hp⟩ := exists_tree (nodes := shared 9) (k := 10) (n := some 0)
      (p := fun t => decide (512 < t.size ∧ t.depth ≤ 255)) (by decide +kernel)
    exact ⟨withArena (shared 9) [] 10, t, h, of_decide_eq_true hp⟩

/-! Streams. -/

theorem wit_BpConcatJoinsTheCodes :
    ∃ s : State, s.textLen.toNat ≤ 65535 ∧ s.textLen.toNat = 11 ∧
      ∀ i, i < s.textLen.toNat → s.clenAt (s.textAt i) ≠ 0#8 :=
  ⟨withMap (withText abra) abraMap, by decide +kernel⟩

theorem wit_BpPadReachesTheByteBoundary :
    (∃ (s : State) (pad : Nat), pad = (8 - s.bitCount.toNat % 8) % 8 ∧ 65535 < (s.bitCount.toNat + pad) / 8) ∧
    (∃ (s : State) (pad : Nat), pad = (8 - s.bitCount.toNat % 8) % 8 ∧ (s.bitCount.toNat + pad) / 8 = 65535 ∧
      (s.bitCount.toNat + pad) / 8 ≤ 65535) :=
  ⟨⟨{ State.reset with bitCount := 524281#32 }, 7, by decide⟩, ⟨{ State.reset with bitCount := 524280#32 }, 0, by decide⟩⟩

theorem exists_bits (n : Nat) : ∃ s : State, s.bits.length = n :=
  ⟨{ State.reset with bits := List.replicate n true }, List.length_replicate⟩

theorem wit_BpPackWritesBigEndianBytes : ∃ s : State, s.bits.length / 8 = 65535 ∧ s.bits.length / 8 ≤ 65535 := by
  obtain ⟨s, h⟩ := exists_bits 524287
  exact ⟨s, by omega, by omega⟩

theorem wit_StreamingPackerAgrees :
    ∃ stream padded : Bits, padded = stream ++ List.replicate (padding stream.length) false ∧ padded.length = 8 :=
  ⟨bin 7 0b1001100, bin 8 0b10011000, by decide⟩

theorem wit_DStartAdmits :
    (∃ s : State, s.packedLen.toNat = 65536 ∧ 65535 < s.packedLen.toNat) ∧
    (∃ s : State, (∀ y, s.clenAt y = 0#8) ∧ s.packedLen = 0#32 ∧ s.padBits = 0#32 ∧ s.bitCount = 0#32) ∧
    (∃ s : State, (∀ y, s.clenAt y = 0#8) ∧ s.packedLen = 0#32 ∧ (s.padBits ≠ 0#32 ∨ s.bitCount ≠ 0#32)) ∧
    (∃ s : State, s.packedLen.toNat = 65535 ∧ s.packedLen.toNat ≤ 65535 ∧
      ((∃ y, s.clenAt y ≠ 0#8) ∨ s.packedLen ≠ 0#32)) :=
  ⟨⟨{ State.reset with packedLen := 65536#32 }, by decide⟩, ⟨State.reset, fun _ => rfl, rfl, rfl, rfl⟩,
    ⟨{ State.reset with bitCount := 5#32 }, fun _ => rfl, rfl, .inr (by decide)⟩,
    ⟨{ State.reset with packedLen := 65535#32 }, by decide, by decide, .inr (by decide)⟩⟩

/-- The payload of V3. -/
def abraPayload : State := withPayload [0x6E#8, 0x8A#8, 0xDC#8] abraMap 1 23

theorem abraPayload_prefixFree :
    ∀ y z, y ≠ z → abraPayload.clenAt y ≠ 0#8 → abraPayload.clenAt z ≠ 0#8 →
      ¬ abraPayload.code y <+: abraPayload.code z :=
  prefixFree_iff.1 (by decide +kernel)

theorem wit_DMapcheckChecksTheCodeMap :
    (∃ s : State, (∀ y, s.clenAt y = 0#8) ∨ s.packedLen = 0#32) ∧
    (∃ s : State, ∃ y z, y ≠ z ∧ s.clenAt y ≠ 0#8 ∧ s.clenAt z ≠ 0#8 ∧ s.code y <+: s.code z) ∧
    (∃ s : State, (∃ y, s.clenAt y ≠ 0#8) ∧ s.packedLen ≠ 0#32 ∧
      ∀ y z, y ≠ z → s.clenAt y ≠ 0#8 → s.clenAt z ≠ 0#8 → ¬ s.code y <+: s.code z) :=
  ⟨⟨State.reset, .inl fun _ => rfl⟩,
    ⟨withMap State.reset [(0x61#8, [false]), (0x62#8, [false])], 0x61#8, 0x62#8, by decide +kernel⟩,
    ⟨abraPayload, ⟨0x61#8, by decide +kernel⟩, by decide +kernel, abraPayload_prefixFree⟩⟩

theorem wit_DInvertReversesTheCodeMap :
    (∃ s : State, (∃ y, s.clenAt y ≠ 0#8) ∧
      ∀ y z, y ≠ z → s.clenAt y ≠ 0#8 → s.clenAt z ≠ 0#8 → s.code y ≠ s.code z) ∧
    (∃ s : State, ∃ y z, y ≠ z ∧ s.clenAt y ≠ 0#8 ∧ s.clenAt z ≠ 0#8 ∧ s.code y = s.code z) :=
  ⟨⟨abraPayload, ⟨0x61#8, by decide +kernel⟩, codesDistinct_iff.1 (by decide +kernel)⟩,
    ⟨withMap State.reset [(0x61#8, [false]), (0x62#8, [false])], 0x61#8, 0x62#8, by decide +kernel⟩⟩

theorem wit_DMetaChecksTheLengths :
    (∃ s : State, s.padBits.toNat = 8 ∧ s.bitCount.toNat + s.padBits.toNat = 8 * s.packedLen.toNat ∧
      (7 < s.padBits.toNat ∨ s.bitCount.toNat + s.padBits.toNat ≠ 8 * s.packedLen.toNat)) ∧
    (∃ s : State, s.padBits.toNat = 7 ∧ s.padBits.toNat ≤ 7 ∧
      s.bitCount.toNat + s.padBits.toNat = 8 * s.packedLen.toNat) :=
  ⟨⟨{ State.reset with packedLen := 3#32, padBits := 8#32, bitCount := 16#32 }, by decide⟩,
    ⟨{ State.reset with packedLen := 1#32, padBits := 7#32, bitCount := 1#32 }, by decide⟩⟩

theorem wit_BuUnpackReadsTheStreamBits :
    ∃ s : State, s.bitCount.toNat = 8 * 65535 ∧ s.bitCount.toNat ≤ 8 * 65535 :=
  ⟨{ State.reset with bitCount := 524280#32 }, by decide⟩

/-- A reading of each of the three kinds: complete and empty, one bit over, one symbol too many. -/
theorem wit_SrScanEmitsTheGreedyReading :
    GreedyParse [] [] [] [] ∧ GreedyParse [] [true] [] [true] ∧
    (GreedyParse [([false], 0x61#8)] (List.replicate 65536 false) (List.replicate 65536 ([false], 0x61#8)) [] ∧
      65535 < (List.replicate 65536 (([false], 0x61#8) : Bits × Byte)).length) := by
  refine ⟨⟨rfl, by simp, by simp, by simp⟩, ⟨rfl, by simp, by simp, by simp [revLookup]⟩,
    ⟨?_, ?_, ?_, by simp⟩, by rw [List.length_replicate]; decide⟩
  · rw [List.map_replicate, List.append_nil, List.flatten_replicate_singleton]
  · intro w hw
    rw [List.eq_of_mem_replicate hw]
    exact ⟨by simp, rfl⟩
  · intro w hw p hp hne hpw
    rw [List.eq_of_mem_replicate hw] at hp hpw
    rcases List.prefix_cons_iff.1 hp with h | ⟨q, h, hq⟩
    · exact absurd h hne
    · rw [List.prefix_nil] at hq
      exact absurd (by rw [h, hq]) hpw

theorem wit_UnpackInvertsPack :
    ∃ s t u : State, s.bits.length % 8 = 0 ∧ s.bitCount.toNat ≤ s.bits.length ∧ s.bitCount.toNat = 5 ∧
      exec .bpPack s = .next t ∧ exec .buUnpack t = .next u := by
  let s : State := { State.reset with bits := bin 8 0b10110000, bitCount := 5#32 }
  obtain ⟨t, ht, hp⟩ := exists_next (o := exec .bpPack s)
    (p := fun t => decide (((nextState (exec .buUnpack t)).map fun _ => true) = some true)) (by decide +kernel)
  obtain ⟨u, hu, -⟩ := exists_next (of_decide_eq_true hp)
  exact ⟨s, t, u, by decide, by decide, by decide, ht, hu⟩

/-- s with its map inverted, but for the symbols that fail keep, and with the stream of a text. -/
def inverted (s : State) (keep : Byte → Bool) (text : List Byte) : State :=
  { s with rev := (s.present.filter keep).map fun y => (s.code y, y), bits := text.flatMap s.code }

theorem inverted_rev {s : State} (h : s.codesDistinct = true) (keep : Byte → Bool) (text : List Byte) (b : Bits)
    (y : Byte) :
    revLookup (inverted s keep text).rev b = some y ↔
      keep y = true ∧ (inverted s keep text).clenAt y ≠ 0#8 ∧ (inverted s keep text).code y = b := by
  have hd := codesDistinct_iff.1 h
  refine (revLookup_map (fun y hy z hz hne => hd y z hne (mem_present.1 (List.mem_of_mem_filter hy))
    (mem_present.1 (List.mem_of_mem_filter hz))) b y).trans ?_
  rw [List.mem_filter, mem_present, and_comm (a := s.clenAt y ≠ 0#8), and_assoc]
  exact Iff.rfl

theorem abraPayload_distinct : abraPayload.codesDistinct = true := by decide +kernel

theorem wit_ScanOfConcatenatedCodesReturnsTheSymbols :
    ∃ (s : State) (ys : List Byte), s.prefixFree = true ∧ Inverted s ∧ (∀ y ∈ ys, s.clenAt y ≠ 0#8) ∧
      ys.length ≤ 65535 ∧ s.bits = ys.flatMap s.code ∧ ys.length = 11 :=
  ⟨inverted abraPayload (fun _ => true) abra, abra, by decide +kernel,
    fun b y => (inverted_rev abraPayload_distinct _ _ b y).trans (and_iff_right rfl), by decide +kernel, by decide, rfl,
    rfl⟩

/-- V20: the map lacks "c". -/
theorem wit_MissingCodeIsMalformed :
    ∃ (s : State) (ys : List Byte) (x : Byte), s.prefixFree = true ∧ (∀ y ∈ ys, s.clenAt y ≠ 0#8) ∧ x ∈ ys ∧
      ys.length ≤ 65535 ∧ s.bits = ys.flatMap s.code ∧
      ∀ b y, revLookup s.rev b = some y ↔ y ≠ x ∧ s.clenAt y ≠ 0#8 ∧ s.code y = b :=
  ⟨inverted abraPayload (fun y => y != 0x63#8) abra, abra, 0x63#8, by decide +kernel, by decide +kernel, by decide,
    by decide, rfl, fun b y => (inverted_rev abraPayload_distinct _ _ b y).trans (by rw [bne_iff_ne])⟩

theorem wit_AccessOutsideASpaceFaults :
    (∃ s : State, s.textLen.toNat = 65536 ∧ 65535 < s.textLen.toNat) ∧
    (∃ s : State, s.bits.length / 8 = 65536 ∧ 65535 < s.bits.length / 8) ∧
    (∃ s : State, s.bitCount.toNat = 8 * 65535 + 1 ∧ 8 * 65535 < s.bitCount.toNat) :=
  ⟨⟨{ State.reset with textLen := 65536#32 }, by decide⟩,
    (exists_bits 524288).imp fun s h => ⟨by omega, by omega⟩,
    ⟨{ State.reset with bitCount := 524281#32 }, by decide⟩⟩

/-! The host. -/

theorem wit_HostWritesDataRegisters :
    (∃ s : State, s.inputs = [.writeReg 7 0xFFFFFFFF#32] ∧ 7 ≠ 0 ∧ s.busy = false) ∧
    (∃ s : State, s.inputs = [.writeReg 8 0xFFFFFFFF#32] ∧ 8 ≠ 0 ∧ s.busy = false) :=
  ⟨⟨withInputs [.writeReg 7 0xFFFFFFFF#32], by decide⟩, ⟨withInputs [.writeReg 8 0xFFFFFFFF#32], by decide⟩⟩

/-- The last element of each space and the index after it. -/
theorem wit_HostWritesOneElement :
    (∀ i ∈ [65534, 65535], ∃ s : State, s.busy = false ∧ s.inputs = [.writeText i 0xFF#8]) ∧
    (∀ i ∈ [65534, 65535], ∃ s : State, s.busy = false ∧ s.inputs = [.writePacked i 0xFF#8]) ∧
    (∀ i ∈ [255, 256], ∃ s : State, s.busy = false ∧ s.inputs = [.writeClen i 0x00#8]) ∧
    (∀ i ∈ [255, 256], ∃ s : State, s.busy = false ∧ s.inputs = [.writeCbits i 1#255]) :=
  ⟨fun i _ => ⟨withInputs [.writeText i 0xFF#8], rfl, rfl⟩, fun i _ => ⟨withInputs [.writePacked i 0xFF#8], rfl, rfl⟩,
    fun i _ => ⟨withInputs [.writeClen i 0#8], rfl, rfl⟩, fun i _ => ⟨withInputs [.writeCbits i 1#255], rfl, rfl⟩⟩

theorem wit_WritesWhileBusyAreIgnored :
    ∀ e ∈ [HostEvent.writeReg 0 1#32, .writeReg 4 0#32, .writeText 0 0#8, .writePacked 0 0#8, .writeClen 0 0#8,
      .writeCbits 0 0#255],
      isHostWrite e = true ∧ ∃ s : State, s.inputs = [e] ∧ s.busy = true :=
  fun e he => ⟨by revert e; decide, { withInputs [e] with busy := true, phase := 4#5 }, rfl, rfl⟩

/-- Every space and index, while busy and while not. -/
theorem wit_HostReadsReturnTheElement (sp : Space) (i : Nat) (busy : Bool) :
    ∃ s : State, s.inputs = [.read sp i] ∧ s.busy = busy :=
  ⟨{ withInputs [.read sp i] with busy := busy }, rfl, rfl⟩

/-! Operations and runs. -/

/-- For CommandsKeepTheirInputs, MicroOperationsEndOnlyWithTheirCodes and PhaseFollowsTheGraph. -/
theorem wit_PhaseFollowsTheGraph :
    (∃ i ∈ compressOps, ∃ s t : State, exec i s = .next t) ∧ ∃ i ∈ decompressOps, ∃ s t : State, exec i s = .next t :=
  ⟨⟨.cStart, by decide, State.reset, _, rfl⟩, ⟨.srScan, by decide, State.reset, _, rfl⟩⟩

/-- COMPRESS on "ab" (V7) before its only merge. -/
def abMerge : State :=
  { withText [0x61#8, 0x62#8] with
    busy := true, phase := 4#5
    freq := ⟨[(0x61, 1#16), (0x62, 1#16)], true, 0⟩
    node := [(0, .leaf 0x61#8 1#16), (1, .leaf 0x62#8 1#16)], pq := [0, 1], nleaf := 2, nnext := 2 }

theorem abMerge_legal : Legal abMerge := by constructor <;> decide

theorem abMerge_phaseInvariant : PhaseInvariant abMerge := by
  have hall : symbols.all (fun y => (abMerge.freqAt y).toNat == occurrences abMerge y) = true := by decide +kernel
  refine ⟨⟨⟨by decide, by decide⟩, fun y => by simpa using List.all_eq_true.1 hall y (mem_symbols y)⟩,
    ⟨[.leaf 0x61#8 (1#16).toNat, .leaf 0x62#8 (1#16).toNat], .cons (.leaf rfl) (.cons (.leaf rfl) .nil),
      ?_, ?_, ?_, ?_, ?_⟩, by decide⟩
  · have h : occurrences abMerge 0x61#8 = 1 ∧ occurrences abMerge 0x62#8 = 1 := by decide +kernel
    simp [PrefixTree.full, PrefixTree.weighted, h]
  · decide +kernel
  · decide +kernel
  · decide
  · intro n hn
    by_contra hlt
    have h2 : 2 ≤ n := Nat.le_of_not_lt hlt
    rw [show cellAt abMerge.node n = none from by
      simp [abMerge, cellAt, show n ≠ 0 by omega, show n ≠ 1 by omega]] at hn
    exact absurd hn (by decide)

/-- For StepKeepsLegal, EngineNeverStops and EveryCommandCompletes. -/
theorem wit_EngineNeverStops :
    (∃ s : State, Legal s ∧ PhaseInvariant s ∧ s.busy = true ∧ s.inputs = []) ∧
    ∃ s t : State, Legal s ∧ step s = .next t := by
  obtain ⟨t, ht, -⟩ := exists_next (o := step abMerge) (p := fun _ => true) (by decide +kernel)
  exact ⟨⟨abMerge, abMerge_legal, abMerge_phaseInvariant, rfl, rfl⟩, abMerge, t, abMerge_legal, ht⟩

/-- An idle state with the text "a", and another one with a different past and the same text. -/
def oneSymbol (pad : Reg) : State := { withText [0x61#8] with padBits := pad }

theorem oneSymbol_legal (pad : Reg) (h : pad = 0#32 ∨ pad = 5#32) : Legal (oneSymbol pad) := by
  rcases h with rfl | rfl <;> constructor <;> decide

theorem oneSymbol_compress (pad : Reg) (h : pad = 0#32 ∨ pad = 5#32) :
    ∃ t, runSteps (8 + 1) { oneSymbol pad with inputs := [.writeReg 0 0x00000001#32] } = .next t ∧ t.done = true ∧
      t.err = .none ∧ t.packedLen = 1#32 := by
  obtain ⟨t, ht, hp⟩ := exists_next
    (o := runSteps (8 + 1) { oneSymbol pad with inputs := [.writeReg 0 0x00000001#32] })
    (p := fun t => decide (t.done = true ∧ t.err = .none ∧ t.packedLen = 1#32))
    (by rcases h with rfl | rfl <;> decide +kernel)
  exact ⟨t, ht, of_decide_eq_true hp⟩

/-- For PayloadMetadataRelations, CompressProducesAPrefixFreeMap and DecompressAfterCompressRestoresTheText (V4). -/
theorem wit_DecompressAfterCompressRestoresTheText :
    ∃ (s t : State) (k : Nat), Legal s ∧ s.busy = false ∧ s.textLen.toNat ≤ 65535 ∧ s.textLen = 1#32 ∧
      runSteps (k + 1) { s with inputs := [.writeReg 0 0x00000001#32] } = .next t ∧ t.done = true ∧ t.err = .none := by
  obtain ⟨t, ht, hd, he, -⟩ := oneSymbol_compress 0#32 (.inl rfl)
  exact ⟨oneSymbol 0#32, t, 8, oneSymbol_legal _ (.inl rfl), rfl, by decide, rfl, ht, hd, he⟩

theorem wit_SameTextGivesTheSamePayload :
    ∃ (s s' t t' : State) (k : Nat), Legal s ∧ Legal s' ∧ s.busy = false ∧ s'.busy = false ∧ s ≠ s' ∧
      s.textLen = s'.textLen ∧ (∀ i, i < s.textLen.toNat → s.textAt i = s'.textAt i) ∧
      runSteps (k + 1) { s with inputs := [.writeReg 0 0x00000001#32] } = .next t ∧
      runSteps (k + 1) { s' with inputs := [.writeReg 0 0x00000001#32] } = .next t' ∧ t.done = true := by
  obtain ⟨t, ht, hd, -⟩ := oneSymbol_compress 0#32 (.inl rfl)
  obtain ⟨t', ht', -⟩ := oneSymbol_compress 5#32 (.inr rfl)
  exact ⟨oneSymbol 0#32, oneSymbol 5#32, t, t', 8, oneSymbol_legal _ (.inl rfl), oneSymbol_legal _ (.inr rfl), rfl, rfl,
    fun h => absurd (congrArg State.padBits h) (by decide), rfl, fun _ _ => rfl, ht, ht', hd⟩

/-- For MoreFrequentSymbolsGetNoLongerCodes: COMPRESS on "aab" (V9). -/
theorem wit_MoreFrequentSymbolsGetNoLongerCodes :
    ∃ (s t : State) (k : Nat), Legal s ∧ s.busy = false ∧
      runSteps (k + 1) { s with inputs := [.writeReg 0 0x00000001#32] } = .next t ∧ t.done = true ∧ t.err = .none ∧
      0 < occurrences t 0x62#8 ∧ occurrences t 0x62#8 < occurrences t 0x61#8 := by
  obtain ⟨t, ht, hp⟩ := exists_next
    (o := runSteps (9 + 1) { withText [0x61#8, 0x61#8, 0x62#8] with inputs := [.writeReg 0 0x00000001#32] })
    (p := fun t => decide (t.done = true ∧ t.err = .none ∧ 0 < occurrences t 0x62#8 ∧
      occurrences t 0x62#8 < occurrences t 0x61#8)) (by decide +kernel)
  exact ⟨withText [0x61#8, 0x61#8, 0x62#8], t, 9, by constructor <;> decide, rfl, ht, of_decide_eq_true hp⟩

/-- Payloads for the cases of DecompressReportsTheFirstDefect, with the number of steps after the command (V3, V18, V19,
V21, V23, V24, V30). -/
def defects : List (State × Nat) :=
  [({ abraPayload with packedLen := 65536#32 }, 1), (withPayload [] [] 0 0, 1), (withPayload [] [] 0 5, 1),
   (withPayload [0x00#8] [] 4 4, 2), (withPayload [0x00#8] [(0x61#8, [false]), (0x62#8, [false, true])] 4 4, 2),
   (withPayload [0x6E#8, 0x8A#8] abraMap 1 23, 4), (withPayload [0x6E#8, 0x8A#8] abraMap 2 14, 6), (abraPayload, 6)]

theorem wit_DecompressReportsTheFirstDefect :
    ∀ c ∈ defects, Legal c.1 ∧ c.1.busy = false ∧
      ∃ t, runSteps (c.2 + 1) { c.1 with inputs := [.writeReg 0 0x00000002#32] } = .next t ∧ t.done = true := by
  have hl : ∀ c ∈ defects, Legal c.1 := by
    intro c hc
    simp only [defects, List.mem_cons, List.not_mem_nil, or_false] at hc
    rcases hc with rfl | rfl | rfl | rfl | rfl | rfl | rfl | rfl <;> constructor <;> decide +kernel
  have hd : ∀ c ∈ defects, c.1.busy = false ∧
      ((nextState (runSteps (c.2 + 1) { c.1 with inputs := [.writeReg 0 0x00000002#32] })).map State.done) =
        some true := by decide +kernel
  exact fun c hc => ⟨hl c hc, (hd c hc).1, exists_next (hd c hc).2⟩

end Sys2Proof.Tests
end

section
/-! SUPPORT. What each operation can answer, and what it does to the flags and to `PHASE`. -/

namespace Sys2Proof.Machine

open Sys2Proof.Safety

/-! ## The next states of each micro-operation -/

section
variable {s t : State}

/-- C.START raises, completes on the empty text, or goes on (43_compress_bitpacker.md R118). -/
theorem cStart_next (h : exec .cStart s = .next t) :
    t = s.raiseCompress .capacityExceeded ∨
    t = { s.clearMap with packedLen := 0#32, padBits := 0#32, bitCount := 0#32 }.complete .none ∨
    t = s.goto .ftBuild := by
  simp only [exec, execCStart] at h
  split at h
  · cases h; exact .inl rfl
  · split at h <;> cases h
    · exact .inr (.inl rfl)
    · exact .inr (.inr rfl)

theorem ftBuild_next (h : exec .ftBuild s = .next t) :
    s.textLen.toNat ≤ Config.NMAX ∧
      t = { s with freq := s.textSymbols.foldl countSymbol s.freq.clear }.goto .tbLoad := by
  simp only [exec, execFtBuild] at h
  split at h <;> cases h
  next hn => exact ⟨Nat.le_of_not_lt hn, rfl⟩

theorem tbLoad_next (h : exec .tbLoad s = .next t) :
    ∃ u i, loadLeaves s = u ∧ (i = .tbWrap ∨ i = .tbMerge) ∧ t = { u with nleaf := u.nnext }.goto i := by
  simp only [exec, execTbLoad] at h
  generalize loadLeaves s = u at h ⊢
  split at h
  · cases h
  · split at h <;> cases h
    · exact ⟨u, _, rfl, .inl rfl, rfl⟩
    · exact ⟨u, _, rfl, .inr rfl, rfl⟩

theorem tbMerge_next (h : exec .tbMerge s = .next t) :
    ∃ a b i s1 s2, s.pqExtractMin = .ok (a, s1) ∧ s1.pqExtractMin = .ok (b, s2) ∧ s2.nnext < Config.NODES ∧
      t = ((s2.pqInsert s2.nnext).allocate (mergedNode s2.node a b)).goto i := by
  simp only [exec, execTbMerge] at h
  split at h
  · cases h
  · next e1 =>
    split at h
    · cases h
    · next e2 =>
      split at h
      · cases h
      · next hn => cases h; exact ⟨_, _, _, _, _, e1, e2, Nat.lt_of_not_le hn, rfl⟩

theorem tbWrap_next (h : exec .tbWrap s = .next t) :
    ∃ l s1, s.pqExtractMin = .ok (l, s1) ∧ s1.nnext < Config.NODES ∧
      t = ({ s1 with root := s1.nnext }.allocate (wrapNode s1.node l)).goto .caAssign := by
  simp only [exec, execTbWrap] at h
  split at h
  · cases h
  · next e1 =>
    split at h
    · cases h
    · next hn => cases h; exact ⟨_, _, e1, Nat.lt_of_not_le hn, rfl⟩

theorem tbFinish_next (h : exec .tbFinish s = .next t) :
    ∃ n s1, s.pqExtractMin = .ok (n, s1) ∧ t = { s1 with root := n }.goto .caAssign := by
  simp only [exec, execTbFinish] at h
  split at h
  · cases h
  · next e1 => cases h; exact ⟨_, _, e1, rfl⟩

theorem bpConcat_next (h : exec .bpConcat s = .next t) :
    s.textLen.toNat ≤ Config.NMAX ∧
      ∃ b n, t = { s with bits := b, bitCount := n }.goto .bpPad := by
  simp only [exec, execBpConcat] at h
  split at h <;> cases h
  next hn => exact ⟨Nat.le_of_not_lt hn, _, _, rfl⟩

theorem bpPad_next (h : exec .bpPad s = .next t) :
    ∃ pad, t = { s with padBits := pad }.raiseCompress .capacityExceeded ∨
      ∃ b, t = { s with padBits := pad, bits := b }.goto .bpPack := by
  simp only [exec, execBpPad] at h
  split at h <;> cases h
  · exact ⟨_, .inl rfl⟩
  · exact ⟨_, .inr ⟨_, rfl⟩⟩

theorem bpPack_next (h : exec .bpPack s = .next t) :
    s.bits.length / 8 ≤ Config.PMAX ∧
      t = { s with
        packedLen := BitVec.ofNat 32 (s.bits.length / 8)
        packed := s.packed.writeRange (packByte s.bits) (s.bits.length / 8) }.complete .none := by
  simp only [exec, execBpPack] at h
  split at h <;> cases h
  next hn => exact ⟨Nat.le_of_not_lt hn, rfl⟩

theorem dStart_next (h : exec .dStart s = .next t) :
    t = s.raiseDecompress .capacityExceeded ∨ t = { s with textLen := 0#32 }.complete .none ∨
    t = s.raiseDecompress .malformedPayload ∨ t = s.goto .dMapcheck := by
  simp only [exec, execDStart] at h
  split at h
  · cases h; exact .inl rfl
  · split at h
    · split at h <;> cases h
      · exact .inr (.inl rfl)
      · exact .inr (.inr (.inl rfl))
    · cases h; exact .inr (.inr (.inr rfl))

theorem dMapcheck_next (h : exec .dMapcheck s = .next t) :
    t = s.raiseDecompress .invalidCodeMap ∨ t = s.goto .dInvert := by
  simp only [exec, execDMapcheck] at h
  split at h
  · cases h; exact .inl rfl
  · split at h <;> cases h
    · exact .inr rfl
    · exact .inl rfl

theorem dInvert_next (h : exec .dInvert s = .next t) :
    t = { s with rev := s.present.map fun y => (s.code y, y) }.goto .dMeta := by
  simp only [exec, execDInvert] at h
  split at h <;> cases h
  rfl

theorem dMeta_next (h : exec .dMeta s = .next t) :
    t = s.raiseDecompress .malformedPayload ∨ t = s.goto .buUnpack := by
  simp only [exec, execDMeta] at h
  split at h <;> cases h
  · exact .inl rfl
  · exact .inr rfl

theorem buUnpack_next (h : exec .buUnpack s = .next t) :
    t = { s with bits := (List.range s.bitCount.toNat).map s.streamBit }.goto .srScan := by
  simp only [exec, execBuUnpack] at h
  split at h <;> cases h
  rfl

end

/-! ## The flags and `PHASE` after a micro-operation -/

/-- `ERR` and the three flags of t are those of s. -/
def KeepsFlags (s t : State) : Prop := t.err = s.err ∧ t.errf = s.errf ∧ t.busy = s.busy ∧ t.done = s.done

theorem KeepsFlags.of_frame {s t : State} {node pq nleaf nnext root clen cbits walkStack phase}
    (h : { t with
      node := node, pq := pq, nleaf := nleaf, nnext := nnext, root := root, clen := clen, cbits := cbits
      walkStack := walkStack, phase := phase } = s) : KeepsFlags s t := by
  subst h; exact ⟨rfl, rfl, rfl, rfl⟩

/-- What micro-operation i may do to the control registers: go on to a successor, the flags kept, or end the command
with one of its codes (30_encoding.md R82, 60_exceptions.md R156). -/
def GoesOnOrEnds (i : Instr) (s t : State) : Prop :=
  (KeepsFlags s t ∧ t.phase ∈ successors i ∧ t.phase ≠ 0#5) ∨ ∃ e ∈ endCodes i, Ended e t

theorem goesOn_goto {i j : Instr} {s u : State} (hu : KeepsFlags s u)
    (hj : phaseOf j ∈ successors i ∧ phaseOf j ≠ 0#5) : GoesOnOrEnds i s (u.goto j) := .inl ⟨hu, hj⟩

theorem ends_complete {i : Instr} {e : ErrCode} (s u : State) (he : e ∈ endCodes i) :
    GoesOnOrEnds i s (u.complete e) := .inr ⟨e, he, ended_complete u e⟩

/-- The micro-operation graph with the codes at its ends (30_encoding.md R82, 60_exceptions.md R156). -/
theorem exec_goesOn_or_ends {i : Instr} (hi : i ∈ compressOps ++ decompressOps) {s t : State}
    (h : exec i s = .next t) : GoesOnOrEnds i s t := by
  have kept : KeepsFlags s s := ⟨rfl, rfl, rfl, rfl⟩
  cases i with
  | cStart =>
    rcases cStart_next h with rfl | rfl | rfl
    · exact ends_complete _ _ (by decide)
    · exact ends_complete _ _ (by decide)
    · exact goesOn_goto kept (by decide)
  | ftBuild => obtain ⟨-, rfl⟩ := ftBuild_next h; exact goesOn_goto kept (by decide)
  | tbLoad =>
    obtain ⟨hf, hp | hp⟩ := tbLoad_frame h
    · exact .inl ⟨.of_frame hf, hp ▸ (by decide)⟩
    · exact .inl ⟨.of_frame hf, hp ▸ (by decide)⟩
  | tbMerge =>
    obtain ⟨hf, hp | hp⟩ := tbMerge_frame h
    · exact .inl ⟨.of_frame hf, hp ▸ (by decide)⟩
    · exact .inl ⟨.of_frame hf, hp ▸ (by decide)⟩
  | tbWrap => obtain ⟨hf, hp⟩ := tbWrap_frame h; exact .inl ⟨.of_frame hf, hp ▸ (by decide)⟩
  | tbFinish => obtain ⟨hf, hp⟩ := tbFinish_frame h; exact .inl ⟨.of_frame hf, hp ▸ (by decide)⟩
  | caAssign => obtain ⟨hf, hp⟩ := caAssign_frame h; exact .inl ⟨.of_frame hf, hp ▸ (by decide)⟩
  | bpConcat => obtain ⟨-, _, _, rfl⟩ := bpConcat_next h; exact goesOn_goto kept (by decide)
  | bpPad =>
    obtain ⟨_, rfl | ⟨_, rfl⟩⟩ := bpPad_next h
    · exact ends_complete _ _ (by decide)
    · exact goesOn_goto kept (by decide)
  | bpPack => obtain ⟨-, rfl⟩ := bpPack_next h; exact ends_complete _ _ (by decide)
  | dStart =>
    rcases dStart_next h with rfl | rfl | rfl | rfl
    · exact ends_complete _ _ (by decide)
    · exact ends_complete _ _ (by decide)
    · exact ends_complete _ _ (by decide)
    · exact goesOn_goto kept (by decide)
  | dMapcheck =>
    rcases dMapcheck_next h with rfl | rfl
    · exact ends_complete _ _ (by decide)
    · exact goesOn_goto kept (by decide)
  | dInvert => cases dInvert_next h; exact goesOn_goto kept (by decide)
  | dMeta =>
    rcases dMeta_next h with rfl | rfl
    · exact ends_complete _ _ (by decide)
    · exact goesOn_goto kept (by decide)
  | buUnpack => cases buUnpack_next h; exact goesOn_goto kept (by decide)
  | srScan => exact .inr (srScan_frame h).2
  | _ => simp [compressOps, decompressOps] at hi

/-- The operation of a phase code is IDLE, of code 0, or a micro-operation of one of the commands
(30_encoding.md R74). -/
theorem decode_phase_ok {p : PhaseCode} {i : Instr} (h : decode (.phase p) = .ok i) :
    p = 0#5 ∧ i = .idle ∨ i ∈ compressOps ++ decompressOps := by
  simp only [decode, decodePhase] at h
  split at h <;> cases h
  · next hp => exact .inl ⟨BitVec.eq_of_toNat_eq hp, rfl⟩
  all_goals exact .inr (by decide)

/-! ## The commands -/

/-- A written word is one of the two command words or a word of the ILLEGAL row (30_encoding.md R72, R73). -/
theorem decodeCommand_cases (v : Reg) :
    v = 0x00000001#32 ∧ decodeCommand v = .compress ∨ v = 0x00000002#32 ∧ decodeCommand v = .decompress ∨
    v ≠ 0x00000001#32 ∧ v ≠ 0x00000002#32 ∧ ∃ zero op, decodeCommand v = .illegal zero op := by
  unfold decodeCommand
  split
  · next h => exact .inl ⟨h, rfl⟩
  · next h1 =>
    split
    · next h => exact .inr (.inl ⟨h, rfl⟩)
    · next h2 => exact .inr (.inr ⟨h1, h2, _, _, rfl⟩)

/-- While busy no written word has an effect (10_state.md R22). -/
theorem exec_command_busy {s : State} (hb : s.busy = true) (v : Reg) : exec (decodeCommand v) s = .next s := by
  obtain ⟨-, hd⟩ | ⟨-, hd⟩ | ⟨-, -, zero, op, hd⟩ := decodeCommand_cases v <;> rw [hd] <;> exact if_pos hb

theorem exec_compress_idle {s : State} (hb : s.busy = false) : exec .compress s = .next (s.start .cStart) :=
  if_neg (by simp [hb])

theorem exec_decompress_idle {s : State} (hb : s.busy = false) : exec .decompress s = .next (s.start .dStart) :=
  if_neg (by simp [hb])

theorem exec_illegal_idle {s : State} (hb : s.busy = false) (zero : BitVec 24) (op : BitVec 8) :
    exec (.illegal zero op) s = .next s.rejectCommand :=
  if_neg (by simp [hb])

/-! ## The host's actions -/

/-- The engine's turn is no host action. -/
theorem engineTurn_ne_host (s t : State) : engineTurn s ≠ .host t := by
  unfold engineTurn
  cases decode (.phase s.phase) <;> simp

/-- A host action that runs no operation is a write to a register other than `CMD` or to an element, a read (the last
poll of a wait is one), or the reset. -/
theorem hostTurn_host {e : HostEvent} {s waiting t : State} (h : hostTurn e s waiting = .host t) :
    (∃ i v, t = s.hostWriteReg i v) ∨ (∃ i v, t = s.hostWriteText i v) ∨ (∃ i v, t = s.hostWritePacked i v) ∨
    (∃ i v, t = s.hostWriteClen i v) ∨ (∃ i v, t = s.hostWriteCbits i v) ∨ (∃ sp i, t = s.hostRead sp i) ∨
    t = s.resetEvent := by
  cases e with
  | writeReg i v =>
    simp only [hostTurn] at h
    split at h <;> cases h
    exact .inl ⟨_, _, rfl⟩
  | writeText i v => cases h; exact .inr (.inl ⟨_, _, rfl⟩)
  | writePacked i v => cases h; exact .inr (.inr (.inl ⟨_, _, rfl⟩))
  | writeClen i v => cases h; exact .inr (.inr (.inr (.inl ⟨_, _, rfl⟩)))
  | writeCbits i v => cases h; exact .inr (.inr (.inr (.inr (.inl ⟨_, _, rfl⟩))))
  | read sp i => cases h; exact .inr (.inr (.inr (.inr (.inr (.inl ⟨_, _, rfl⟩)))))
  | engine => exact absurd h (engineTurn_ne_host s t)
  | wait =>
    simp only [hostTurn] at h
    split at h
    · cases h; exact .inr (.inr (.inr (.inr (.inr (.inl ⟨_, _, rfl⟩)))))
    · exact absurd h (engineTurn_ne_host _ t)
  | reset => cases h; exact .inr (.inr (.inr (.inr (.inr (.inr rfl)))))

/-- Only a pending host action is a whole host action. -/
theorem fetch_host {s t : State} (h : fetch s = .host t) :
    ∃ e rest, s.inputs = e :: rest ∧ hostTurn e { s with inputs := rest } s = .host t := by
  unfold fetch at h
  split at h
  · exact absurd h (engineTurn_ne_host s t)
  · next e rest hin => exact ⟨e, rest, hin, h⟩

/-- While busy a host write to a register has no effect (70_reset_and_hazards.md R180). -/
theorem hostWriteReg_busy {s : State} (hb : s.busy = true) (i : Nat) (v : Reg) : s.hostWriteReg i v = s := if_pos hb

/-- A host write to a register other than `CMD` while not busy (10_state.md R21, 20_memory.md R57). -/
theorem hostWriteReg_idle {s : State} (hb : s.busy = false) (i : Nat) (v : Reg) :
    s.hostWriteReg i v = { s with
      textLen := if i = 4 then v else s.textLen
      packedLen := if i = 5 then v else s.packedLen
      padBits := if i = 6 then v else s.padBits
      bitCount := if i = 7 then v else s.bitCount } := by
  unfold State.hostWriteReg
  rw [if_neg (by simp [hb])]
  split
  · rfl
  · rfl
  · rfl
  · rfl
  · next h4 h5 h6 h7 => rw [if_neg h4, if_neg h5, if_neg h6, if_neg h7]

/-- What a host read returns: the element where the spec fixes it, and otherwise the next free value. -/
theorem hostRead_readData (s : State) (sp : Space) (i : Nat) :
    (s.hostRead sp i).readData = some ((s.hostValue sp i).getD (drawnValue sp s.draws)) := by
  unfold State.hostRead
  cases s.hostValue sp i <;> rfl

/-- A host read changes nothing of the block (20_memory.md R55). -/
theorem hostRead_frame (s : State) (sp : Space) (i : Nat) :
    { s.hostRead sp i with readData := s.readData, draws := s.draws } = s := by
  unfold State.hostRead
  cases s.hostValue sp i <;> rfl

theorem hostRead_draws {s : State} {sp : Space} {i : Nat} (h : s.hostValue sp i = none) :
    (s.hostRead sp i).draws = s.draws + 1 := by
  unfold State.hostRead
  rw [h]

/-- While busy only the four control registers have a value to read (70_reset_and_hazards.md R180). -/
theorem hostValue_busy {s : State} {sp : Space} {i : Nat} (hb : s.busy = true) (h : sp ≠ .reg ∨ 4 ≤ i) :
    s.hostValue sp i = none := by
  cases sp with
  | reg =>
    have h4 : 4 ≤ i := h.resolve_left (· rfl)
    obtain ⟨k, rfl⟩ := Nat.exists_eq_add_of_le' h4
    match k with
    | 0 | 1 | 2 | 3 => exact if_pos hb
    | _ + 4 => rfl
  | text | packed | clen | cbits => exact if_pos (.inl hb)

/-- A space has no value past its end (20_memory.md R50, R57). -/
theorem hostValue_outside (s : State) {sp : Space} {i : Nat}
    (h : sp = .reg ∧ 8 ≤ i ∨ sp = .text ∧ 65535 ≤ i ∨ sp = .packed ∧ 65535 ≤ i ∨ sp = .clen ∧ 256 ≤ i ∨
      sp = .cbits ∧ 256 ≤ i) : s.hostValue sp i = none := by
  rcases h with ⟨rfl, hi⟩ | ⟨rfl, hi⟩ | ⟨rfl, hi⟩ | ⟨rfl, hi⟩ | ⟨rfl, hi⟩
  · obtain ⟨k, rfl⟩ := Nat.exists_eq_add_of_le' hi; rfl
  all_goals exact if_pos (.inr hi)

section
variable {s : State}

theorem hostValue_text (hb : s.busy = false) {i : Nat} (hi : i < 65535) :
    s.hostValue .text i = some (.byte (s.textAt i)) :=
  if_neg (by simp [hb, hi])

theorem hostValue_packed (hb : s.busy = false) {i : Nat} (hi : i < 65535) :
    s.hostValue .packed i = some (.byte (s.packedAt i)) :=
  if_neg (by simp [hb, hi])

theorem hostValue_clen (hb : s.busy = false) (y : Byte) :
    s.hostValue .clen y.toNat = some (.byte (s.clenAt y)) :=
  (if_neg (by simp [hb, y.isLt])).trans (by rw [BitVec.ofNat_toNat, BitVec.setWidth_eq])

theorem hostValue_cbits (hb : s.busy = false) (y : Byte) :
    s.hostValue .cbits y.toNat = some (.code (s.cbitsAt y)) :=
  (if_neg (by simp [hb, y.isLt])).trans (by rw [BitVec.ofNat_toNat, BitVec.setWidth_eq])

end

/-- `STATUS` bit by bit (10_state.md R23). -/
theorem statusWord_bits (s : State) :
    s.statusWord.getLsbD 0 = s.busy ∧ s.statusWord.getLsbD 1 = s.done ∧ s.statusWord.getLsbD 2 = s.errf ∧
      ∀ n, 3 ≤ n → s.statusWord.getLsbD n = false := by
  have bits : ∀ b d e : Bool, let w := BitVec.ofNat 32 (b.toNat + 2 * d.toNat + 4 * e.toNat)
      w.getLsbD 0 = b ∧ w.getLsbD 1 = d ∧ w.getLsbD 2 = e ∧ w.toNat < 2 ^ 3 := by decide
  obtain ⟨hb, hd, he, hlt⟩ := bits s.busy s.done s.errf
  exact ⟨hb, hd, he, fun n hn => Nat.testBit_lt_two_pow (hlt.trans_le (Nat.pow_le_pow_right (by decide) hn))⟩

theorem errWord_toNat (s : State) : s.errWord.toNat = s.err.code := by
  unfold State.errWord
  cases s.err <;> rfl

theorem phaseWord_toNat (s : State) : s.phaseWord.toNat = s.phase.toNat :=
  BitVec.toNat_setWidth_of_le (by decide)

/-- A step with a read pending is that read. -/
theorem step_read {s : State} {sp : Space} {i : Nat} {rest : List HostEvent} (hin : s.inputs = .read sp i :: rest) :
    step s = .next ({ s with inputs := rest }.hostRead sp i) := by
  simp only [step, fetch, hin, hostTurn]

/-- A step with a write to a register other than `CMD` pending is that write. -/
theorem step_writeReg {s : State} {i : Nat} {v : Reg} {rest : List HostEvent} (hin : s.inputs = .writeReg i v :: rest)
    (hi : i ≠ 0) : step s = .next ({ s with inputs := rest }.hostWriteReg i v) := by
  simp only [step, fetch, hin, hostTurn, if_neg hi]

end Sys2Proof.Machine
end

section
/-! SUPPORT. The legal form of a state in two parts, the flags and the stored data, and that each operation keeps
each part. -/

namespace Sys2Proof.Machine

open Sys2Proof.Safety

/-! ## One memory -/

/-- A memory in canonical form that lists only elements below n (20_memory.md R50). -/
structure Memory.Within {w : Nat} (n : Nat) (m : Memory w) : Prop where
  wf : m.wf = true
  range : ∀ c ∈ m.cells, c.1 < n

section
variable {w n : Nat} {m : Memory w}

theorem Memory.Within.write (h : m.Within n) {i : Nat} (hi : i < n) (v : BitVec w) : (m.write i v).Within n :=
  ⟨Memory.wf_write h.wf i v, fun c hc => (Memory.mem_cells_write hc).elim (· ▸ hi) (h.range c)⟩

theorem Memory.within_clear (m : Memory w) (n : Nat) : m.clear.Within n := ⟨m.wf_clear, fun _ hc => nomatch hc⟩

theorem Memory.within_forget (m : Memory w) (n : Nat) : m.forget.Within n := ⟨m.wf_forget, fun _ hc => nomatch hc⟩

theorem Memory.Within.writeRange (h : m.Within n) (v : Nat → BitVec w) {k : Nat} (hk : k ≤ n) :
    (m.writeRange v k).Within n := by
  induction k with
  | zero => exact h
  | succ k ih => exact (ih (Nat.le_of_succ_le hk)).write hk (v k)

theorem Memory.Within.foldl_countSymbol {m : Memory 16} (h : m.Within Config.ALPHA) (ys : List Byte) :
    (ys.foldl countSymbol m).Within Config.ALPHA := by
  induction ys generalizing m with
  | nil => exact h
  | cons y ys ih => exact ih (h.write y.isLt _)

end

/-! ## The stored data -/

/-- Legal without the flags: memories, arena and queue canonical and inside their ranges (20_memory.md R50,
10_state.md R35, R37, R38). -/
structure StorageLegal (s : State) : Prop where
  text : s.text.Within Config.NMAX
  packed : s.packed.Within Config.PMAX
  clen : s.clen.Within Config.ALPHA
  clenZeroed : s.clen.zeroed = true
  cbits : s.cbits.Within Config.ALPHA
  freq : s.freq.Within Config.ALPHA
  nodeRising : rising s.node = true
  nodeRange : ∀ c ∈ s.node, c.1 < Config.NODES
  queueRising : s.pq.Pairwise (· < ·)
  queueRange : ∀ n ∈ s.pq, n < Config.NODES
  nleafRange : s.nleaf ≤ Config.ALPHA
  nnextRange : s.nnext ≤ Config.NODES
  outposRange : s.outpos ≤ Config.NMAX

theorem storageLegal_reset : StorageLegal State.reset where
  text := ⟨rfl, fun _ hc => nomatch hc⟩
  packed := ⟨rfl, fun _ hc => nomatch hc⟩
  clen := ⟨rfl, fun _ hc => nomatch hc⟩
  clenZeroed := rfl
  cbits := ⟨rfl, fun _ hc => nomatch hc⟩
  freq := ⟨rfl, fun _ hc => nomatch hc⟩
  nodeRising := rfl
  nodeRange := fun _ hc => nomatch hc
  queueRising := .nil
  queueRange := fun _ hn => nomatch hn
  nleafRange := Nat.zero_le _
  nnextRange := Nat.zero_le _
  outposRange := Nat.zero_le _

namespace StorageLegal

variable {s t : State}

theorem goto (h : StorageLegal s) (i : Instr) : StorageLegal (s.goto i) := { h with }

theorem resetEvent (s : State) : StorageLegal s.resetEvent :=
  { storageLegal_reset with
    text := s.text.within_forget _, packed := s.packed.within_forget _, clen := s.clen.within_clear _
    cbits := s.cbits.within_forget _, freq := s.freq.within_forget _ }

theorem clearMap (h : StorageLegal s) : StorageLegal s.clearMap :=
  { h with clen := s.clen.within_clear _, clenZeroed := rfl, cbits := s.cbits.within_clear _ }

theorem writeCode (h : StorageLegal s) (y : Byte) (c : Bits) : StorageLegal (s.writeCode y c) :=
  { h with
    clen := h.clen.write y.isLt _, clenZeroed := (Memory.zeroed_write ..).trans h.clenZeroed
    cbits := h.cbits.write y.isLt _ }

theorem raiseCompress (h : StorageLegal s) (e : ErrCode) : StorageLegal (s.raiseCompress e) :=
  { h with
    clen := s.clen.within_clear _, clenZeroed := rfl, cbits := s.cbits.within_forget _
    packed := s.packed.within_forget _ }

theorem raiseScan (h : StorageLegal s) (e : ErrCode) : StorageLegal (s.raiseScan e) :=
  { h with text := s.text.within_forget _ }

theorem pqInsert (h : StorageLegal s) {n : Nat} (hn : n < Config.NODES) : StorageLegal (s.pqInsert n) :=
  { h with
    queueRising := pairwise_insertMember h.queueRising n
    queueRange := fun m hm => (mem_insertMember.1 hm).elim (· ▸ hn) (h.queueRange m) }

theorem pqExtractMin (h : StorageLegal s) {n : Nat} (ht : s.pqExtractMin = .ok (n, t)) : StorageLegal t := by
  obtain ⟨-, -, -, rfl⟩ := pqExtractMin_ok ht
  exact { h with
    queueRising := h.queueRising.filter _
    queueRange := fun m hm => h.queueRange m (List.mem_of_mem_filter hm) }

theorem allocate (h : StorageLegal s) (hn : s.nnext < Config.NODES) (r : Node) : StorageLegal (s.allocate r) :=
  { h with
    nodeRising := rising_putCell h.nodeRising _ _
    nodeRange := fun c hc => (mem_putCell hc).elim (· ▸ hn) (h.nodeRange c)
    nnextRange := hn }

theorem loadLeaf (h : StorageLegal s) (hn : s.nnext < Config.NODES) (y : Byte) : StorageLegal (loadLeaf s y) := by
  unfold Machine.loadLeaf
  split
  · exact h
  · exact (h.pqInsert hn).allocate hn _

theorem foldl_loadLeaf (ys : List Byte) (h : StorageLegal s) (hn : s.nnext + ys.length ≤ Config.NODES) :
    StorageLegal (ys.foldl Machine.loadLeaf s) := by
  induction ys generalizing s with
  | nil => exact h
  | cons y ys ih =>
    rw [List.length_cons] at hn
    have hnext : (Machine.loadLeaf s y).nnext ≤ s.nnext + 1 := by
      unfold Machine.loadLeaf
      split
      · exact Nat.le_succ _
      · exact Nat.le_refl _
    exact ih (h.loadLeaf (by omega) y) (by omega)

theorem loadLeaves (h : StorageLegal s) : StorageLegal (loadLeaves s) := by
  have empty : StorageLegal { s with pq := [], nnext := 0, node := [] } :=
    { h with
      nodeRising := rfl, nodeRange := fun _ hc => (nomatch hc), queueRising := .nil
      queueRange := fun _ hn => (nomatch hn), nnextRange := Nat.zero_le _ }
  exact empty.foldl_loadLeaf symbols (by simp [symbols_length, Config.NODES])

theorem walk {fuel : Nat} (h : StorageLegal s) (ht : walk fuel s = .ok t) : StorageLegal t := by
  induction fuel generalizing s with
  | zero =>
    unfold Machine.walk at ht
    split at ht <;> cases ht
    exact h
  | succ fuel ih =>
    unfold Machine.walk at ht
    split at ht
    · cases ht; exact h
    · dsimp only at ht
      split at ht
      · cases ht
      · split at ht
        · cases ht
        · refine ih (writeCode ?_ _ _) ht
          exact { h with }
      · refine ih ?_ ht
        exact { h with }

theorem scan (b : Bits) (h : StorageLegal s) : StorageLegal (scan b s) := by
  induction b generalizing s with
  | nil =>
    unfold Machine.scan
    split
    · exact { h with }
    · exact h.raiseScan _
  | cons x b ih =>
    simp only [Machine.scan]
    split
    · exact ih { h with }
    · split
      · refine raiseScan ?_ _
        exact { h with }
      · next hn =>
        have hlt : s.outpos < Config.NMAX := Nat.lt_of_le_of_ne h.outposRange hn
        exact ih { h with text := h.text.write hlt _, outposRange := hlt }

end StorageLegal

/-- Every micro-operation keeps the stored data canonical and inside its ranges. -/
theorem exec_keeps_storage {i : Instr} (hi : i ∈ compressOps ++ decompressOps) {s t : State} (hs : StorageLegal s)
    (h : exec i s = .next t) : StorageLegal t := by
  cases i with
  | cStart =>
    rcases cStart_next h with rfl | rfl | rfl
    · exact hs.raiseCompress _
    · exact { hs.clearMap with }
    · exact hs.goto _
  | ftBuild =>
    obtain ⟨-, rfl⟩ := ftBuild_next h
    exact { hs with freq := (s.freq.within_clear _).foldl_countSymbol _ }
  | tbLoad =>
    obtain ⟨u, _, hu, -, rfl⟩ := tbLoad_next h
    have hst : StorageLegal u := hu ▸ hs.loadLeaves
    have hleaf : u.nnext ≤ Config.ALPHA := by
      obtain ⟨-, -, hnext, -⟩ := loadLeaves_spec s _ rfl
      rw [← hu, hnext]
      exact (List.length_filter_le ..).trans_eq symbols_length
    exact { hst with nleafRange := hleaf }
  | tbMerge =>
    obtain ⟨_, _, _, _, _, h1, h2, hn, rfl⟩ := tbMerge_next h
    exact ((((hs.pqExtractMin h1).pqExtractMin h2).pqInsert hn).allocate hn _).goto _
  | tbWrap =>
    obtain ⟨_, s1, h1, hn, rfl⟩ := tbWrap_next h
    have rooted : StorageLegal { s1 with root := s1.nnext } := { hs.pqExtractMin h1 with }
    exact (rooted.allocate hn _).goto _
  | tbFinish =>
    obtain ⟨_, _, h1, rfl⟩ := tbFinish_next h
    exact { hs.pqExtractMin h1 with }
  | caAssign =>
    obtain ⟨_, hu, rfl⟩ := caAssign_next h
    have cleared : StorageLegal { s.clearMap with walkStack := [(s.root, [])] } := { hs.clearMap with }
    exact (cleared.walk hu).goto _
  | bpConcat => obtain ⟨-, _, _, rfl⟩ := bpConcat_next h; exact { hs with }
  | bpPad =>
    obtain ⟨_, rfl | ⟨_, rfl⟩⟩ := bpPad_next h
    · exact StorageLegal.raiseCompress { hs with } _
    · exact { hs with }
  | bpPack => obtain ⟨hn, rfl⟩ := bpPack_next h; exact { hs with packed := hs.packed.writeRange _ hn }
  | dStart => rcases dStart_next h with rfl | rfl | rfl | rfl <;> exact { hs with }
  | dMapcheck => rcases dMapcheck_next h with rfl | rfl <;> exact { hs with }
  | dInvert => cases dInvert_next h; exact { hs with }
  | dMeta => rcases dMeta_next h with rfl | rfl <;> exact { hs with }
  | buUnpack => cases buUnpack_next h; exact { hs with }
  | srScan => cases h; exact StorageLegal.scan _ { hs with outposRange := Nat.zero_le _ }
  | _ => simp [compressOps, decompressOps] at hi

/-! ## The flags -/

/-- The flags' part of Legal (10_state.md R23, R25, 30_encoding.md R74). -/
structure FlagsLegal (s : State) : Prop where
  notBoth : ¬ (s.busy = true ∧ s.done = true)
  errfErr : s.errf = true ↔ s.err ≠ .none
  errfDone : s.errf = true → s.done = true
  busyPhase : s.busy = true ↔ s.phase ≠ 0#5
  phaseOccurs : s.phase.toNat ≤ 16

theorem flagsLegal_reset : FlagsLegal State.reset := by constructor <;> decide

theorem flagsLegal_of_ended {e : ErrCode} {t : State} (h : Ended e t) : FlagsLegal t := by
  constructor <;> simp [h.err, h.errf, h.busy, h.done, h.phase]

/-- The accepted write of a command word leaves the flags of a running command (10_state.md R22). -/
theorem flagsLegal_start (s : State) {i : Instr} (hi : phaseOf i ≠ 0#5 ∧ (phaseOf i).toNat ≤ 16) :
    FlagsLegal (s.start i) := by
  constructor <;> simp [State.start, hi]

theorem successors_occur {i : Instr} {p : PhaseCode} (h : p ∈ successors i) : p.toNat ≤ 16 := by
  cases i with
  | illegal zero op => revert p; simp [successors]
  | pqInsert n => revert p; simp [successors]
  | _ => revert p; decide

namespace FlagsLegal

variable {s t : State}

/-- A running command that goes on to another micro-operation keeps legal flags. -/
theorem goesOn (h : FlagsLegal s) (hk : KeepsFlags s t) (hs : s.phase ≠ 0#5) (ht : t.phase ≠ 0#5)
    (ho : t.phase.toNat ≤ 16) : FlagsLegal t := by
  obtain ⟨herr, herrf, hbusy, hdone⟩ := hk
  exact ⟨by rw [hbusy, hdone]; exact h.notBoth, by rw [herrf, herr]; exact h.errfErr,
    by rw [herrf, hdone]; exact h.errfDone, iff_of_true (hbusy.trans (h.busyPhase.2 hs)) ht, ho⟩

/-- The write of an illegal word while idle records an error after the command's end (60_exceptions.md R154). -/
theorem rejectCommand (h : FlagsLegal s) (hb : s.busy = false) : FlagsLegal s.rejectCommand where
  notBoth := fun hc => Bool.false_ne_true (hb.symm.trans hc.1)
  errfErr := iff_of_true rfl (fun hc => nomatch hc)
  errfDone := fun _ => rfl
  busyPhase := h.busyPhase
  phaseOccurs := h.phaseOccurs

end FlagsLegal

theorem legal_iff {s : State} : Legal s ↔ FlagsLegal s ∧ StorageLegal s :=
  ⟨fun h => ⟨{ h with }, { h with
      text := ⟨h.textWf, h.textRange⟩, packed := ⟨h.packedWf, h.packedRange⟩, clen := ⟨h.clenWf, h.clenRange⟩
      cbits := ⟨h.cbitsWf, h.cbitsRange⟩, freq := ⟨h.freqWf, h.freqRange⟩ }⟩,
    fun ⟨hf, hs⟩ => { hf, hs with
      textWf := hs.text.wf, packedWf := hs.packed.wf, clenWf := hs.clen.wf, cbitsWf := hs.cbits.wf
      freqWf := hs.freq.wf, textRange := hs.text.range, packedRange := hs.packed.range, clenRange := hs.clen.range
      cbitsRange := hs.cbits.range, freqRange := hs.freq.range }⟩

/-! ## The kinds of step -/

/-- What belongs to the host alone, its script and what it has read, has no part in the legal form. -/
theorem legal_of_hostFrame {s t : State} {inputs readData draws} (h : Legal s)
    (ht : { t with inputs := inputs, readData := readData, draws := draws } = s) : Legal t := by
  subst ht; exact { h with }

/-- The engine's turn keeps the legal form. -/
theorem exec_phase_keeps_legal {s t : State} {i : Instr} (hs : Legal s) (hd : decode (.phase s.phase) = .ok i)
    (h : exec i s = .next t) : Legal t := by
  rcases decode_phase_ok hd with ⟨-, rfl⟩ | hi
  · cases h; exact hs
  · obtain ⟨hf, hst⟩ := legal_iff.1 hs
    have hp : s.phase ≠ 0#5 := by
      intro h0
      rw [h0] at hd
      cases hd
      exact absurd hi (by decide)
    refine legal_iff.2 ⟨?_, exec_keeps_storage hi hst h⟩
    rcases exec_goesOn_or_ends hi h with ⟨hk, hsucc, ht⟩ | ⟨e, -, hend⟩
    · exact hf.goesOn hk hp ht (successors_occur hsucc)
    · exact flagsLegal_of_ended hend

/-- The write of any word to `CMD` keeps the legal form. -/
theorem exec_command_keeps_legal {s t : State} {v : Reg} (hs : Legal s) (h : exec (decodeCommand v) s = .next t) :
    Legal t := by
  obtain ⟨hf, hst⟩ := legal_iff.1 hs
  cases hb : s.busy with
  | true => rw [exec_command_busy hb] at h; cases h; exact hs
  | false =>
    obtain ⟨-, hd⟩ | ⟨-, hd⟩ | ⟨-, -, zero, op, hd⟩ := decodeCommand_cases v <;> rw [hd] at h
    · rw [exec_compress_idle hb] at h; cases h
      exact legal_iff.2 ⟨flagsLegal_start s (by decide), { hst with }⟩
    · rw [exec_decompress_idle hb] at h; cases h
      exact legal_iff.2 ⟨flagsLegal_start s (by decide), { hst with }⟩
    · rw [exec_illegal_idle hb] at h; cases h
      exact legal_iff.2 ⟨hf.rejectCommand hb, { hst with }⟩

/-- Every whole host action keeps the legal form. -/
theorem hostTurn_keeps_legal {e : HostEvent} {s waiting t : State} (hs : Legal s)
    (h : hostTurn e s waiting = .host t) : Legal t := by
  obtain ⟨hf, hst⟩ := legal_iff.1 hs
  obtain ⟨i, v, rfl⟩ | ⟨i, v, rfl⟩ | ⟨i, v, rfl⟩ | ⟨i, v, rfl⟩ | ⟨i, v, rfl⟩ | ⟨sp, i, rfl⟩ | rfl := hostTurn_host h
  · cases hb : s.busy with
    | true => rw [hostWriteReg_busy hb]; exact hs
    | false => rw [hostWriteReg_idle hb]; exact { hs with }
  · unfold State.hostWriteText
    split
    · exact hs
    · next hi =>
      exact legal_iff.2 ⟨{ hf with }, { hst with text := hst.text.write (Nat.lt_of_not_le (not_or.1 hi).2) v }⟩
  · unfold State.hostWritePacked
    split
    · exact hs
    · next hi =>
      exact legal_iff.2 ⟨{ hf with }, { hst with packed := hst.packed.write (Nat.lt_of_not_le (not_or.1 hi).2) v }⟩
  · unfold State.hostWriteClen
    split
    · exact hs
    · next hi =>
      exact legal_iff.2 ⟨{ hf with }, { hst with
        clen := hst.clen.write (Nat.lt_of_not_le (not_or.1 hi).2) v
        clenZeroed := (Memory.zeroed_write ..).trans hst.clenZeroed }⟩
  · unfold State.hostWriteCbits
    split
    · exact hs
    · next hi =>
      exact legal_iff.2 ⟨{ hf with }, { hst with cbits := hst.cbits.write (Nat.lt_of_not_le (not_or.1 hi).2) v }⟩
  · exact legal_of_hostFrame hs (hostRead_frame s sp i)
  · exact legal_iff.2 ⟨{ flagsLegal_reset with }, StorageLegal.resetEvent s⟩

/-- Between commands the phase invariant asks nothing. -/
theorem phaseInvariant_of_idle {s : State} (h : s.phase = 0#5) : PhaseInvariant s := by
  unfold PhaseInvariant
  rw [h]
  trivial

end Sys2Proof.Machine
end

section
/-! PROOFS. The statements about the state, the commands and the host's accesses. -/

namespace Sys2Proof.Machine

open Sys2Proof.Safety

/-- Settles O50: a step runs the operation of `PHASE`, runs a written command word, or is a whole host action, and each
keeps the flags' and the storage part of the legal form. -/
theorem stepKeepsLegal : Obligations.StepKeepsLegal := by
  intro s t hs h
  rcases step_next h with ⟨i, u, hf, he⟩ | hf
  · obtain ⟨hframe, hd | ⟨v, rest, -, rfl⟩⟩ := fetch_run hf
    · have hphase : u.phase = s.phase := by rw [← hframe]
      exact exec_phase_keeps_legal (legal_of_hostFrame hs hframe) (hphase ▸ hd) he
    · exact exec_command_keeps_legal (legal_of_hostFrame hs hframe) he
  · obtain ⟨e, rest, -, ht⟩ := fetch_host hf
    refine hostTurn_keeps_legal ?_ ht
    exact { hs with }

/-- Settles O45: the value is that of `State.hostValue` where it gives one, and the next free value elsewhere. -/
theorem hostReadsReturnTheElement : Obligations.HostReadsReturnTheElement := by
  intro s sp i rest hin
  let u : State := { s with inputs := rest }
  have value : ∀ {v}, u.hostValue sp i = some v → (u.hostValue sp i).getD (drawnValue sp u.draws) = v :=
    fun h => by rw [h]; rfl
  have free (h : u.hostValue sp i = none) :
      (u.hostValue sp i).getD (drawnValue sp u.draws) = drawnValue sp s.draws ∧
        (u.hostRead sp i).draws = s.draws + 1 :=
    ⟨by rw [h]; rfl, hostRead_draws h⟩
  have frame := hostRead_frame u sp i
  refine ⟨u.hostRead sp i, _, step_read hin, congrArg State.inputs frame, hostRead_readData u sp i,
    congrArg (fun t : State => { t with inputs := s.inputs }) frame, ?_, ?_, ?_, ?_, ?_, ?_, ?_⟩
  · rintro rfl rfl; rfl
  · rintro rfl rfl; exact ⟨_, rfl, statusWord_bits s⟩
  · rintro rfl rfl; exact ⟨_, rfl, errWord_toNat s⟩
  · rintro rfl rfl; exact ⟨_, rfl, phaseWord_toNat s⟩
  · intro hb
    have register {r : Reg} : (if s.busy then none else some (HostData.word r)) = some (.word r) :=
      if_neg (by simp [hb])
    refine ⟨?_, ?_, ?_, ?_, ?_, ?_, ?_, ?_⟩
    · rintro rfl rfl; exact value register
    · rintro rfl rfl; exact value register
    · rintro rfl rfl; exact value register
    · rintro rfl rfl; exact value register
    · rintro rfl hi; exact value (hostValue_text hb hi)
    · rintro rfl hi; exact value (hostValue_packed hb hi)
    · rintro y rfl rfl; exact value (hostValue_clen hb y)
    · rintro y rfl rfl; exact value (hostValue_cbits hb y)
  · exact fun hb h => free (hostValue_busy hb h)
  · exact fun h => free (hostValue_outside u h)

/-- Settles O6: no element is listed after reset, so `CLEN` reads 0 and the other memories their free values. -/
theorem resetStateValues : Obligations.ResetStateValues :=
  ⟨rfl, rfl, rfl, rfl, rfl, rfl, rfl, fun _ => rfl, fun _ => rfl, fun _ => rfl, fun _ => rfl⟩

/-- Settles O9, by what the written word decodes to. -/
theorem cmdWriteStartsOrRejects : Obligations.CmdWriteStartsOrRejects := by
  intro s v rest hin
  let u : State := { s with inputs := rest }
  rw [step_command hin]
  refine ⟨fun hb => exec_command_busy (s := u) hb v, ?_, ?_, ?_, rfl⟩
  · rintro hb rfl; exact exec_compress_idle (s := u) hb
  · rintro hb rfl; exact exec_decompress_idle (s := u) hb
  · intro hb h1 h2
    obtain ⟨h, -⟩ | ⟨h, -⟩ | ⟨-, -, zero, op, hd⟩ := decodeCommand_cases v
    · exact absurd h h1
    · exact absurd h h2
    · rw [hd]; exact exec_illegal_idle (s := u) hb zero op

/-- Settles O10. -/
theorem commandsStartWhenIdle : Obligations.CommandsStartWhenIdle := fun _ =>
  ⟨fun hb => ⟨exec_compress_idle hb, exec_decompress_idle hb⟩,
    fun hb => ⟨exec_command_busy hb 0x00000001#32, exec_command_busy hb 0x00000002#32⟩⟩

/-- Settles O12: IDLE answers the state it is given. -/
theorem idleChangesNothing : Obligations.IdleChangesNothing := fun _ => rfl

/-- Settles O42. -/
theorem hostWritesDataRegisters : Obligations.HostWritesDataRegisters := by
  intro s i v rest hin hi hb
  let u : State := { s with inputs := rest }
  exact (step_writeReg hin hi).trans (congrArg Host.Outcome.next (hostWriteReg_idle (s := u) hb i v))

/-- Settles O49. -/
theorem resetIsLegal : Obligations.ResetIsLegal := legal_iff.2 ⟨flagsLegal_reset, storageLegal_reset⟩

/-- Settles O51: reset leaves the engine idle. -/
theorem resetMeetsThePhaseInvariant : Obligations.ResetMeetsThePhaseInvariant := phaseInvariant_of_idle rfl

end Sys2Proof.Machine
end

section
/-! SUPPORT. The engine's and the host's accesses to the memories: what each command keeps, and the stream through
`PACKED`. -/

namespace Sys2Proof.Machine

open Sys2Proof.Safety

/-! ## Inputs of a command -/

section
variable {s t : State} {i : Instr}

/-- COMPRESS writes neither `TEXT` nor `TEXT_LEN` (20_memory.md R62). -/
theorem compress_keeps_text (hi : i ∈ compressOps) (h : exec i s = .next t) :
    t.text = s.text ∧ t.textLen = s.textLen := by
  cases i with
  | cStart => rcases cStart_next h with rfl | rfl | rfl <;> exact ⟨rfl, rfl⟩
  | ftBuild => obtain ⟨-, rfl⟩ := ftBuild_next h; exact ⟨rfl, rfl⟩
  | tbLoad => rw [← (tbLoad_frame h).1]; exact ⟨rfl, rfl⟩
  | tbMerge => rw [← (tbMerge_frame h).1]; exact ⟨rfl, rfl⟩
  | tbWrap => rw [← (tbWrap_frame h).1]; exact ⟨rfl, rfl⟩
  | tbFinish => rw [← (tbFinish_frame h).1]; exact ⟨rfl, rfl⟩
  | caAssign => rw [← (caAssign_frame h).1]; exact ⟨rfl, rfl⟩
  | bpConcat => obtain ⟨-, _, _, rfl⟩ := bpConcat_next h; exact ⟨rfl, rfl⟩
  | bpPad => obtain ⟨_, rfl | ⟨_, rfl⟩⟩ := bpPad_next h <;> exact ⟨rfl, rfl⟩
  | bpPack => obtain ⟨-, rfl⟩ := bpPack_next h; exact ⟨rfl, rfl⟩
  | _ => simp [compressOps] at hi

/-- DECOMPRESS writes at most the flags, `PHASE`, the text and the decoder's own state (20_memory.md R62). -/
theorem decompress_frame (hi : i ∈ decompressOps) (h : exec i s = .next t) :
    { scanned s t with bits := s.bits, rev := s.rev } = s := by
  cases i with
  | dStart => rcases dStart_next h with rfl | rfl | rfl | rfl <;> rfl
  | dMapcheck => rcases dMapcheck_next h with rfl | rfl <;> rfl
  | dInvert => cases dInvert_next h; rfl
  | dMeta => rcases dMeta_next h with rfl | rfl <;> rfl
  | buUnpack => cases buUnpack_next h; rfl
  | srScan => rw [(srScan_frame h).1]
  | _ => simp [decompressOps] at hi

end

/-! ## The stream through `PACKED` -/

/-- Bit n of the bytes BP.PACK wrote is bit n of the stream (20_memory.md R51, R52). -/
theorem streamBit_packed {s t : State} (h : exec .bpPack s = .next t) {n : Nat} (hn : n < 8 * (s.bits.length / 8)) :
    t.streamBit n = s.bits.getD n false := by
  obtain ⟨-, rfl⟩ := bpPack_next h
  have hj : n / 8 < s.bits.length / 8 := Nat.div_lt_of_lt_mul hn
  have byte : (s.packed.writeRange (packByte s.bits) (s.bits.length / 8)).read Config.freePacked (n / 8) =
      packByte s.bits (n / 8) := by
    rw [Memory.read_writeRange, if_pos hj]
  have bit := packByte_bit s.bits (n / 8) (Nat.mod_lt n (by decide))
  rw [Nat.div_add_mod] at bit
  simp only [State.streamBit, State.packedAt, State.complete_packed, byte, bit]
  cases s.bits.getD n false <;> rfl

/-! ## Host writes to the memories -/

section
variable {s : State}

/-! While busy they have no effect (70_reset_and_hazards.md R180). -/

theorem hostWriteText_busy (hb : s.busy = true) (i : Nat) (v : Byte) : s.hostWriteText i v = s := if_pos (.inl hb)

theorem hostWritePacked_busy (hb : s.busy = true) (i : Nat) (v : Byte) : s.hostWritePacked i v = s := if_pos (.inl hb)

theorem hostWriteClen_busy (hb : s.busy = true) (i : Nat) (v : Byte) : s.hostWriteClen i v = s := if_pos (.inl hb)

theorem hostWriteCbits_busy (hb : s.busy = true) (i : Nat) (v : CodeBits) : s.hostWriteCbits i v = s :=
  if_pos (.inl hb)

/-- `M[i] <- v` where M has n elements; a write past its end has no effect (20_memory.md R57). -/
def Memory.writeBelow {w : Nat} (n : Nat) (m : Memory w) (i : Nat) (v : BitVec w) : Memory w :=
  if n ≤ i then m else m.write i v

theorem Memory.read_writeBelow {w : Nat} (n : Nat) (m : Memory w) (free : Nat → Nat → BitVec w) (i j : Nat)
    (v : BitVec w) : (m.writeBelow n i v).read free j = if j = i ∧ i < n then v else m.read free j := by
  unfold Memory.writeBelow
  by_cases hi : n ≤ i
  · rw [if_pos hi, if_neg (by omega)]
  · rw [if_neg hi]
    by_cases hj : j = i
    · subst hj; rw [Memory.read_write_same, if_pos ⟨rfl, by omega⟩]
    · rw [Memory.read_write_ne _ _ _ hj, if_neg (hj ·.1)]

/-- Every symbol is below `ALPHA`, so no element of the code map store is past its end. -/
theorem Memory.read_writeBelow_symbol {w : Nat} (m : Memory w) (free : Nat → Nat → BitVec w) (i : Nat) (v : BitVec w)
    (y : Byte) : (m.writeBelow Config.ALPHA i v).read free y.toNat = if y.toNat = i then v else m.read free y.toNat := by
  rw [Memory.read_writeBelow]
  exact if_congr (and_iff_left_of_imp (· ▸ y.isLt)) rfl rfl

/-! While not busy they write below the memory's end (20_memory.md R50, R57). -/

theorem hostWriteText_idle (hb : s.busy = false) (i : Nat) (v : Byte) :
    s.hostWriteText i v = { s with text := s.text.writeBelow Config.NMAX i v } :=
  (if_congr (by simp [hb]) rfl rfl).trans (apply_ite (fun m => { s with text := m }) _ _ _).symm

theorem hostWritePacked_idle (hb : s.busy = false) (i : Nat) (v : Byte) :
    s.hostWritePacked i v = { s with packed := s.packed.writeBelow Config.PMAX i v } :=
  (if_congr (by simp [hb]) rfl rfl).trans (apply_ite (fun m => { s with packed := m }) _ _ _).symm

theorem hostWriteClen_idle (hb : s.busy = false) (i : Nat) (v : Byte) :
    s.hostWriteClen i v = { s with clen := s.clen.writeBelow Config.ALPHA i v } :=
  (if_congr (by simp [hb]) rfl rfl).trans (apply_ite (fun m => { s with clen := m }) _ _ _).symm

theorem hostWriteCbits_idle (hb : s.busy = false) (i : Nat) (v : CodeBits) :
    s.hostWriteCbits i v = { s with cbits := s.cbits.writeBelow Config.ALPHA i v } :=
  (if_congr (by simp [hb]) rfl rfl).trans (apply_ite (fun m => { s with cbits := m }) _ _ _).symm

/-- A step with a whole host action pending is that action. -/
theorem step_host {s t : State} {e : HostEvent} {rest : List HostEvent} (hin : s.inputs = e :: rest)
    (ht : hostTurn e { s with inputs := rest } s = .host t) : step s = .next t := by
  simp only [step, fetch, hin, ht]

end

end Sys2Proof.Machine
end

section
/-! PROOFS. The statements about the accesses to the memories. -/

namespace Sys2Proof.Machine

open Sys2Proof.Safety

/-- Settles O38: bit n of the bytes packed is bit n of the stream, and BU.UNPACK reads the first `BITCOUNT` of them. -/
theorem unpackInvertsPack : Obligations.UnpackInvertsPack := by
  intro s t u h8 hle hp hu
  have count : t.bitCount = s.bitCount := by obtain ⟨-, rfl⟩ := bpPack_next hp; rfl
  have bits : u.bits = (List.range s.bitCount.toNat).map t.streamBit := by rw [buUnpack_next hu, ← count]; rfl
  rw [bits]
  refine List.ext_getElem (by simpa using hle) fun n hn _ => ?_
  rw [List.length_map, List.length_range] at hn
  rw [List.getElem_map, List.getElem_range, streamBit_packed hp (by omega), List.getElem_take]
  exact List.getD_eq_getElem _ _ (by omega)

/-- Settles O46: the frame of every micro-operation leaves out the inputs of its command. -/
theorem commandsKeepTheirInputs : Obligations.CommandsKeepTheirInputs := by
  refine ⟨fun i hi s t h => compress_keeps_text hi h, fun i hi s t h => ?_⟩
  have frame := decompress_frame hi h
  rw [← frame]
  exact ⟨rfl, rfl, rfl, rfl, rfl, rfl, rfl, rfl, rfl, rfl, rfl, rfl⟩

/-- Settles O41: each of the four operations asks for its bound first. -/
theorem accessOutsideASpaceFaults : Obligations.AccessOutsideASpaceFaults := fun _ =>
  ⟨fun h => ⟨if_pos h, if_pos h⟩, fun h => if_pos h, fun h => if_pos h⟩

/-- Settles O43, by what a write below a memory's end leaves to be read. -/
theorem hostWritesOneElement : Obligations.HostWritesOneElement := by
  intro s i rest hb
  let u : State := { s with inputs := rest }
  refine ⟨fun v hin => ?_, fun v hin => ?_, fun v hin => ?_, fun v hin => ?_⟩
  · exact ⟨_, (step_host hin rfl).trans (congrArg _ (hostWriteText_idle (s := u) hb i v)),
      fun j => Memory.read_writeBelow _ _ _ i j v, rfl, rfl⟩
  · exact ⟨_, (step_host hin rfl).trans (congrArg _ (hostWritePacked_idle (s := u) hb i v)),
      fun j => Memory.read_writeBelow _ _ _ i j v, rfl, rfl⟩
  · exact ⟨_, (step_host hin rfl).trans (congrArg _ (hostWriteClen_idle (s := u) hb i v)),
      Memory.read_writeBelow_symbol _ _ i v, rfl, rfl⟩
  · exact ⟨_, (step_host hin rfl).trans (congrArg _ (hostWriteCbits_idle (s := u) hb i v)),
      Memory.read_writeBelow_symbol _ _ i v, rfl, rfl⟩

end Sys2Proof.Machine
end

section
/-! SUPPORT. What each micro-operation needs of the phase invariant, and what it leaves of it for the next. -/

namespace Sys2Proof.Machine

open Sys2Proof.Safety

/-- Micro-operation i stops nowhere in s, and leaves the phase invariant (30_encoding.md R82). -/
def Progresses (i : Instr) (s : State) : Prop := ∃ t, exec i s = .next t ∧ PhaseInvariant t

/-- The end of a command leaves nothing to be asked. -/
theorem phaseInvariant_complete (s : State) (e : ErrCode) : PhaseInvariant (s.complete e) := phaseInvariant_of_idle rfl

/-- The script and what the host has read have no part in the phase invariant. -/
theorem phaseInvariant_of_hostFrame {s t : State} {inputs readData draws} (h : PhaseInvariant s)
    (ht : { t with inputs := inputs, readData := readData, draws := draws } = s) : PhaseInvariant t := by
  subst ht; exact h

/-! ## The text and its table -/

theorem occurrences_le (s : State) (y : Byte) : occurrences s y ≤ s.textLen.toNat :=
  List.count_le_length.trans_eq (length_textSymbols s)

theorem alphabet_ne_nil {s : State} (h : TextAdmitted s) : alphabet s ≠ [] := by
  intro he
  have hsum := sum_alphabet s
  rw [he] at hsum
  exact h.1 (BitVec.eq_of_toNat_eq hsum.symm)

/-- A micro-operation of COMPRESS leaves an admitted text admitted. -/
theorem textAdmitted_exec {i : Instr} {s t : State} (hi : i ∈ compressOps) (h : exec i s = .next t)
    (hs : TextAdmitted s) : TextAdmitted t := by
  unfold TextAdmitted
  rw [(compress_keeps_text hi h).2]; exact hs

theorem textSymbols_exec {i : Instr} {s t : State} (hi : i ∈ compressOps) (h : exec i s = .next t) :
    t.textSymbols = s.textSymbols :=
  textSymbols_congr (compress_keeps_text hi h).1 (compress_keeps_text hi h).2

theorem occurrences_exec {i : Instr} {s t : State} (hi : i ∈ compressOps) (h : exec i s = .next t) :
    occurrences t = occurrences s := occurrences_congr (textSymbols_exec hi h)

theorem alphabet_exec {i : Instr} {s t : State} (hi : i ∈ compressOps) (h : exec i s = .next t) :
    alphabet t = alphabet s := alphabet_congr (textSymbols_exec hi h)

/-- A micro-operation of COMPRESS that leaves `FREQ` leaves the text's table. -/
theorem tableOfText_exec {i : Instr} {s t : State} (hi : i ∈ compressOps) (h : exec i s = .next t)
    (hf : t.freq = s.freq) (hs : TableOfText s) : TableOfText t := by
  refine ⟨textAdmitted_exec hi h hs.1, fun y => ?_⟩
  rw [occurrences_exec hi h, ← hs.2 y]
  unfold State.freqAt
  rw [hf]

/-- C.START admits a text (43_compress_bitpacker.md R118). -/
theorem cStart_progresses (s : State) : Progresses .cStart s := by
  by_cases hn : Config.NMAX < s.textLen.toNat
  · exact ⟨_, if_pos hn, phaseInvariant_complete _ _⟩
  · by_cases h0 : s.textLen = 0#32
    · exact ⟨_, (if_neg hn).trans (if_pos h0), phaseInvariant_complete _ _⟩
    · have admitted : TextAdmitted s := ⟨h0, Nat.le_of_not_lt hn⟩
      exact ⟨_, (if_neg hn).trans (if_neg h0), admitted⟩

/-- FT.BUILD leaves each symbol's number of occurrences in `FREQ` (40_frequency_table.md R90). -/
theorem freqAt_ftBuild {s t : State} (h : exec .ftBuild s = .next t) (y : Byte) :
    (t.freqAt y).toNat = occurrences s y := by
  obtain ⟨hn, rfl⟩ := ftBuild_next h
  have hlt : occurrences s y < 2 ^ 16 := (occurrences_le s y).trans_lt (Nat.lt_succ_of_le hn)
  have hread := read_foldl_countSymbol s.textSymbols s.freq.clear y
  rw [Memory.read_clear, BitVec.zero_add] at hread
  exact (congrArg BitVec.toNat hread).trans (Nat.mod_eq_of_lt hlt)

theorem ftBuild_progresses {s : State} (h : TextAdmitted s) : Progresses .ftBuild s := by
  obtain ⟨t, ht⟩ : ∃ t, exec .ftBuild s = .next t := ⟨_, if_neg (Nat.not_lt.2 h.2)⟩
  have table : TableOfText t := by
    refine ⟨textAdmitted_exec (by decide) ht h, fun y => ?_⟩
    rw [freqAt_ftBuild ht, occurrences_exec (by decide) ht]
  obtain ⟨-, rfl⟩ := ftBuild_next ht
  exact ⟨_, ht, table⟩

/-! ## The tree builder -/

/-- The keys of the text's table are the symbols that occur (40_frequency_table.md R91). -/
theorem keys_eq_alphabet {s : State} (h : TableOfText s) :
    (symbols.filter fun y => s.freqAt y != 0#16) = alphabet s := by
  refine List.filter_congr fun y _ => ?_
  rw [← h.2 y, Bool.eq_iff_iff, bne_iff_ne, bne_iff_ne]
  exact not_congr BitVec.toNat_inj.symm

/-- The one-leaf tree of a symbol with its frequency. -/
def leafOf (table : Byte → Nat) (y : Byte) : PrefixTree := .leaf y (table y)

theorem flatMap_syms_leafOf (table : Byte → Nat) (ys : List Byte) :
    (ys.map (leafOf table)).flatMap PrefixTree.syms = ys := by
  induction ys with
  | nil => rfl
  | cons y ys ih => exact congrArg (y :: ·) ih

/-- TB.LOAD answers where the table is not empty, with the leaves and the phase for their number
(41_tree_builder.md R97, R102). -/
theorem tbLoad_exists {s : State} (h : TableOfText s) :
    ∃ t, exec .tbLoad s = .next t ∧ (∀ n, cellAt t.node n = ((alphabet s)[n]?).map fun y => .leaf y (s.freqAt y)) ∧
      t.pq = List.range (alphabet s).length ∧ t.nnext = (alphabet s).length ∧ t.nleaf = (alphabet s).length ∧
      t.phase = phaseOf (if (alphabet s).length = 1 then .tbWrap else .tbMerge) := by
  obtain ⟨hcell, hpq, hnext, -⟩ := loadLeaves_spec s _ (keys_eq_alphabet h).symm
  have hpos := List.length_pos_of_ne_nil (alphabet_ne_nil h.1)
  simp only [exec, execTbLoad]
  generalize loadLeaves s = u at hcell hpq hnext ⊢
  rw [if_neg (by omega), ← hnext]
  rw [← hnext] at hpq
  split_ifs with h1
  · exact ⟨_, rfl, hcell, hpq, rfl, rfl, rfl⟩
  · exact ⟨_, rfl, hcell, hpq, rfl, rfl, rfl⟩

/-- TB.LOAD's leaves are a forest of one-leaf trees (41_tree_builder.md R97). -/
theorem forest_tbLoad {s t : State} (h : TableOfText s) (ht : exec .tbLoad s = .next t)
    (hcell : ∀ n, cellAt t.node n = ((alphabet s)[n]?).map fun y => .leaf y (s.freqAt y))
    (hpq : t.pq = List.range (alphabet s).length) (hnext : t.nnext = (alphabet s).length)
    (hleaf : t.nleaf = (alphabet s).length) : Forest t := by
  have hmem : Instr.tbLoad ∈ compressOps := by decide
  unfold Forest
  rw [occurrences_exec hmem ht, alphabet_exec hmem ht, hpq, hnext, hleaf]
  refine ⟨(alphabet s).map (leafOf (occurrences s)), ?_, ?_, ?_, rfl, ?_, fun n hn => ?_⟩
  · refine List.forall₂_of_length_eq_of_get (by simp) fun i h1 h2 => ?_
    have hi : i < (alphabet s).length := by simpa using h1
    have hc := hcell i
    rw [List.getElem?_eq_getElem hi] at hc
    simpa [leafOf, h.2] using Roots.leaf hc
  · intro l hl
    obtain ⟨y, -, rfl⟩ := List.mem_map.1 hl
    exact ⟨trivial, rfl⟩
  · rw [flatMap_syms_leafOf]
  · rw [List.length_range]; omega
  · rw [hcell, Option.isSome_map] at hn
    exact List.getElem?_eq_some_iff.1 (Option.eq_some_of_isSome hn) |>.1

theorem tbLoad_progresses {s : State} (h : TableOfText s) : Progresses .tbLoad s := by
  obtain ⟨t, ht, hcell, hpq, hnext, hleaf, hphase⟩ := tbLoad_exists h
  have forest := forest_tbLoad h ht hcell hpq hnext hleaf
  have table : TableOfText t := tableOfText_exec (by decide) ht (by rw [← (tbLoad_frame ht).1]) h
  have hpos := List.length_pos_of_ne_nil (alphabet_ne_nil h.1)
  refine ⟨t, ht, ?_⟩
  unfold PhaseInvariant
  rw [hphase]
  split_ifs with h1
  · exact ⟨table, forest, hleaf.trans h1⟩
  · exact ⟨table, forest, by rw [hpq, List.length_range]; omega⟩

/-- The trees of a queue of an arena, in the queue's order. -/
abbrev QueueRoots (s : State) (ts : List PrefixTree) : Prop :=
  List.Forall₂ (fun n t => Roots s.node (some n) t) s.pq ts

/-- PQ.EXTRACTMIN on a queue of roots takes one root with its tree (41_tree_builder.md R96). -/
theorem pqExtractMin_roots {s : State} {ts : List PrefixTree} (hr : QueueRoots s ts) (hq : s.pq.Nodup)
    (hne : s.pq ≠ []) :
    ∃ n u t ts', s.pqExtractMin = .ok (n, u) ∧ u = { s with pq := s.pq.filter fun x => x != n } ∧
      Roots s.node (some n) t ∧ QueueRoots u ts' ∧ ts.Perm (t :: ts') ∧ u.pq.length + 1 = s.pq.length := by
  obtain ⟨n, u, hu⟩ := pqExtractMin_exists hne fun m hm => by
    obtain ⟨t, -, ht⟩ := forall₂_mem hr m hm
    exact isSome_roots ht
  obtain ⟨hn, -, -, rfl⟩ := pqExtractMin_ok hu
  obtain ⟨t, ts', ht, hr', hperm⟩ := forall₂_filter hr hn hq
  exact ⟨n, _, t, ts', hu, rfl, ht, hr', hperm, length_filter_ne hq hn⟩

/-- The record TB.MERGE creates roots the two trees joined (41_tree_builder.md R98). -/
theorem roots_mergedNode {nodes : List (Nat × Node)} {a b k : Nat} {ta tb : PrefixTree}
    (ha : Roots nodes (some a) ta) (hb : Roots nodes (some b) tb)
    (hk : ∀ n, (cellAt nodes n).isSome = true → n < k) (hlt : ta.freq + tb.freq < 2 ^ 16) :
    Roots (putCell nodes k (mergedNode nodes a b)) (some k) (.node (ta.freq + tb.freq) ta tb) := by
  have h := Roots.node (cellAt_putCell_same nodes k (mergedNode nodes a b)) (roots_putCell hk ha) (roots_putCell hk hb)
  rwa [nodeFreq_roots ha, nodeFreq_roots hb, BitVec.toNat_ofNat, Nat.mod_eq_of_lt hlt] at h

/-- The record TB.WRAP creates roots the only leaf, on the left (41_tree_builder.md R99). -/
theorem roots_wrapNode {nodes : List (Nat × Node)} {l k : Nat} {t : PrefixTree} (hl : Roots nodes (some l) t)
    (hk : ∀ n, (cellAt nodes n).isSome = true → n < k) (hlt : t.freq < 2 ^ 16) :
    Roots (putCell nodes k (wrapNode nodes l)) (some k) (.node t.freq t .none) := by
  have h := Roots.node (cellAt_putCell_same nodes k (wrapNode nodes l)) (roots_putCell hk hl) .absent
  rwa [nodeFreq_roots hl, BitVec.toNat_ofNat, Nat.mod_eq_of_lt hlt] at h

theorem full_leaves_pos {t : PrefixTree} (h : t.full) : 1 ≤ t.leaves := (Nat.le_add_left 1 _).trans (full_depth h)

/-- A forest of full trees has no more trees than leaves. -/
theorem length_le_leaves {ts : List PrefixTree} (h : ∀ t ∈ ts, t.full) :
    ts.length ≤ (ts.flatMap PrefixTree.syms).length := by
  induction ts with
  | nil => exact Nat.le_refl 0
  | cons t ts ih =>
    have ht := full_leaves_pos (h t List.mem_cons_self)
    have hts := ih fun t ht => h t (List.mem_cons_of_mem _ ht)
    rw [List.flatMap_cons, List.length_append, length_syms, List.length_cons]
    omega

/-- The queue holds at most as many nodes as there are leaves. -/
theorem forest_queue_le {s : State} (h : Forest s) : s.pq.length ≤ s.nleaf := by
  obtain ⟨ts, hr, hw, hperm, hleaf, -⟩ := h
  rw [hr.length_eq, hleaf, ← hperm.length_eq]
  exact length_le_leaves fun t ht => (hw t ht).1

/-- The tree over two trees, of the sum of their frequencies (41_tree_builder.md R98). -/
def joined (ta tb : PrefixTree) : PrefixTree := .node (ta.freq + tb.freq) ta tb

/-- Joining two trees of a forest keeps full weighted trees over the same symbols (10_state.md R36). -/
theorem trees_joined {table : Byte → Nat} {keys : List Byte} {ts ts' : List PrefixTree} {ta tb : PrefixTree}
    (hp : ts.Perm (ta :: tb :: ts')) (hw : ∀ t ∈ ts, t.full ∧ t.weighted table)
    (hk : (ts.flatMap PrefixTree.syms).Perm keys) :
    (∀ t ∈ ts' ++ [joined ta tb], t.full ∧ t.weighted table) ∧
      ((ts' ++ [joined ta tb]).flatMap PrefixTree.syms).Perm keys := by
  replace hw : ∀ t ∈ ta :: tb :: ts', t.full ∧ t.weighted table := fun t ht => hw t (hp.mem_iff.2 ht)
  constructor
  · intro t ht
    rcases List.mem_append.1 ht with ht | ht
    · exact hw t (List.mem_cons_of_mem _ (List.mem_cons_of_mem _ ht))
    · obtain rfl := List.mem_singleton.1 ht
      obtain ⟨hfa, hwa⟩ := hw ta List.mem_cons_self
      obtain ⟨hfb, hwb⟩ := hw tb (List.mem_cons_of_mem _ List.mem_cons_self)
      exact ⟨⟨hfa, hfb⟩, rfl, hwa, hwb⟩
  · refine .trans ?_ ((hp.flatMap_right _).symm.trans hk)
    rw [List.flatMap_append, List.flatMap_singleton, joined, syms_node, List.flatMap_cons, List.flatMap_cons,
      ← List.append_assoc ta.syms]
    exact List.perm_append_comm

/-- No frequency of the forest is too large for its field (41_tree_builder.md R98). -/
theorem joined_freq_lt {s : State} {ts ts' : List PrefixTree} {ta tb : PrefixTree} (hT : TextAdmitted s)
    (hp : ts.Perm (ta :: tb :: ts')) (hw : ∀ t ∈ ts, t.full ∧ t.weighted (occurrences s))
    (hk : (ts.flatMap PrefixTree.syms).Perm (alphabet s)) : ta.freq + tb.freq < 2 ^ 16 := by
  have hsum := forest_freq hw hk
  rw [(hp.map _).sum_eq, List.map_cons, List.map_cons, List.sum_cons, List.sum_cons] at hsum
  have hlen : s.textLen.toNat ≤ 65535 := hT.2
  omega

/-- What TB.MERGE writes once its two nodes are taken (41_tree_builder.md R98). -/
theorem tbMerge_of_pqExtractMin {s s1 s2 : State} {a b : Nat} (h1 : s.pqExtractMin = .ok (a, s1))
    (h2 : s1.pqExtractMin = .ok (b, s2)) (hn : s2.nnext < Config.NODES) (hbelow : ∀ m ∈ s2.pq, m < s2.nnext) :
    ∃ t, exec .tbMerge s = .next t ∧ t.node = putCell s2.node s2.nnext (mergedNode s2.node a b) ∧
      t.pq = s2.pq ++ [s2.nnext] ∧ t.nnext = s2.nnext + 1 ∧ t.nleaf = s2.nleaf ∧
      t.phase = phaseOf (if 2 ≤ t.pq.length then .tbMerge else .tbFinish) := by
  simp only [exec, execTbMerge, h1, h2, if_neg (Nat.not_le.2 hn)]
  exact ⟨_, rfl, rfl, insertMember_end hbelow, rfl, rfl, rfl⟩

/-- TB.MERGE joins two trees of the forest (41_tree_builder.md R98). -/
theorem tbMerge_forest {s : State} (hL : Legal s) (hT : TextAdmitted s) (hF : Forest s) (h2 : 2 ≤ s.pq.length) :
    ∃ t, exec .tbMerge s = .next t ∧ Forest t ∧ t.pq.length + 1 = s.pq.length ∧
      t.phase = phaseOf (if 2 ≤ t.pq.length then .tbMerge else .tbFinish) := by
  have hle := forest_queue_le hF
  obtain ⟨ts, hr, hw, hperm, hleaf, hcount, halloc⟩ := hF
  have hnodup : s.pq.Nodup := hL.queueRising.imp Nat.ne_of_lt
  obtain ⟨a, s1, ta, ts1, e1, rfl, ha, hr1, hp1, hl1⟩ :=
    pqExtractMin_roots hr hnodup (List.ne_nil_of_length_pos (by omega))
  obtain ⟨b, s2, tb, ts2, e2, rfl, hb, hr2, hp2, hl2⟩ :=
    pqExtractMin_roots hr1 (hnodup.filter _) (List.ne_nil_of_length_pos (by omega))
  have hp : ts.Perm (ta :: tb :: ts2) := hp1.trans (hp2.cons ta)
  have hfits : s.nnext < 512 := by
    have hleaves : s.nleaf ≤ 256 := hL.nleafRange
    omega
  have hbelow : ∀ m ∈ (s.pq.filter fun x => x != a).filter fun x => x != b, m < s.nnext := fun m hm => by
    obtain ⟨t, -, ht⟩ := forall₂_mem hr2 m hm
    exact halloc m (isSome_roots ht)
  obtain ⟨t, ht, hnode, hpq, hnext, hnl, hphase⟩ := tbMerge_of_pqExtractMin e1 e2 hfits hbelow
  dsimp only at hnode hpq hnext hnl hl1 hl2
  have hlen : t.pq.length + 1 = s.pq.length := by
    rw [hpq, List.length_append, List.length_singleton]
    omega
  obtain ⟨hw', hperm'⟩ := trees_joined hp hw hperm
  refine ⟨t, ht, ?_, hlen, hphase⟩
  have hmem : Instr.tbMerge ∈ compressOps := by decide
  unfold Forest
  rw [occurrences_exec hmem ht, alphabet_exec hmem ht, hnode, hnext, hnl]
  refine ⟨ts2 ++ [joined ta tb], ?_, hw', hperm', hleaf, by omega, fun n hn => ?_⟩
  · rw [hpq]
    exact List.rel_append (hr2.imp fun _ _ h => roots_putCell halloc h)
      (.cons (roots_mergedNode ha hb halloc (joined_freq_lt hT hp hw hperm)) .nil)
  · by_cases hk : n = s.nnext
    · omega
    · rw [cellAt_putCell_ne _ _ hk] at hn
      exact Nat.lt_succ_of_lt (halloc n hn)

theorem tbMerge_progresses {s : State} (hL : Legal s) (hT : TableOfText s) (hF : Forest s) (h2 : 2 ≤ s.pq.length) :
    Progresses .tbMerge s := by
  obtain ⟨t, ht, forest, hlen, hphase⟩ := tbMerge_forest hL hT.1 hF h2
  have frame := (tbMerge_frame ht).1
  have table : TableOfText t := tableOfText_exec (by decide) ht (by rw [← frame]) hT
  have hnl : t.nleaf = s.nleaf := by rw [← frame]
  refine ⟨t, ht, ?_⟩
  unfold PhaseInvariant
  rw [hphase]
  split_ifs with h
  · exact ⟨table, forest, h⟩
  · have := forest_queue_le hF
    exact ⟨table, forest, by omega, by omega⟩

/-- When one node is left in the queue it roots the whole alphabet's tree (41_tree_builder.md R99, R100). -/
theorem pqExtractMin_last {s : State} (hL : Legal s) (hF : Forest s) (h1 : s.pq.length = 1) :
    ∃ n u t, s.pqExtractMin = .ok (n, u) ∧ u = { s with pq := s.pq.filter fun x => x != n } ∧
      Roots s.node (some n) t ∧ t.full ∧ t.weighted (occurrences s) ∧ t.syms.Perm (alphabet s) ∧
      t.freq = s.textLen.toNat ∧ t.leaves = s.nleaf := by
  obtain ⟨ts, hr, hw, hperm, hleaf, -⟩ := hF
  obtain ⟨n, u, t, ts', hu, hframe, ht, hr', hp, hl⟩ := pqExtractMin_roots hr (hL.queueRising.imp Nat.ne_of_lt)
    (List.ne_nil_of_length_pos (by omega))
  obtain rfl : ts' = [] := List.eq_nil_of_length_eq_zero (by rw [← hr'.length_eq]; omega)
  obtain rfl := List.perm_singleton.1 hp
  obtain ⟨hfull, hweight⟩ := hw t List.mem_cons_self
  have hfreq := forest_freq hw hperm
  rw [List.flatMap_singleton] at hperm
  exact ⟨n, u, t, hu, hframe, ht, hfull, hweight, hperm, by simpa using hfreq,
    by rw [← length_syms, hperm.length_eq, hleaf]⟩

theorem full_one_leaf {t : PrefixTree} (h : t.full) (h1 : t.leaves = 1) : ∃ y f, t = .leaf y f := by
  cases t with
  | none => exact h.elim
  | leaf y f => exact ⟨y, f, rfl⟩
  | node f l r =>
    have hl := full_leaves_pos h.1
    have hr := full_leaves_pos h.2
    simp only [PrefixTree.leaves] at h1
    omega

/-- A micro-operation of COMPRESS that leaves `ROOT` the root of the alphabet's tree leaves CA.ASSIGN what it needs
(41_tree_builder.md R103). -/
theorem phaseInvariant_finished {i : Instr} {s v : State} {t : PrefixTree} (hi : i ∈ compressOps)
    (hv : exec i s = .next v) (hphase : v.phase = phaseOf .caAssign) (hT : TextAdmitted s)
    (hroots : Roots v.node (some v.root) t) (hweight : t.weighted (occurrences s)) (hsyms : t.syms.Perm (alphabet s))
    (hfreq : t.freq = s.textLen.toNat) (hshape : (t.full ∧ 2 ≤ t.leaves) ∨ ∃ y f, t = .node f (.leaf y f) .none) :
    PhaseInvariant v := by
  unfold PhaseInvariant
  rw [hphase]
  refine ⟨textAdmitted_exec hi hv hT, t, hroots, ?_, ?_, ?_, hshape⟩
  · rwa [occurrences_exec hi hv]
  · rwa [alphabet_exec hi hv]
  · rwa [(compress_keeps_text hi hv).2]

theorem tbWrap_progresses {s : State} (hL : Legal s) (hT : TableOfText s) (hF : Forest s) (h1 : s.nleaf = 1) :
    Progresses .tbWrap s := by
  have hle := forest_queue_le hF
  have hne : s.pq.length = 1 := by
    obtain ⟨ts, hr, -, hperm, -⟩ := hF
    have hts : ts ≠ [] := by
      rintro rfl
      exact alphabet_ne_nil hT.1 hperm.nil_eq.symm
    have := List.length_pos_of_ne_nil hts
    rw [← hr.length_eq] at this
    omega
  obtain ⟨l, u, t, hu, rfl, hroots, hfull, hweight, hsyms, hfreq, hleaves⟩ := pqExtractMin_last hL hF hne
  obtain ⟨y, f, rfl⟩ := full_one_leaf hfull (hleaves.trans h1)
  obtain ⟨-, -, -, -, -, hcount, halloc⟩ := hF
  have hlt : f < 2 ^ 16 := by
    have hlen : s.textLen.toNat ≤ 65535 := hT.1.2
    have : f = s.textLen.toNat := hfreq
    omega
  have hfits : s.nnext < 512 := by omega
  have root := roots_wrapNode hroots halloc hlt
  obtain ⟨v, hv, hnode, hroot, hphase⟩ : ∃ v, exec .tbWrap s = .next v ∧
      v.node = putCell s.node s.nnext (wrapNode s.node l) ∧ v.root = s.nnext ∧ v.phase = phaseOf .caAssign := by
    simp only [exec, execTbWrap, hu, if_neg (Nat.not_le.2 hfits)]
    exact ⟨_, rfl, rfl, rfl, rfl⟩
  refine ⟨v, hv, phaseInvariant_finished (t := .node f (.leaf y f) .none) (by decide) hv hphase hT.1
    (by rw [hnode, hroot]; exact root) ?_ ?_ hfreq (.inr ⟨y, f, rfl⟩)⟩
  · exact ⟨rfl, hweight, trivial⟩
  · rw [syms_node]; exact hsyms

theorem tbFinish_progresses {s : State} (hL : Legal s) (hT : TableOfText s) (hF : Forest s) (h1 : s.pq.length = 1)
    (h2 : 2 ≤ s.nleaf) : Progresses .tbFinish s := by
  obtain ⟨n, u, t, hu, rfl, hroots, hfull, hweight, hsyms, hfreq, hleaves⟩ := pqExtractMin_last hL hF h1
  obtain ⟨v, hv, hnode, hroot, hphase⟩ : ∃ v, exec .tbFinish s = .next v ∧
      v.node = s.node ∧ v.root = n ∧ v.phase = phaseOf .caAssign := by
    simp only [exec, execTbFinish, hu]
    exact ⟨_, rfl, rfl, rfl, rfl⟩
  exact ⟨v, hv, phaseInvariant_finished (by decide) hv hphase hT.1 (by rw [hnode, hroot]; exact hroots) hweight hsyms
    hfreq (.inl ⟨hfull, hleaves.ge.trans' h2⟩)⟩

/-! ## The code assigner -/

/-- A finished tree is small enough for CA.ASSIGN's walk (41_tree_builder.md R103). -/
theorem finished_fits {t : PrefixTree} (hshape : (t.full ∧ 2 ≤ t.leaves) ∨ ∃ y f, t = .node f (.leaf y f) .none)
    (hle : t.leaves ≤ 256) : t.size ≤ 512 ∧ ∀ p ∈ t.paths, (leafCode p.2).length ≤ Config.LMAX := by
  have bounds : t.size ≤ 512 ∧ t.depth ≤ Config.LMAX := by
    rcases hshape with ⟨hfull, -⟩ | ⟨y, f, rfl⟩
    · have hsize := full_size hfull
      have hdepth := full_depth hfull
      exact ⟨by omega, by show t.depth ≤ 255; omega⟩
    · exact ⟨by simp [PrefixTree.size], by simp [PrefixTree.depth]⟩
  exact ⟨bounds.1, fun p hp => length_leafCode_le ((length_path_le_depth t p hp).trans bounds.2) (by decide)⟩

section
variable {s : State} {t : PrefixTree} (hn : t.syms.Nodup) (hlen : ∀ p ∈ t.paths, (leafCode p.2).length ≤ Config.LMAX)
include hn hlen

/-- After the walk exactly the tree's symbols have a code (42_code_assigner.md R110). -/
theorem clenAt_writeLeaves_ne_zero (y : Byte) : (writeLeaves s.clearMap t.paths).clenAt y ≠ 0#8 ↔ y ∈ t.syms := by
  obtain ⟨written, others⟩ := code_writeLeaves s.clearMap hn hlen
  constructor
  · intro h
    by_contra hy
    exact h ((others y hy).1.trans (Memory.read_clear ..))
  · intro hy h
    obtain ⟨p, hp, rfl⟩ := List.mem_map.1 hy
    have hzero := (written p hp).2
    rw [h] at hzero
    exact leafCode_ne_nil p.2 (List.eq_nil_of_length_eq_zero hzero.symm)

/-- No code of a tree's leaves begins another's (42_code_assigner.md R113). -/
theorem prefixFree_writeLeaves : (writeLeaves s.clearMap t.paths).prefixFree = true := by
  refine prefixFree_iff.2 fun y z hne hy hz => ?_
  obtain ⟨p, hp, rfl⟩ := List.mem_map.1 ((clenAt_writeLeaves_ne_zero hn hlen y).1 hy)
  obtain ⟨q, hq, rfl⟩ := List.mem_map.1 ((clenAt_writeLeaves_ne_zero hn hlen z).1 hz)
  obtain ⟨written, -⟩ := code_writeLeaves s.clearMap hn hlen
  rw [(written p hp).1, (written q hq).1]
  exact leafCodes_not_prefix hn hp hq hne

end

theorem caAssign_progresses {s : State} (hT : TextAdmitted s) (hF : FinishedTree s) : Progresses .caAssign s := by
  obtain ⟨t, hroots, -, hsyms, -, hshape⟩ := hF
  have hn : t.syms.Nodup := hsyms.nodup_iff.2 (alphabet_nodup s)
  obtain ⟨hsize, hlen⟩ := finished_fits hshape (by
    rw [← length_syms, hsyms.length_eq]; exact alphabet_length_le s)
  obtain ⟨v, hv, hclen, hprefix, hphase⟩ : ∃ v, exec .caAssign s = .next v ∧
      v.clenAt = (writeLeaves s.clearMap t.paths).clenAt ∧ v.prefixFree = (writeLeaves s.clearMap t.paths).prefixFree ∧
      v.phase = phaseOf .bpConcat := by
    simp only [exec, execCaAssign, walk_root s t hroots hsize hlen]
    exact ⟨_, rfl, rfl, rfl, rfl⟩
  refine ⟨v, hv, ?_⟩
  unfold PhaseInvariant
  rw [hphase]
  refine ⟨textAdmitted_exec (by decide) hv hT, fun y => ?_, ?_⟩
  · rw [hclen, textSymbols_exec (by decide) hv, clenAt_writeLeaves_ne_zero hn hlen, hsyms.mem_iff, mem_alphabet]
  · rw [hprefix, prefixFree_writeLeaves hn hlen]

/-! ## The bit packer -/

/-- The stream has at most `LMAX` bits for each symbol (43_compress_bitpacker.md R119). -/
theorem length_encodedText_le (s : State) : (encodedText s).length ≤ s.textLen.toNat * 255 := by
  unfold encodedText
  rw [List.length_flatMap, ← length_textSymbols s]
  refine (List.sum_le_card_nsmul _ 255 fun n hn => ?_).trans_eq (by simp)
  obtain ⟨y, -, rfl⟩ := List.mem_map.1 hn
  rw [length_code]
  exact Nat.le_of_lt_succ (s.clenAt y).isLt

theorem bpConcat_progresses {s : State} (hT : TextAdmitted s) (hM : EncoderMap s) : Progresses .bpConcat s := by
  refine ⟨_, if_neg (Nat.not_lt.2 hT.2), ?_⟩
  have hlt : (encodedText s).length < 2 ^ 32 := by
    have hle := length_encodedText_le s
    have hlen : s.textLen.toNat ≤ 65535 := hT.2
    omega
  unfold PhaseInvariant
  exact ⟨hT, hM, rfl, Nat.mod_eq_of_lt hlt⟩

theorem bpPad_progresses {s : State} (hT : TextAdmitted s) (hM : EncoderMap s) (hb : s.bits = encodedText s)
    (hc : s.bitCount.toNat = s.bits.length) : Progresses .bpPad s := by
  by_cases h : Config.PMAX < (s.bitCount.toNat + padding s.bitCount.toNat) / 8
  · exact ⟨_, if_pos h, phaseInvariant_complete _ _⟩
  · refine ⟨_, if_neg h, ?_⟩
    have hpad : (BitVec.ofNat 32 (padding s.bitCount.toNat)).toNat = padding s.bitCount.toNat :=
      Nat.mod_eq_of_lt ((padding_le _).trans_lt (by decide))
    unfold PhaseInvariant
    refine ⟨hT, hM, ?_, hc.trans (congrArg _ hb), hpad, ?_⟩
    · exact congrArg₂ (· ++ List.replicate · false) hb hpad.symm
    · show (s.bits ++ List.replicate (padding s.bitCount.toNat) false).length / 8 ≤ Config.PMAX
      rw [List.length_append, List.length_replicate, ← hc]
      exact Nat.le_of_not_lt h

theorem bpPack_progresses {s : State} (h : s.bits.length / 8 ≤ Config.PMAX) : Progresses .bpPack s :=
  ⟨_, if_neg (Nat.not_lt.2 h), phaseInvariant_complete _ _⟩

/-! ## DECOMPRESS -/

theorem dStart_progresses (s : State) : Progresses .dStart s := by
  by_cases hn : Config.PMAX < s.packedLen.toNat
  · exact ⟨_, if_pos hn, phaseInvariant_complete _ _⟩
  · by_cases he : s.mapEmpty ∧ s.packedLen = 0#32
    · by_cases hz : s.padBits = 0#32 ∧ s.bitCount = 0#32
      · exact ⟨_, (if_neg hn).trans ((if_pos he).trans (if_pos hz)), phaseInvariant_complete _ _⟩
      · exact ⟨_, (if_neg hn).trans ((if_pos he).trans (if_neg hz)), phaseInvariant_complete _ _⟩
    · have hle : s.packedLen.toNat ≤ Config.PMAX := Nat.le_of_not_lt hn
      exact ⟨_, (if_neg hn).trans (if_neg he), hle⟩

theorem dMapcheck_progresses {s : State} (hn : s.packedLen.toNat ≤ Config.PMAX) : Progresses .dMapcheck s := by
  by_cases he : s.mapEmpty ∨ s.packedLen = 0#32
  · exact ⟨_, if_pos he, phaseInvariant_complete _ _⟩
  · by_cases hp : s.prefixFree
    · refine ⟨_, (if_neg he).trans (if_pos hp), ?_⟩
      unfold PhaseInvariant
      exact ⟨hn, (not_or.1 he).2, hp⟩
    · exact ⟨_, (if_neg he).trans (if_neg hp), phaseInvariant_complete _ _⟩

/-- Codes none of which begins another are distinct, so the reverse map exists (44_decompress.md R133). -/
theorem codesDistinct_of_prefixFree {s : State} (h : s.prefixFree = true) : s.codesDistinct = true :=
  codesDistinct_iff.2 fun y z hne hy hz he => prefixFree_iff.1 h y z hne hy hz (he ▸ List.prefix_refl _)

theorem dInvert_progresses {s : State} (hn : s.packedLen.toNat ≤ Config.PMAX) (h0 : s.packedLen ≠ 0#32)
    (hp : s.prefixFree = true) : Progresses .dInvert s := by
  have hd := codesDistinct_of_prefixFree hp
  refine ⟨_, if_pos hd, ?_⟩
  unfold PhaseInvariant
  refine ⟨hn, h0, hp, fun b y => ?_⟩
  have distinct := codesDistinct_iff.1 hd
  refine (revLookup_map (fun y hy z hz hne => distinct y z hne (mem_present.1 hy) (mem_present.1 hz)) b y).trans ?_
  rw [mem_present]
  rfl

theorem dMeta_progresses {s : State} (hn : s.packedLen.toNat ≤ Config.PMAX) (hp : s.prefixFree = true)
    (hi : Inverted s) : Progresses .dMeta s := by
  by_cases h : 7 < s.padBits.toNat ∨ s.bitCount.toNat + s.padBits.toNat ≠ 8 * s.packedLen.toNat
  · exact ⟨_, if_pos h, phaseInvariant_complete _ _⟩
  · obtain ⟨hpad, hlen⟩ := not_or.1 h
    refine ⟨_, if_neg h, ?_⟩
    unfold PhaseInvariant
    exact ⟨hn, hp, hi, Nat.le_of_not_lt hpad, not_not.1 hlen⟩

theorem buUnpack_progresses {s : State} (hn : s.packedLen.toNat ≤ Config.PMAX) (hp : s.prefixFree = true)
    (hi : Inverted s) (hlen : s.bitCount.toNat + s.padBits.toNat = 8 * s.packedLen.toNat) :
    Progresses .buUnpack s := by
  have hfits : s.bitCount.toNat ≤ 8 * Config.PMAX := by omega
  refine ⟨_, if_neg (Nat.not_lt.2 hfits), ?_⟩
  unfold PhaseInvariant
  exact ⟨hp, hi, rfl⟩

theorem srScan_progresses (s : State) : Progresses .srScan s := by
  obtain ⟨-, e, -, hend⟩ := srScan_frame (s := s) rfl
  exact ⟨_, rfl, phaseInvariant_of_idle hend.phase⟩

/-! ## The kinds of step -/

/-- A phase code that occurs is that of an operation (30_encoding.md R74). -/
theorem decode_phase_occurs {p : PhaseCode} (h : p.toNat ≤ 16) : ∃ i, decode (.phase p) = .ok i := by
  have all : ∀ p : PhaseCode, p.toNat ≤ 16 → (decode (.phase p)).isOk = true := by decide
  specialize all p h
  cases hd : decode (.phase p) with
  | ok i => exact ⟨i, rfl⟩
  | error r => rw [hd] at all; cases all

/-- Every micro-operation goes on or ends its command where the invariants hold. -/
theorem exec_phase_progresses {s : State} {i : Instr} (hL : Legal s) (hP : PhaseInvariant s)
    (hd : decode (.phase s.phase) = .ok i) : Progresses i s := by
  unfold PhaseInvariant at hP
  simp only [decode, decodePhase] at hd
  split at hd <;> cases hd
  all_goals rename_i hp; rw [hp] at hP
  case h_1 => exact ⟨s, rfl, phaseInvariant_of_idle (BitVec.eq_of_toNat_eq hp)⟩
  case h_2 => exact cStart_progresses s
  case h_3 => exact ftBuild_progresses hP
  case h_4 => exact tbLoad_progresses hP
  case h_5 => obtain ⟨hT, hF, h2⟩ := hP; exact tbMerge_progresses hL hT hF h2
  case h_6 => obtain ⟨hT, hF, h1⟩ := hP; exact tbWrap_progresses hL hT hF h1
  case h_7 => obtain ⟨hT, hF, h1, h2⟩ := hP; exact tbFinish_progresses hL hT hF h1 h2
  case h_8 => obtain ⟨hT, hF⟩ := hP; exact caAssign_progresses hT hF
  case h_9 => obtain ⟨hT, hM⟩ := hP; exact bpConcat_progresses hT hM
  case h_10 => obtain ⟨hT, hM, hb, hc⟩ := hP; exact bpPad_progresses hT hM hb hc
  case h_11 => obtain ⟨-, -, -, -, -, hn⟩ := hP; exact bpPack_progresses hn
  case h_12 => exact dStart_progresses s
  case h_13 => exact dMapcheck_progresses hP
  case h_14 => obtain ⟨hn, h0, hf⟩ := hP; exact dInvert_progresses hn h0 hf
  case h_15 => obtain ⟨hn, -, hf, hi⟩ := hP; exact dMeta_progresses hn hf hi
  case h_16 => obtain ⟨hn, hf, hi, -, hl⟩ := hP; exact buUnpack_progresses hn hf hi hl
  case h_17 => exact srScan_progresses s

/-- While no command runs `PHASE` is `IDLE` (10_state.md R25). -/
theorem phase_of_idle {s : State} (hL : Legal s) (hb : s.busy = false) : s.phase = 0#5 := by
  by_contra h
  exact Bool.false_ne_true (hb.symm.trans (hL.busyPhase.2 h))

/-- The write of any word to `CMD` answers, and meets the phase invariant. -/
theorem exec_command_progresses {s : State} (hL : Legal s) (hP : PhaseInvariant s) (v : Reg) :
    Progresses (decodeCommand v) s := by
  cases hb : s.busy with
  | true => exact ⟨s, exec_command_busy hb v, hP⟩
  | false =>
    obtain ⟨-, hd⟩ | ⟨-, hd⟩ | ⟨-, -, zero, op, hd⟩ := decodeCommand_cases v <;> rw [hd]
    · exact ⟨_, exec_compress_idle hb, trivial⟩
    · exact ⟨_, exec_decompress_idle hb, trivial⟩
    · have h0 : s.phase = 0#5 := phase_of_idle hL hb
      exact ⟨_, exec_illegal_idle hb zero op, phaseInvariant_of_idle (s := s.rejectCommand) h0⟩

/-- What has no effect while busy and leaves `PHASE` alone while idle keeps the phase invariant. -/
theorem phaseInvariant_hostWrite {s t : State} (hL : Legal s) (hP : PhaseInvariant s) (busy : s.busy = true → t = s)
    (idle : s.busy = false → t.phase = s.phase) : PhaseInvariant t := by
  cases hb : s.busy with
  | true => rw [busy hb]; exact hP
  | false => exact phaseInvariant_of_idle ((idle hb).trans (phase_of_idle hL hb))

/-- Every whole host action keeps the phase invariant. -/
theorem hostTurn_keeps_phaseInvariant {e : HostEvent} {s waiting t : State} (hL : Legal s) (hP : PhaseInvariant s)
    (h : hostTurn e s waiting = .host t) : PhaseInvariant t := by
  obtain ⟨i, v, rfl⟩ | ⟨i, v, rfl⟩ | ⟨i, v, rfl⟩ | ⟨i, v, rfl⟩ | ⟨i, v, rfl⟩ | ⟨sp, i, rfl⟩ | rfl := hostTurn_host h
  · exact phaseInvariant_hostWrite hL hP (hostWriteReg_busy · i v) fun hb => by rw [hostWriteReg_idle hb]
  · exact phaseInvariant_hostWrite hL hP (hostWriteText_busy · i v) fun hb => by rw [hostWriteText_idle hb]
  · exact phaseInvariant_hostWrite hL hP (hostWritePacked_busy · i v) fun hb => by rw [hostWritePacked_idle hb]
  · exact phaseInvariant_hostWrite hL hP (hostWriteClen_busy · i v) fun hb => by rw [hostWriteClen_idle hb]
  · exact phaseInvariant_hostWrite hL hP (hostWriteCbits_busy · i v) fun hb => by rw [hostWriteCbits_idle hb]
  · exact phaseInvariant_of_hostFrame hP (hostRead_frame s sp i)
  · exact phaseInvariant_of_idle rfl

/-- The engine's turn finds an operation where the phase code occurs. -/
theorem engineTurn_ne_stop {s : State} {r : Refusal} (h : s.phase.toNat ≤ 16) : engineTurn s ≠ .stop r := by
  obtain ⟨i, hd⟩ := decode_phase_occurs h
  simp [engineTurn, hd]

/-- The fetch always finds something to do where the phase code occurs. -/
theorem fetch_ne_stop {s : State} {r : Refusal} (h : s.phase.toNat ≤ 16) : fetch s ≠ .stop r := by
  unfold fetch
  split
  · exact engineTurn_ne_stop h
  · next e rest _ =>
    cases e with
    | writeReg i v => simp only [hostTurn]; split <;> exact fun he => nomatch he
    | engine => exact engineTurn_ne_stop (s := { s with inputs := rest }) h
    | wait =>
      simp only [hostTurn]
      split
      · exact fun he => nomatch he
      · exact engineTurn_ne_stop (by rw [show _ = s.phase from congrArg State.phase (hostRead_frame s .reg 1)]; exact h)
    | _ => exact fun he => nomatch he

end Sys2Proof.Machine
end

section
/-! PROOFS. The statement that the engine never stops. -/

namespace Sys2Proof.Machine

open Sys2Proof.Safety

/-- Settles O52: a step runs the operation of `PHASE`, runs a written command word, or is a whole host action; each
answers and keeps the phase invariant. -/
theorem engineNeverStops : Obligations.EngineNeverStops := by
  intro s hL hP
  cases hf : fetch s with
  | run i u =>
    obtain ⟨hframe, hi⟩ := fetch_run hf
    have hLu : Legal u := legal_of_hostFrame hL hframe
    have hPu : PhaseInvariant u := phaseInvariant_of_hostFrame hP hframe
    have progress : Progresses i u := by
      rcases hi with hd | ⟨v, -, -, rfl⟩
      · have hphase : u.phase = s.phase := by rw [← hframe]
        exact exec_phase_progresses hLu hPu (hphase ▸ hd)
      · exact exec_command_progresses hLu hPu v
    obtain ⟨t, ht, hPt⟩ := progress
    exact ⟨t, by simp only [step, hf, ht], hPt⟩
  | host t =>
    obtain ⟨e, rest, -, ht⟩ := fetch_host hf
    refine ⟨t, by simp only [step, hf], hostTurn_keeps_phaseInvariant ?_ ?_ ht⟩
    · exact { hL with }
    · exact hP
  | stop r => exact absurd hf (fetch_ne_stop hL.phaseOccurs)

end Sys2Proof.Machine
end

section
/-! SUPPORT. The command decoder and the phase decoder against the encoder, and the operation a step fetches. -/

namespace Sys2Proof.Machine

open Sys2Proof.Safety

/-! ## Command words -/

/-- A command word is its two fields, `zero` above `op` (30_encoding.md R71). -/
theorem append_eq_command_iff {zero : BitVec 24} {op : BitVec 8} {v : Reg} :
    zero ++ op = v ↔ zero = v.extractLsb' 8 24 ∧ op = v.extractLsb' 0 8 := by
  constructor
  · rintro rfl
    exact ⟨BitVec.extractLsb'_append_eq_left.symm, BitVec.extractLsb'_append_eq_right.symm⟩
  · rintro ⟨rfl, rfl⟩
    exact BitVec.extractLsb'_append_extractLsb'

/-- The ILLEGAL row has every word but the two command words (30_encoding.md R73). -/
theorem illegal_wellFormed_iff {zero : BitVec 24} {op : BitVec 8} :
    (Instr.illegal zero op).wellFormed = true ↔ zero ++ op ≠ 0x00000001#32 ∧ zero ++ op ≠ 0x00000002#32 := by
  have word (k : BitVec 8) : zero ++ op = 0#24 ++ k ↔ zero = 0#24 ∧ op = k := by
    rw [append_eq_command_iff, BitVec.extractLsb'_append_eq_left, BitVec.extractLsb'_append_eq_right]
  have compressWord : zero ++ op = 0x00000001#32 ↔ zero = 0#24 ∧ op = 1#8 := word 1#8
  have decompressWord : zero ++ op = 0x00000002#32 ↔ zero = 0#24 ∧ op = 2#8 := word 2#8
  rw [← not_or, compressWord, decompressWord, ← and_or_left]
  simp [Instr.wellFormed, imp_iff_not_or]

/-- A word of the ILLEGAL row decodes to its two fields (30_encoding.md R73). -/
theorem decodeCommand_illegal {zero : BitVec 24} {op : BitVec 8} (h : (Instr.illegal zero op).wellFormed = true) :
    decodeCommand (zero ++ op) = .illegal zero op := by
  obtain ⟨h1, h2⟩ := illegal_wellFormed_iff.1 h
  unfold decodeCommand
  rw [if_neg h1, if_neg h2, BitVec.extractLsb'_append_eq_left, BitVec.extractLsb'_append_eq_right]

/-- The operation of any command word is encoded as that word (30_encoding.md R71 to R73). -/
theorem encode_decodeCommand (v : Reg) :
    (decodeCommand v).wellFormed = true ∧ encode (decodeCommand v) = some (.command v) := by
  have fields : v.extractLsb' 8 24 ++ v.extractLsb' 0 8 = v := append_eq_command_iff.2 ⟨rfl, rfl⟩
  unfold decodeCommand
  split
  · next h => subst h; exact ⟨rfl, rfl⟩
  · next h1 =>
    split
    · next h => subst h; exact ⟨rfl, rfl⟩
    · next h2 =>
      exact ⟨illegal_wellFormed_iff.2 (fields.symm ▸ ⟨h1, h2⟩), congrArg (some ∘ OpWord.command) fields⟩

/-! ## Phase codes -/

/-- The operation of a phase code is encoded as that code (30_encoding.md R74). -/
theorem encode_decodePhase {p : PhaseCode} {i : Instr} (h : decodePhase p = .ok i) :
    i.wellFormed = true ∧ encode i = some (.phase p) := by
  have code {n : Nat} (hp : p.toNat = n) : BitVec.ofNat 5 n = p := by
    rw [← hp, BitVec.ofNat_toNat, BitVec.setWidth_eq]
  unfold decodePhase at h
  split at h <;> cases h
  all_goals next hp => exact ⟨rfl, congrArg (some ∘ OpWord.phase) (code hp)⟩

/-- The phase code of a micro-operation that `PHASE` selects is the value of `PHASE` (30_encoding.md R74). -/
theorem phaseOf_decode {p : PhaseCode} {i : Instr} (h : decode (.phase p) = .ok i) : phaseOf i = p := by
  unfold phaseOf
  rw [(encode_decodePhase h).2]

/-- The phase codes above that of SR.SCAN select nothing (30_encoding.md R74). -/
theorem decodePhase_unused {p : PhaseCode} (h : 17 ≤ p.toNat) : decodePhase p = .error (.phaseNeverOccurs p) := by
  unfold decodePhase
  split
  case h_18 => rfl
  all_goals omega

/-! ## The fetch -/

/-- A step with no host action pending stops where `PHASE` selects nothing. -/
theorem step_refused {s : State} {r : DecodeReject} (hin : s.inputs = []) (hd : decode (.phase s.phase) = .error r) :
    step s = .refused .phaseNeverOccurs := by
  simp only [step, fetch, hin, engineTurn, hd]

/-- With the engine's turn pending a step is that turn. -/
theorem step_engineEvent {s : State} {i : Instr} {rest : List HostEvent} (hin : s.inputs = .engine :: rest)
    (hd : decode (.phase s.phase) = .ok i) : step s = exec i { s with inputs := rest } := by
  simp only [step, fetch, hin, hostTurn, engineTurn, hd]

/-- A wait that does not find `DONE` is the engine's turn after the poll (00_scope.md R12). -/
theorem step_wait {s : State} {i : Instr} {rest : List HostEvent} (hin : s.inputs = .wait :: rest)
    (hdone : s.done = false) (hd : decode (.phase s.phase) = .ok i) :
    step s = exec i { s with readData := some (.word s.statusWord) } := by
  have poll : s.hostRead .reg 1 = { s with readData := some (.word s.statusWord) } := rfl
  simp only [step, fetch, hin, hostTurn, hdone, poll, engineTurn, hd, Bool.false_eq_true, if_false]

/-- A table word that decodes is of one of the two formats (30_encoding.md R70; log 20). -/
theorem decodeTableWord_some {nbits w : Nat} {i : Instr} (h : decodeTableWord nbits w = some i) :
    nbits = 32 ∧ i = decodeCommand (BitVec.ofNat 32 w) ∨
    nbits ≠ 32 ∧ decode (.phase (BitVec.ofNat 5 w)) = .ok i := by
  unfold decodeTableWord at h
  split at h
  · next h32 =>
    split at h <;> cases h
    exact .inl ⟨h32, rfl⟩
  · next h32 =>
    refine .inr ⟨h32, ?_⟩
    split at h
    · split at h
      · show decodePhase _ = _
        cases hd : decodePhase (BitVec.ofNat 5 w) with
        | ok j => rw [hd] at h; cases h; rfl
        | error r => rw [hd] at h; cases h
      · cases h
    · cases h

end Sys2Proof.Machine
end

section
/-! PROOFS. The statements about the encoding and the fetch. -/

namespace Sys2Proof.Machine

open Sys2Proof.Safety

/-- Settles O2: each of the two decoders is the encoder's inverse on its format, and every operation but the queue
primitives has a word. -/
theorem decodeInvertsEncode : Obligations.DecodeInvertsEncode := by
  refine ⟨fun i w hwf henc => ?_, fun i w hdec => ?_, fun i => ?_⟩
  · cases i with
    | illegal zero op => cases henc; exact congrArg Except.ok (decodeCommand_illegal hwf)
    | _ => cases henc <;> rfl
  · cases w with
    | command v => cases hdec; exact encode_decodeCommand v
    | phase p => exact encode_decodePhase hdec
  · cases i <;> simp [encode, Instr.format]

/-- Settles O1. -/
theorem specWordsDecode : Obligations.SpecWordsDecode :=
  ⟨rfl, rfl, rfl, rfl, rfl, rfl, rfl, rfl, rfl, rfl, rfl, rfl, rfl, rfl⟩

/-- Settles O3: each form of fetch finds the operation and leaves the state it is to run in. -/
theorem stepExecutesTheFetchedOperation : Obligations.StepExecutesTheFetchedOperation := by
  intro s i rest
  refine ⟨step_engine, step_engineEvent, step_wait, fun v hin hd => ?_⟩
  cases hd
  exact step_command hin

/-- Settles O4: a placed command word is the host's next write to `CMD`, and a placed phase code is fetched by the
engine's turn. -/
theorem placedTableWordRuns : Obligations.PlacedTableWordRuns := by
  intro s nbits w i h
  unfold State.withFetchWord
  obtain ⟨rfl, rfl⟩ | ⟨h32, hd⟩ := decodeTableWord_some h
  · exact step_command rfl
  · rw [if_neg h32, if_neg h32]
    exact step_engineEvent rfl hd

/-- Settles O5: the phase decoder rejects the code. -/
theorem unusedPhaseCodesRefused : Obligations.UnusedPhaseCodesRefused := fun _ hin hp =>
  step_refused hin (decodePhase_unused hp)

end Sys2Proof.Machine
end

section
/-! SUPPORT. The scan of a stretch of matches, and the codes of a map as matches. -/

namespace Sys2Proof.Machine

open Sys2Proof.Safety

/-- w is a code with the symbol the scan emits on reading it: nothing shorter that the code begins with has a match
(44_decompress.md R136). -/
structure ShortestMatch (rev : List (Bits × Byte)) (w : Bits × Byte) : Prop where
  ne_nil : w.1 ≠ []
  lookup : revLookup rev w.1 = some w.2
  shortest : ∀ p, p <+: w.1 → p ≠ [] → p ≠ w.1 → revLookup rev p = none

/-- The scan's state when it has emitted the first n of the symbols v, `BUF` being empty (44_decompress.md R136). -/
def emitted (s : State) (v : Nat → Byte) (n : Nat) : State :=
  { s with buf := [], outpos := n, text := s.text.writeRange v n }

/-- The scan of one match emits its symbol. -/
theorem scan_emitted_match {w : Bits × Byte} {s : State} {v : Nat → Byte} {n : Nat} (hw : ShortestMatch s.rev w)
    (hv : v n = w.2) (hn : n < Config.NMAX) (q : Bits) :
    scan (w.1 ++ q) (emitted s v n) = scan q (emitted s v (n + 1)) := by
  refine (scan_match (s := emitted s v n) q rfl hw.ne_nil hw.lookup hw.shortest).trans ?_
  refine (if_neg (Nat.ne_of_lt hn)).trans ?_
  rw [← hv]
  rfl

/-- The scan of a stretch of matches that fit in `TEXT` emits their symbols in order (44_decompress.md R136). -/
theorem scan_matches {ws : List (Bits × Byte)} (s : State) {v : Nat → Byte} (hw : ∀ w ∈ ws, ShortestMatch s.rev w)
    (hv : ∀ k, k < ws.length → (ws[k]?).map Prod.snd = some (v k)) (hfit : ws.length ≤ Config.NMAX) (q : Bits) :
    scan ((ws.map Prod.fst).flatten ++ q) (emitted s v 0) = scan q (emitted s v ws.length) := by
  induction ws using List.reverseRecOn generalizing q with
  | nil => rfl
  | append_singleton ws w ih =>
    rw [List.length_append, List.length_singleton] at hfit hv ⊢
    have before := ih (fun x hx => hw x (List.mem_append_left _ hx))
      (fun k hk => by rw [← hv k (Nat.lt_succ_of_lt hk), List.getElem?_append_left hk]) (Nat.le_of_succ_le hfit)
      (w.1 ++ q)
    have hsym : v ws.length = w.2 := by simpa using (hv ws.length (Nat.lt_succ_self _)).symm
    calc scan (((ws ++ [w]).map Prod.fst).flatten ++ q) (emitted s v 0)
        = scan ((ws.map Prod.fst).flatten ++ (w.1 ++ q)) (emitted s v 0) := by simp
      _ = scan (w.1 ++ q) (emitted s v ws.length) := before
      _ = scan q (emitted s v (ws.length + 1)) :=
        scan_emitted_match (hw w (List.mem_append_right _ List.mem_cons_self)) hsym hfit q

/-- Where no code begins another, each is a shortest match of the reverse map: what a code begins with and has a symbol
is the code itself (30_encoding.md R79). -/
theorem shortestMatch_code {s : State} (hp : s.prefixFree = true) (hi : Inverted s) {y : Byte} (hy : s.clenAt y ≠ 0#8) :
    ShortestMatch s.rev (s.code y, y) where
  ne_nil h := by
    have hlen : (s.clenAt y).toNat = 0 := (length_code s y).symm.trans (congrArg List.length h)
    exact hy (BitVec.eq_of_toNat_eq hlen)
  lookup := (hi _ _).2 ⟨hy, rfl⟩
  shortest p hpre _ hne := by
    by_contra h
    obtain ⟨z, hz⟩ := Option.ne_none_iff_exists'.1 h
    obtain ⟨hcz, rfl⟩ := (hi _ _).1 hz
    have hzy : z ≠ y := by rintro rfl; exact hne rfl
    exact prefixFree_iff.1 hp z y hzy hcz hy hpre

/-- SR.SCAN on a stream of matches that fit in `TEXT` completes with their symbols, the elements past them untouched
(44_decompress.md R136, R137). -/
theorem srScan_matches {ws : List (Bits × Byte)} {s : State} (hw : ∀ w ∈ ws, ShortestMatch s.rev w)
    (hfit : ws.length ≤ Config.NMAX) (hs : s.bits = (ws.map Prod.fst).flatten) :
    ∃ t, exec .srScan s = .next t ∧ Ended .none t ∧ t.textLen.toNat = ws.length ∧
      (∀ k, k < ws.length → (ws[k]?).map Prod.snd = some (t.textAt k)) ∧
      ∀ k, ws.length ≤ k → t.textAt k = s.textAt k := by
  let v (k : Nat) : Byte := ((ws[k]?).map Prod.snd).getD 0#8
  have hv : ∀ k, k < ws.length → (ws[k]?).map Prod.snd = some (v k) := fun k hk => by simp [v, hk]
  have hscan := scan_matches s hw hv hfit []
  rw [List.append_nil, ← hs] at hscan
  refine ⟨_, congrArg Host.Outcome.next hscan, ended_complete _ _, ?_, fun k hk => ?_, fun k hk => ?_⟩
  · exact Nat.mod_eq_of_lt (hfit.trans_lt (by decide))
  · rw [hv k hk]
    exact congrArg some ((Memory.read_writeRange ..).trans (if_pos hk)).symm
  · exact (Memory.read_writeRange ..).trans (if_neg (Nat.not_lt.2 hk))

end Sys2Proof.Machine
end

section
/-! SUPPORT. The micro-operation graph: what a step of a running command leads to, and how many are left. -/

namespace Sys2Proof.Machine

open Sys2Proof.Safety

/-- A micro-operation that can end its command has 0 among its successors (30_encoding.md R82). -/
theorem zero_mem_successors {i : Instr} (hi : i ∈ compressOps ++ decompressOps) {e : ErrCode} (he : e ∈ endCodes i) :
    0#5 ∈ successors i := by
  have ends : ∀ i ∈ compressOps ++ decompressOps, endCodes i ≠ [] → 0#5 ∈ successors i := by decide
  exact ends i hi (List.ne_nil_of_mem he)

/-- No micro-operation touches the host's script. -/
theorem exec_keeps_inputs {i : Instr} (hi : i ∈ compressOps ++ decompressOps) {s t : State} (h : exec i s = .next t) :
    t.inputs = s.inputs := by
  rcases List.mem_append.1 hi with hc | hd
  · cases i with
    | cStart => rcases cStart_next h with rfl | rfl | rfl <;> rfl
    | ftBuild => obtain ⟨-, rfl⟩ := ftBuild_next h; rfl
    | tbLoad => rw [← (tbLoad_frame h).1]
    | tbMerge => rw [← (tbMerge_frame h).1]
    | tbWrap => rw [← (tbWrap_frame h).1]
    | tbFinish => rw [← (tbFinish_frame h).1]
    | caAssign => rw [← (caAssign_frame h).1]
    | bpConcat => obtain ⟨-, _, _, rfl⟩ := bpConcat_next h; rfl
    | bpPad => obtain ⟨_, rfl | ⟨_, rfl⟩⟩ := bpPad_next h <;> rfl
    | bpPack => obtain ⟨-, rfl⟩ := bpPack_next h; rfl
    | _ => simp [compressOps] at hc
  · rw [← decompress_frame hd h]; rfl

/-- The most micro-operations left from a phase code to the end of the command, for a queue of at most 256 nodes where
it is TB.MERGE's (30_encoding.md R82, 41_tree_builder.md R98). -/
def phaseBound (p : PhaseCode) : Nat :=
  match p.toNat with
  | 1 => 263
  | 2 => 262
  | 3 => 261
  | 4 => 260
  | 5 => 5
  | 6 => 5
  | 7 => 4
  | 8 => 3
  | 9 => 2
  | 10 => 1
  | 11 => 6
  | 12 => 5
  | 13 => 4
  | 14 => 3
  | 15 => 2
  | 16 => 1
  | _ => 0

/-- The most micro-operations left to a running command: each merge takes one node from the queue, and after the last
come TB.FINISH, CA.ASSIGN and the three of the bit packer. -/
def stepsLeft (s : State) : Nat := if s.phase = 4#5 then s.pq.length + 4 else phaseBound s.phase

/-- Every edge of the graph but the merge loop's leads nearer to the end (30_encoding.md R82). -/
theorem phaseBound_lt_of_edge {i : Instr} (hi : i ∈ compressOps ++ decompressOps) (hm : i ≠ .tbMerge) {p : PhaseCode}
    (hp : p ∈ successors i) : phaseBound p < phaseBound (phaseOf i) := by
  have nearer : ∀ i ∈ compressOps ++ decompressOps, i ≠ .tbMerge →
      ∀ p ∈ successors i, phaseBound p < phaseBound (phaseOf i) := by decide
  exact nearer i hi hm p hp

/-- In a legal state that meets the phase invariant TB.MERGE's queue has at most 256 nodes. -/
theorem stepsLeft_le_phaseBound {s : State} (hL : Legal s) (hP : PhaseInvariant s) :
    stepsLeft s ≤ phaseBound s.phase := by
  unfold stepsLeft
  split
  · next h4 =>
    unfold PhaseInvariant at hP
    rw [h4] at hP ⊢
    obtain ⟨-, hF, -⟩ := hP
    have hle := (forest_queue_le hF).trans hL.nleafRange
    show s.pq.length + 4 ≤ 256 + 4
    exact Nat.add_le_add_right hle 4
  · exact Nat.le_refl _

theorem phaseBound_le (p : PhaseCode) : phaseBound p ≤ 263 := by
  have all : ∀ p : PhaseCode, phaseBound p ≤ 263 := by decide
  exact all p

theorem phaseBound_pos {p : PhaseCode} (h0 : p ≠ 0#5) (h : p.toNat ≤ 16) : 0 < phaseBound p := by
  have all : ∀ p : PhaseCode, p ≠ 0#5 → p.toNat ≤ 16 → 0 < phaseBound p := by decide
  exact all p h0 h

/-- One turn of the merge loop leaves fewer micro-operations (41_tree_builder.md R98). -/
theorem stepsLeft_tbMerge {s t : State} (hL : Legal s) (hP : PhaseInvariant s) (h4 : s.phase = 4#5)
    (h : exec .tbMerge s = .next t) : stepsLeft t < stepsLeft s := by
  unfold PhaseInvariant at hP
  rw [h4] at hP
  obtain ⟨hT, hF, h2⟩ := hP
  obtain ⟨u, hu, -, hlen, hphase⟩ := tbMerge_forest hL hT.1 hF h2
  cases hu.symm.trans h
  have hs : stepsLeft s = s.pq.length + 4 := if_pos h4
  by_cases hq : 2 ≤ t.pq.length
  · rw [if_pos hq] at hphase
    have ht : stepsLeft t = t.pq.length + 4 := if_pos hphase
    omega
  · rw [if_neg hq] at hphase
    have ht : stepsLeft t = 5 := by rw [stepsLeft, hphase]; rfl
    omega

/-- A command runs, the invariants hold and the host has no action pending. -/
structure Running (s : State) : Prop where
  legal : Legal s
  invariant : PhaseInvariant s
  phase : s.phase ≠ 0#5
  inputs : s.inputs = []

theorem stepsLeft_pos {s : State} (h : Running s) : 0 < stepsLeft s := by
  unfold stepsLeft
  split
  · exact Nat.succ_pos _
  · exact phaseBound_pos h.phase h.legal.phaseOccurs

/-- A step of a running command ends it, or goes on with fewer micro-operations left. -/
theorem step_running {s : State} (h : Running s) :
    ∃ t, step s = .next t ∧ ((∃ e, Ended e t) ∨ Running t ∧ stepsLeft t < stepsLeft s) := by
  obtain ⟨i, hd⟩ := decode_phase_occurs h.legal.phaseOccurs
  have hphase : phaseOf i = s.phase := phaseOf_decode hd
  have hi : i ∈ compressOps ++ decompressOps := (decode_phase_ok hd).resolve_left fun h0 => h.phase h0.1
  obtain ⟨t, ht, hP⟩ := exec_phase_progresses h.legal h.invariant hd
  refine ⟨t, (step_engine h.inputs hd).trans ht, ?_⟩
  rcases exec_goesOn_or_ends hi ht with ⟨-, hsucc, h0⟩ | ⟨e, -, hend⟩
  · have hL : Legal t := exec_phase_keeps_legal h.legal hd ht
    refine .inr ⟨⟨hL, hP, h0, (exec_keeps_inputs hi ht).trans h.inputs⟩, ?_⟩
    by_cases hm : i = .tbMerge
    · subst hm
      exact stepsLeft_tbMerge h.legal h.invariant hphase.symm ht
    · have h4 : s.phase ≠ 4#5 := by
        intro h4
        rw [h4] at hd
        cases hd
        exact hm rfl
      calc stepsLeft t ≤ phaseBound t.phase := stepsLeft_le_phaseBound hL hP
        _ < phaseBound (phaseOf i) := phaseBound_lt_of_edge hi hm hsucc
        _ = stepsLeft s := by rw [hphase, stepsLeft, if_neg h4]
  · exact .inl ⟨e, hend⟩

/-- A running command with at most n micro-operations left ends within n steps. -/
theorem runSteps_ends {n : Nat} {s : State} (h : Running s) (hn : stepsLeft s ≤ n) :
    ∃ k t e, k ≤ n ∧ runSteps k s = .next t ∧ Ended e t := by
  induction n generalizing s with
  | zero => exact absurd (stepsLeft_pos h) (Nat.not_lt.2 hn)
  | succ n ih =>
    obtain ⟨t, ht, ⟨e, hend⟩ | ⟨hrun, hlt⟩⟩ := step_running h
    · exact ⟨1, t, e, Nat.succ_pos n, runSteps_succ ht 0, hend⟩
    · obtain ⟨k, u, e, hk, hu, hend⟩ := ih hrun (Nat.le_of_lt_succ (hlt.trans_le hn))
      exact ⟨k + 1, u, e, Nat.succ_le_succ hk, (runSteps_succ ht k).trans hu, hend⟩

end Sys2Proof.Machine
end

section
/-! PROOFS. The statements about the scan of codes, the micro-operation graph and the end of every command. -/

namespace Sys2Proof.Machine

open Sys2Proof.Safety

/-- Settles O53: each micro-operation ends the command or leaves fewer of them, and no state leaves more than 263. -/
theorem everyCommandCompletes : Obligations.EveryCommandCompletes := by
  intro s hL hP hb hin
  have hleft : stepsLeft s ≤ 263 := (stepsLeft_le_phaseBound hL hP).trans (phaseBound_le _)
  obtain ⟨k, t, e, hk, ht, hend⟩ := runSteps_ends ⟨hL, hP, hL.busyPhase.1 hb, hin⟩ hleft
  exact ⟨k, t, hk, ht, hend.done, hend.busy, hend.phase⟩

/-- Settles O39: each code is a shortest match, so the scan reads the codes one by one. -/
theorem scanOfConcatenatedCodesReturnsTheSymbols : Obligations.ScanOfConcatenatedCodesReturnsTheSymbols := by
  intro s ys hp hi hys hfit hs
  let ws : List (Bits × Byte) := ys.map fun y => (s.code y, y)
  have hlen : ws.length = ys.length := List.length_map _
  obtain ⟨t, ht, hend, htext, hsym, -⟩ := srScan_matches (ws := ws) (s := s)
    (List.forall_mem_map.2 fun y hy => shortestMatch_code hp hi (hys y hy)) (hlen.trans_le hfit)
    (by rw [hs, List.map_map, List.flatMap_def]; rfl)
  refine ⟨t, ht, hend, htext.trans hlen, fun k hk => ?_⟩
  rw [← hsym k (hlen.symm ▸ hk)]
  simp [ws, Function.comp_def]

/-- Settles O48: a micro-operation that goes on does so along an edge, and one that ends its command may. -/
theorem phaseFollowsTheGraph : Obligations.PhaseFollowsTheGraph := by
  intro i hi s t h
  rcases exec_goesOn_or_ends hi h with ⟨-, hsucc, -⟩ | ⟨e, he, hend⟩
  · exact hsucc
  · rw [hend.phase]
    exact zero_mem_successors hi he

end Sys2Proof.Machine
end

section
/-! SUPPORT. The size of a text's alphabet, and FT.BUILD's counts as those of the text in the next state. -/

namespace Sys2Proof.Machine

open Sys2Proof.Safety

theorem alphabet_length_le_textLen (s : State) : (alphabet s).length ≤ s.textLen.toNat := by
  rw [← length_textSymbols s]
  exact ((alphabet_nodup s).subperm fun _ => mem_alphabet.1).length_le

theorem alphabet_length_pos {s : State} (h : 0 < s.textLen.toNat) : 0 < (alphabet s).length :=
  List.length_pos_of_mem (mem_alphabet.2 (mem_textSymbols.2 ⟨0, h, rfl⟩))

theorem occurrences_eq_countP (s : State) (y : Byte) :
    occurrences s y = (List.range s.textLen.toNat).countP fun i => s.textAt i == y :=
  List.countP_map

theorem occurrences_pos {s : State} {y : Byte} : 0 < occurrences s y ↔ ∃ i, i < s.textLen.toNat ∧ s.textAt i = y :=
  List.count_pos_iff.trans mem_textSymbols

theorem countP_occurrences_pos (s : State) :
    (symbols.countP fun y => decide (0 < occurrences s y)) = (alphabet s).length := by
  rw [alphabet, ← List.countP_eq_length_filter]
  refine List.countP_congr fun y _ => ?_
  rw [decide_eq_true_iff, bne_iff_ne, Nat.pos_iff_ne_zero]

/-- FT.BUILD keeps the text, so `FREQ` is the table of the text in the next state (40_frequency_table.md R91). -/
theorem freqAt_eq_occurrences_of_ftBuild {s t : State} (h : exec .ftBuild s = .next t) (y : Byte) :
    (t.freqAt y).toNat = occurrences t y := by
  rw [freqAt_ftBuild h, occurrences_exec (by decide) h]

end Sys2Proof.Machine
end

section
/-! PROOFS. The statements about the frequency table. -/

namespace Sys2Proof.Machine

open Sys2Proof.Safety

/-- Settles O15: the counts are the text's numbers of occurrences, and the keys its alphabet. -/
theorem frequencyTableInvariant : Obligations.FrequencyTableInvariant := by
  intro s t h
  simp only [freqAt_eq_occurrences_of_ftBuild h, countP_occurrences_pos]
  have hle := alphabet_length_le_textLen t
  exact ⟨(sum_count t.textSymbols).trans (length_textSymbols t), fun y => occurrences_pos,
    le_min hle (alphabet_length_le t), alphabet_length_pos, fun h0 => Nat.eq_zero_of_le_zero (hle.trans_eq h0)⟩

/-- Settles O14: a text of at most 65535 symbols wraps no count. -/
theorem ftBuildCountsOccurrences : Obligations.FtBuildCountsOccurrences := by
  intro s hn
  obtain ⟨t, ht⟩ : ∃ t, exec .ftBuild s = .next t := ⟨_, if_neg (Nat.not_lt.2 hn)⟩
  have hfreq (y : Byte) := (freqAt_ftBuild ht y).trans (occurrences_eq_countP s y)
  obtain ⟨-, rfl⟩ := ftBuild_next ht
  exact ⟨_, ht, rfl, hfreq, rfl⟩

end Sys2Proof.Machine
end

section
/-! SUPPORT. What PQ.EXTRACTMIN answers in each state of the queue, and the tree builder's operations in terms of it. -/

namespace Sys2Proof.Machine

open Sys2Proof.Safety

/-! ## The queue -/

section
variable {s : State}

/-- The state with n taken out of the queue (41_tree_builder.md R96). -/
def State.without (s : State) (n : Nat) : State := { s with pq := s.pq.filter fun m => m != n }

theorem mem_without {m n : Nat} : m ∈ (s.without n).pq ↔ m ∈ s.pq ∧ m ≠ n :=
  List.mem_filter.trans (and_congr_right fun _ => bne_iff_ne)

theorem queueAllocated_without (h : QueueAllocated s) (n : Nat) : QueueAllocated (s.without n) :=
  fun m hm => h m (mem_without.1 hm).1

theorem pqExtractMin_empty (h : s.pq = []) : s.pqExtractMin = .error .queueEmpty := by
  simp only [State.pqExtractMin, h]

theorem pqExtractMin_unallocated (hne : s.pq ≠ []) (h : ¬ QueueAllocated s) :
    s.pqExtractMin = .error .nodeUnallocated := by
  unfold State.pqExtractMin
  split
  · contradiction
  · exact if_neg fun hall => h (List.all_eq_true.1 hall)

/-- On a queue of allocated nodes PQ.EXTRACTMIN takes the member of the least key (41_tree_builder.md R96). -/
theorem pqExtractMin_least (hne : s.pq ≠ []) (h : QueueAllocated s) :
    ∃ n, s.pqExtractMin = .ok (n, s.without n) ∧ IsLeast s.node s.pq n := by
  obtain ⟨n, t, ht⟩ := pqExtractMin_exists hne h
  obtain ⟨hn, hleast, -, rfl⟩ := pqExtractMin_ok ht
  exact ⟨n, ht, hn, fun m hm hmn => (keyLess_iff _ _ _).1 (hleast m hm hmn)⟩

theorem pqExtractMin_singleton {n : Nat} (hq : s.pq = [n]) (h : (cellAt s.node n).isSome = true) :
    s.pqExtractMin = .ok (n, { s with pq := [] }) := by
  simp [State.pqExtractMin, hq, h, leastMember]

/-- Where the queue is a set, one extraction takes one member. -/
theorem length_without (hq : s.pq.Pairwise (· < ·)) {n : Nat} (hn : n ∈ s.pq) :
    (s.without n).pq.length + 1 = s.pq.length :=
  length_filter_ne (hq.imp Nat.ne_of_lt) hn

/-- Two extractions take the two least members (41_tree_builder.md R98). -/
theorem pqExtractMin_twice (hq : s.pq.Pairwise (· < ·)) (h2 : 2 ≤ s.pq.length) (h : QueueAllocated s) :
    ∃ a b, s.pqExtractMin = .ok (a, s.without a) ∧
      (s.without a).pqExtractMin = .ok (b, (s.without a).without b) ∧
      IsLeast s.node s.pq a ∧ IsLeast s.node (s.without a).pq b := by
  obtain ⟨a, ea, ha⟩ := pqExtractMin_least (List.ne_nil_of_length_pos (by omega)) h
  have hlen := length_without hq ha.1
  obtain ⟨b, eb, hb⟩ := pqExtractMin_least (List.ne_nil_of_length_pos (by omega)) (queueAllocated_without h a)
  exact ⟨a, b, ea, eb, ha, hb⟩

end

/-! ## The operations over the queue -/

/-- Each operation that extracts stops as PQ.EXTRACTMIN does. -/
theorem exec_refused_of_pqExtractMin {s : State} {r : Refusal} (h : s.pqExtractMin = .error r) :
    ∀ i ∈ [Instr.pqExtractmin, .tbMerge, .tbWrap, .tbFinish], exec i s = .refused r := by
  simp [exec, execPqExtractmin, execTbMerge, execTbWrap, execTbFinish, h]

theorem tbMerge_eq {s s1 s2 : State} {a b : Nat} (h1 : s.pqExtractMin = .ok (a, s1))
    (h2 : s1.pqExtractMin = .ok (b, s2)) :
    exec .tbMerge s =
      if Config.NODES ≤ s2.nnext then .refused .arenaFull
      else .next (((s2.pqInsert s2.nnext).allocate (mergedNode s2.node a b)).goto
        (if 2 ≤ (insertMember s2.pq s2.nnext).length then .tbMerge else .tbFinish)) := by
  simp only [exec, execTbMerge, h1, h2]
  rfl

theorem tbWrap_eq {s s1 : State} {l : Nat} (h : s.pqExtractMin = .ok (l, s1)) :
    exec .tbWrap s =
      if Config.NODES ≤ s1.nnext then .refused .arenaFull
      else .next (({ s1 with root := s1.nnext }.allocate (wrapNode s1.node l)).goto .caAssign) := by
  simp only [exec, execTbWrap, h]

/-- The synthetic root has the frequency of its only child (41_tree_builder.md R99). -/
theorem wrapNode_of_cellAt {nodes : List (Nat × Node)} {l : Nat} {r : Node} (h : cellAt nodes l = some r) :
    wrapNode nodes l = .internal r.freq (some l) none := by
  simp [wrapNode, nodeFreq, h]

theorem tbLoad_eq (s : State) :
    exec .tbLoad s =
      if (loadLeaves s).nnext = 0 then .refused .emptyFrequencyTable
      else .next ({ loadLeaves s with nleaf := (loadLeaves s).nnext }.goto
        (if (loadLeaves s).nnext = 1 then .tbWrap else .tbMerge)) := by
  simp only [exec, execTbLoad]
  generalize loadLeaves s = u
  split_ifs <;> rfl

end Sys2Proof.Machine
end

section
/-! PROOFS. The statements about the tree builder and its queue. -/

namespace Sys2Proof.Machine

open Sys2Proof.Safety

/-- Settles O16: the loop leaves one leaf per key, and their number decides between refusal, wrap and merge. -/
theorem tbLoadMakesOneLeafPerKey : Obligations.TbLoadMakesOneLeafPerKey := by
  intro s keys hk
  obtain ⟨hcell, hpq, hnext, -⟩ := loadLeaves_spec s keys hk
  have hexec := tbLoad_eq s
  generalize loadLeaves s = u at hcell hpq hnext hexec
  rw [hnext] at hexec
  refine ⟨fun h0 => hexec.trans (if_pos (List.length_eq_zero_iff.2 h0)), fun h0 => ?_⟩
  rw [if_neg (mt List.length_eq_zero_iff.1 h0)] at hexec
  refine ⟨_, hexec, hcell, hpq, hnext, rfl, ?_, (tbLoad_frame hexec).1⟩
  rw [State.goto_phase, apply_ite phaseOf]
  rfl

/-- Settles O17: the queue is a set in rising order. -/
theorem pqInsertAddsOneMember : Obligations.PqInsertAddsOneMember := fun _ n =>
  ⟨_, rfl, fun _ => mem_insertMember, fun h => pairwise_insertMember h n, rfl⟩

/-- Settles O18, by what PQ.EXTRACTMIN answers on a queue of allocated nodes. -/
theorem pqExtractminTakesTheLeastKey : Obligations.PqExtractminTakesTheLeastKey := by
  intro s hne halloc
  obtain ⟨n, hn, hleast⟩ := pqExtractMin_least hne halloc
  have hexec : exec .pqExtractmin s = .next { s.without n with pqOut := some n } := by
    simp only [exec, execPqExtractmin, hn]
  exact ⟨n, _, hexec, rfl, hleast, rfl, rfl⟩

/-- Settles O19: two extractions and the insertion of the index `NNEXT`, which is not queued because it is not
allocated. -/
theorem tbMergeJoinsTheTwoLeast : Obligations.TbMergeJoinsTheTwoLeast := by
  intro s hq h2 halloc hfits hfree
  obtain ⟨a, b, ea, eb, ha, hb⟩ := pqExtractMin_twice hq h2 halloc
  have hrising : (s.without a).pq.Pairwise (· < ·) := hq.filter _
  have hnot : s.nnext ∉ ((s.without a).without b).pq := fun hm => by
    have := halloc _ (mem_without.1 (mem_without.1 hm).1).1
    rw [hfree] at this
    exact Bool.false_ne_true this
  have hlen1 := length_without hq ha.1
  have hlen2 := length_without hrising hb.1
  have hlen3 := length_insertMember hnot
  have hexec := (tbMerge_eq ea eb).trans (if_neg (Nat.not_le.2 hfits))
  refine ⟨a, b, _, hexec, ha, hb, cellAt_putCell_same _ _ _, fun n hn => cellAt_putCell_ne _ _ hn, fun m => ?_,
    pairwise_insertMember (hrising.filter _) _, ?_, rfl, ?_, (tbMerge_frame hexec).1⟩
  · exact mem_insertMember.trans (or_congr_right (by rw [mem_without, mem_without, and_assoc]))
  · exact (congrArg (· + 1) hlen3).trans (by omega)
  · rw [State.goto_phase, apply_ite phaseOf]
    rfl

/-- Settles O20: the only member is extracted, and the record over it has its frequency. -/
theorem tbWrapMakesTheSyntheticRoot : Obligations.TbWrapMakesTheSyntheticRoot := by
  intro s l r hq hl hfits
  have hmin := pqExtractMin_singleton hq (by rw [hl]; rfl)
  have hexec := (tbWrap_eq hmin).trans (if_neg (Nat.not_le.2 hfits))
  exact ⟨_, hexec, (cellAt_putCell_same _ _ _).trans (congrArg some (wrapNode_of_cellAt hl)),
    fun n hn => cellAt_putCell_ne _ _ hn, rfl, rfl, rfl, rfl, rfl⟩

/-- Settles O21: the only member is extracted. -/
theorem tbFinishMakesTheLastNodeRoot : Obligations.TbFinishMakesTheLastNodeRoot := by
  intro s n hq hn
  simp only [exec, execTbFinish, pqExtractMin_singleton hq hn]
  rfl

/-- Settles O22: a stop of the first extraction, of TB.MERGE's second one, or of the arena that is full after them. -/
theorem queueOperationsStopOnBrokenPreconditions : Obligations.QueueOperationsStopOnBrokenPreconditions := by
  intro s
  refine ⟨fun h => exec_refused_of_pqExtractMin (pqExtractMin_empty h), fun n hq halloc => ?_,
    fun hne h => exec_refused_of_pqExtractMin (pqExtractMin_unallocated hne h), fun hne halloc hfull => ?_,
    fun hq h2 halloc hfull => ?_⟩
  · have first := pqExtractMin_singleton hq (halloc n (by rw [hq]; exact List.mem_singleton_self n))
    have second : State.pqExtractMin { s with pq := [] } = .error .queueEmpty := pqExtractMin_empty rfl
    simp only [exec, execTbMerge, first, second]
  · obtain ⟨l, hl, -⟩ := pqExtractMin_least hne halloc
    exact (tbWrap_eq hl).trans (if_pos hfull)
  · obtain ⟨a, b, ea, eb, -⟩ := pqExtractMin_twice hq h2 halloc
    exact (tbMerge_eq ea eb).trans (if_pos hfull)

end Sys2Proof.Machine
end

section
/-! SUPPORT. Runs of COMPRESS, from its command to its end. -/

namespace Sys2Proof.Machine

open Sys2Proof.Safety

/-- What every step keeps holds after a run. -/
theorem runSteps_keeps {P : State → Prop} (keeps : ∀ {s t}, P s → step s = .next t → P t) {n : Nat} {s t : State}
    (hs : P s) (h : runSteps n s = .next t) : P t := by
  induction n generalizing s with
  | zero => cases h; exact hs
  | succ n ih =>
    rw [runSteps] at h
    split at h
    · next u hu => exact ih (keeps hs hu) h
    · cases h
    · cases h

/-- The COMPRESS word written in a legal idle state starts a run (10_state.md R22). -/
theorem compress_starts {s : State} (hL : Legal s) (hb : s.busy = false) :
    step { s with inputs := [.writeReg 0 0x00000001#32] } = .next ({ s with inputs := [] }.start .cStart) ∧
      Running ({ s with inputs := [] }.start .cStart) := by
  have hexec : exec (decodeCommand 0x00000001#32) { s with inputs := [] } =
      .next ({ s with inputs := [] }.start .cStart) := exec_compress_idle (s := { s with inputs := [] }) hb
  have hL' : Legal { s with inputs := [] } := { hL with }
  have hphase : phaseOf .cStart ≠ 0#5 := by decide
  exact ⟨(step_command rfl).trans hexec, exec_command_keeps_legal hL' hexec, trivial, hphase, rfl⟩

/-- A micro-operation of COMPRESS that ends the command without error is C.START on the empty text, which empties the
map, or BP.PACK (43_compress_bitpacker.md R118, R121). -/
theorem compress_ends_without_error {i : Instr} (hi : i ∈ compressOps) {s t : State} (h : exec i s = .next t)
    (hend : Ended .none t) : (t.textLen = 0#32 ∧ ∀ y, t.clenAt y = 0#8) ∨ i = .bpPack := by
  have op : i = .cStart ∨ i = .bpPack := by
    have enders : ∀ i ∈ compressOps, ErrCode.none ∈ endCodes i → i = .cStart ∨ i = .bpPack := by decide
    obtain ⟨-, -, h0⟩ | ⟨e, he, hend'⟩ := exec_goesOn_or_ends (List.mem_append_left _ hi) h
    · exact absurd hend.phase h0
    · exact enders i hi (hend.err.symm.trans hend'.err ▸ he)
  refine op.imp_left ?_
  rintro rfl
  simp only [exec, execCStart] at h
  split_ifs at h with hn h0 <;> cases h
  · cases hend.err
  · exact ⟨h0, fun y => Memory.read_clear ..⟩
  · cases hend.phase

/-- A state of a run of COMPRESS: at one of its micro-operations with I, or at its end, with E where there is no
error. -/
def CompressReaches (I E : State → Prop) (s : State) : Prop :=
  (Running s ∧ I s ∧ ∃ i ∈ compressOps, s.phase = phaseOf i) ∨
    (s.inputs = [] ∧ s.phase = 0#5 ∧ (s.err = .none → E s))

section
variable {I E : State → Prop}
  (goesOn : ∀ {i s t}, i ∈ compressOps → Running s → s.phase = phaseOf i → I s → exec i s = .next t → Running t → I t)
  (empty : ∀ {t : State}, t.textLen = 0#32 → (∀ y, t.clenAt y = 0#8) → E t)
  (packed : ∀ {s t}, Running s → s.phase = phaseOf .bpPack → I s → exec .bpPack s = .next t → E t)
include goesOn empty packed

/-- A step of a run of COMPRESS stays in the run. -/
theorem compressReaches_step {s t : State} (h : CompressReaches I E s) (ht : step s = .next t) :
    CompressReaches I E t := by
  obtain ⟨hrun, hI, i, hi, hphase⟩ | ⟨hin, hphase, hE⟩ := h
  · have decodes : ∀ i ∈ compressOps, decode (.phase (phaseOf i)) = .ok i := by decide
    have follows : ∀ i ∈ compressOps, ∀ p ∈ successors i, p ≠ 0#5 → ∃ j ∈ compressOps, p = phaseOf j := by decide
    have hexec : exec i s = .next t := (step_engine hrun.inputs (hphase ▸ decodes i hi)).symm.trans ht
    obtain ⟨u, hu, ⟨e, hend⟩ | ⟨hrun', -⟩⟩ := step_running hrun <;> cases hu.symm.trans ht
    · refine .inr ⟨(exec_keeps_inputs (List.mem_append_left _ hi) hexec).trans hrun.inputs, hend.phase, fun herr => ?_⟩
      obtain rfl : e = .none := hend.err.symm.trans herr
      obtain ⟨hlen, hclen⟩ | rfl := compress_ends_without_error hi hexec hend
      · exact empty hlen hclen
      · exact packed hrun hphase hI hexec
    · refine .inl ⟨hrun', goesOn hi hrun hphase hI hexec hrun', follows i hi _ ?_ hrun'.phase⟩
      obtain ⟨-, hsucc, -⟩ | ⟨e, -, hend⟩ := exec_goesOn_or_ends (List.mem_append_left _ hi) hexec
      · exact hsucc
      · exact absurd hend.phase hrun'.phase
  · have hidle : step s = .next s := step_engine hin (i := .idle) (by rw [hphase]; rfl)
    cases hidle.symm.trans ht
    exact .inr ⟨hin, hphase, hE⟩

/-- What C.START's state has, every micro-operation keeps and the end without error gives, holds at the end without
error of every COMPRESS from a legal idle state. -/
theorem compress_ends_with (start : ∀ {s : State}, s.phase = phaseOf .cStart → I s) {s t : State} {k : Nat}
    (hL : Legal s) (hb : s.busy = false)
    (hrun : runSteps (k + 1) { s with inputs := [.writeReg 0 0x00000001#32] } = .next t) (hd : t.done = true)
    (herr : t.err = .none) : E t := by
  obtain ⟨command, started⟩ := compress_starts hL hb
  rw [runSteps_succ command] at hrun
  have reached : CompressReaches I E t :=
    runSteps_keeps (compressReaches_step goesOn empty packed) (.inl ⟨started, start rfl, .cStart, by decide, rfl⟩) hrun
  obtain ⟨hrun', -, -⟩ | ⟨-, -, hE⟩ := reached
  · exact absurd ⟨hrun'.legal.busyPhase.2 hrun'.phase, hd⟩ hrun'.legal.notBoth
  · exact hE herr

end

end Sys2Proof.Machine
end

section
/-! PROOFS. The statement about the code map of COMPRESS. -/

namespace Sys2Proof.Machine

open Sys2Proof.Safety

/-- The empty map is the encoder's map of the empty text (43_compress_bitpacker.md R118). -/
theorem encoderMap_empty {s : State} (hlen : s.textLen = 0#32) (hclen : ∀ y, s.clenAt y = 0#8) : EncoderMap s := by
  have text : s.textSymbols = [] := List.eq_nil_of_length_eq_zero ((length_textSymbols s).trans (by rw [hlen]; rfl))
  refine ⟨fun y => ?_, prefixFree_iff.2 fun y _ _ hy => absurd (hclen y) hy⟩
  simp [text, hclen y]

/-- BP.PACK leaves the encoder's map (20_memory.md R62). -/
theorem encoderMap_bpPack {s t : State} (hP : PhaseInvariant s) (hphase : s.phase = phaseOf .bpPack)
    (h : exec .bpPack s = .next t) : EncoderMap t := by
  unfold PhaseInvariant at hP
  rw [hphase] at hP
  obtain ⟨-, hM, -⟩ := hP
  obtain ⟨-, rfl⟩ := bpPack_next h
  exact hM

/-- Settles O30: the phase invariant holds the encoder's map from CA.ASSIGN on, and the empty text has the empty map. -/
theorem compressProducesAPrefixFreeMap : Obligations.CompressProducesAPrefixFreeMap := by
  intro s t k hL hb hrun hd herr
  obtain ⟨hsyms, hfree⟩ : EncoderMap t :=
    compress_ends_with (I := fun _ => True) (fun _ _ _ _ _ _ => trivial) encoderMap_empty
      (fun hrun hphase _ h => encoderMap_bpPack hrun.invariant hphase h) (fun _ => trivial) hL hb hrun hd herr
  refine ⟨fun y => (hsyms y).trans mem_textSymbols, fun y hy hcode => ?_, prefixFree_iff.1 hfree⟩
  have hlen := length_code t y
  rw [hcode] at hlen
  exact hy (BitVec.eq_of_toNat_eq hlen.symm)

end Sys2Proof.Machine
end

section
/-! SUPPORT. What CA.ASSIGN's next state holds of the tree at `ROOT`. -/

namespace Sys2Proof.Machine

open Sys2Proof.Safety

theorem length_leafCode (p : Bits) : (leafCode p).length = max 1 p.length := by
  unfold leafCode
  split
  · next h => rw [h]; rfl
  · next h => exact (Nat.max_eq_right (List.length_pos_of_ne_nil h)).symm

/-- A walk that ends has visited the whole tree on its stack, and found every code short enough (log 13). -/
theorem walk_fits {nodes : List (Nat × Node)} {n : Option Nat} {t : PrefixTree} (hr : Roots nodes n t) {fuel : Nat}
    {s u : State} (hs : s.node = nodes) {pre : Bits} {rest : List (Nat × Bits)}
    (h : walk fuel { s with walkStack := childEntry n pre ++ rest } = .ok u) :
    t.size ≤ fuel ∧ ∀ p ∈ t.paths, (leafCode (pre ++ p.2)).length ≤ Config.LMAX := by
  induction hr generalizing fuel s pre rest with
  | absent => exact ⟨Nat.zero_le _, fun _ hp => nomatch hp⟩
  | @leaf n y f hc =>
    subst hs
    cases fuel with
    | zero => rw [walk] at h; cases h
    | succ fuel =>
      rw [walk] at h
      simp only [childEntry_some, List.cons_append, List.nil_append, hc] at h
      split at h
      · cases h
      · next hlen =>
        refine ⟨Nat.succ_pos fuel, fun p hp => ?_⟩
        obtain rfl := List.mem_singleton.1 hp
        rw [List.append_nil]
        exact Nat.le_of_not_lt hlen
  | @node n f l r a b hc ha _ iha ihb =>
    subst hs
    cases fuel with
    | zero => rw [walk] at h; cases h
    | succ fuel =>
      rw [walk] at h
      simp only [childEntry_some, List.cons_append, List.nil_append, hc] at h
      rw [List.append_assoc] at h
      obtain ⟨hsize, hleft⟩ := iha rfl h
      obtain ⟨k, rfl⟩ := Nat.exists_eq_add_of_le hsize
      rw [walk_tree ha k s rfl (pre ++ [false]) _ hleft] at h
      obtain ⟨hsize', hright⟩ := ihb (writeLeaves_node ..) h
      refine ⟨by simp only [PrefixTree.size]; omega, fun p hp => ?_⟩
      rcases List.mem_append.1 hp with hp | hp
      · obtain ⟨q, hq, rfl⟩ := List.mem_map.1 hp
        simpa using hleft q hq
      · obtain ⟨q, hq, rfl⟩ := List.mem_map.1 hp
        simpa using hright q hq

section
variable {s t : State} {tree : PrefixTree} (hr : Roots s.node (some s.root) tree)
include hr

/-- CA.ASSIGN on a tree that fits writes its leaves to the empty map (42_code_assigner.md R110). -/
theorem caAssign_eq (hsize : tree.size ≤ 512) (hlen : ∀ p ∈ tree.paths, (leafCode p.2).length ≤ Config.LMAX) :
    exec .caAssign s =
      .next (State.goto { writeLeaves s.clearMap tree.paths with walkStack := [] } .bpConcat) := by
  simp only [exec, execCaAssign, walk_root s tree hr hsize hlen]

/-- CA.ASSIGN gives a next state on trees that fit only (log 13). -/
theorem caAssign_fits (h : exec .caAssign s = .next t) :
    tree.size ≤ 512 ∧ ∀ p ∈ tree.paths, (leafCode p.2).length ≤ Config.LMAX := by
  obtain ⟨u, hu, -⟩ := caAssign_next h
  exact walk_fits hr (s := s.clearMap) (pre := []) (rest := []) rfl hu

/-- The code map CA.ASSIGN leaves: each leaf's code, and nothing for the other symbols (42_code_assigner.md R110). -/
theorem caAssign_map (hn : tree.syms.Nodup) (h : exec .caAssign s = .next t) :
    (∀ p ∈ tree.paths, t.code p.1 = leafCode p.2 ∧ (t.clenAt p.1).toNat = (leafCode p.2).length) ∧
      ∀ y, y ∉ tree.syms → t.clenAt y = 0#8 := by
  obtain ⟨hsize, hlen⟩ := caAssign_fits hr h
  cases (caAssign_eq hr hsize hlen).symm.trans h
  obtain ⟨written, others⟩ := code_writeLeaves s.clearMap hn hlen
  exact ⟨written, fun y hy => (others y hy).1.trans (Memory.read_clear ..)⟩

/-- Every position above a code is 0 (42_code_assigner.md R110). -/
theorem caAssign_high_bits (hn : tree.syms.Nodup) (h : exec .caAssign s = .next t) {y : Byte} {k : Nat}
    (hk : (t.clenAt y).toNat ≤ k) : (t.cbitsAt y).getLsbD k = false := by
  obtain ⟨hsize, hlen⟩ := caAssign_fits hr h
  cases (caAssign_eq hr hsize hlen).symm.trans h
  have empty (z : Byte) : s.clearMap.clenAt z = 0#8 ∧ s.clearMap.cbitsAt z = 0#255 :=
    ⟨Memory.read_clear .., Memory.read_clear ..⟩
  exact high_bits_writeLeaves s.clearMap hlen (fun z => .inl (empty z)) hn (fun p _ => (empty p.1).2) y k hk

end

end Sys2Proof.Machine
end

section
/-! PROOFS. The statements about CA.ASSIGN. -/

namespace Sys2Proof.Machine

open Sys2Proof.Safety

/-- Settles O23: a tree of depth at most 255 has codes of at most 255 bits, so the walk writes all its leaves. -/
theorem caAssignWritesLeafPaths : Obligations.CaAssignWritesLeafPaths := by
  intro s tree hr hsize hdepth hn
  have hlen : ∀ p ∈ tree.paths, (leafCode p.2).length ≤ Config.LMAX := fun p hp =>
    length_leafCode_le ((length_path_le_depth tree p hp).trans hdepth) (by decide)
  have hexec := caAssign_eq hr hsize hlen
  obtain ⟨codes, absent⟩ := caAssign_map hr hn hexec
  obtain ⟨frame, -⟩ := caAssign_frame hexec
  exact ⟨_, hexec, rfl, rfl, fun y path hp => (codes _ hp).1, absent, fun y k => caAssign_high_bits hr hn hexec, frame⟩

/-- Settles O24: the codes are those of the leaves' paths, and no path of a tree begins another. -/
theorem treeCodesArePrefixFree : Obligations.TreeCodesArePrefixFree := by
  intro s t tree hr hn h
  obtain ⟨codes, -⟩ := caAssign_map hr hn h
  constructor
  · intro y hy
    obtain ⟨p, hp, rfl⟩ := List.mem_map.1 hy
    rw [(codes p hp).1]
    exact leafCode_ne_nil p.2
  · intro y hy z hz hne
    obtain ⟨p, hp, rfl⟩ := List.mem_map.1 hy
    obtain ⟨q, hq, rfl⟩ := List.mem_map.1 hz
    rw [(codes p hp).1, (codes q hq).1]
    exact leafCodes_not_prefix hn hp hq hne

/-- Settles O25, by what stops the walk. -/
theorem caAssignStopsOnWhatIsNoPrefixTree : Obligations.CaAssignStopsOnWhatIsNoPrefixTree := by
  intro s
  have stops {r : Refusal} (h : walk Config.NODES { s.clearMap with walkStack := [(s.root, [])] } = .error r) :
      exec .caAssign s = .refused r := by
    simp only [exec, execCaAssign, h]
  refine ⟨fun h => stops ?_, fun tree hr hsize hlong => stops ?_, fun tree hr hsize hdepth => stops ?_⟩
  · rw [walk]
    simp only [State.clearMap_node, h]
  · obtain ⟨p, hp, hlong⟩ := hlong
    refine walk_codeTooLong hr Config.NODES s.clearMap rfl [] [] hsize ⟨p, hp, ?_⟩
    rw [List.nil_append, length_leafCode]
    exact hlong.trans_le (Nat.le_max_right _ _)
  · exact walk_notATree hr Config.NODES s.clearMap rfl [] [] hsize fun p hp =>
      length_leafCode_le ((length_path_le_depth tree p hp).trans hdepth) (by decide)

end Sys2Proof.Machine
end

section
/-! SUPPORT. The frequencies of a tree level by level, and the order of levels that the merge loop keeps
(41_tree_builder.md R98). -/

namespace Sys2Proof.Machine

open Sys2Proof.Safety

/-! ## The levels of a tree -/

/-- The tree has a node of frequency f at depth d. -/
def HasFreq : PrefixTree → Nat → Nat → Prop
  | .none, _, _ => False
  | .leaf _ g, 0, f => f = g
  | .leaf _ _, _ + 1, _ => False
  | .node g _ _, 0, f => f = g
  | .node _ l r, d + 1, f => HasFreq l d f ∨ HasFreq r d f

/-- No node of a at depth i has a higher frequency than one of b at depth j. -/
def LevelLe (a : PrefixTree) (i : Nat) (b : PrefixTree) (j : Nat) : Prop :=
  ∀ f g, HasFreq a i f → HasFreq b j g → f ≤ g

/-- No node of the tree has a higher frequency than one nearer to the root. -/
def Descends (t : PrefixTree) : Prop := ∀ i j, i < j → LevelLe t j t i

theorem hasFreq_root {t : PrefixTree} (h : t.full) : HasFreq t 0 t.freq := by
  cases t with
  | none => exact h.elim
  | leaf y f => rfl
  | node f l r => rfl

theorem eq_freq_of_hasFreq {t : PrefixTree} {f : Nat} (h : HasFreq t 0 f) : f = t.freq := by
  cases t with
  | none => exact h.elim
  | leaf y g => exact h
  | node g l r => exact h

/-- The leaf at the end of a path is a node at the path's depth, of its symbol's frequency. -/
theorem hasFreq_path {table : Byte → Nat} {t : PrefixTree} (hw : t.weighted table) {p : Byte × Bits}
    (hp : p ∈ t.paths) : HasFreq t p.2.length (table p.1) := by
  induction t generalizing p with
  | none => cases hp
  | leaf y f =>
    obtain rfl := List.mem_singleton.1 hp
    exact hw.symm
  | node f l r ihl ihr =>
    obtain ⟨-, hl, hr⟩ := hw
    rcases List.mem_append.1 hp with hp | hp
    · obtain ⟨q, hq, rfl⟩ := List.mem_map.1 hp
      exact .inl (ihl hl hq)
    · obtain ⟨q, hq, rfl⟩ := List.mem_map.1 hp
      exact .inr (ihr hr hq)

/-- In a tree whose levels descend a symbol of higher frequency is no deeper (42_code_assigner.md R114). -/
theorem length_path_le_of_descends {table : Byte → Nat} {t : PrefixTree} (hd : Descends t) (hw : t.weighted table)
    {p q : Byte × Bits} (hp : p ∈ t.paths) (hq : q ∈ t.paths) (hlt : table q.1 < table p.1) :
    p.2.length ≤ q.2.length := by
  by_contra h
  have := hd _ _ (Nat.lt_of_not_le h) _ _ (hasFreq_path hw hp) (hasFreq_path hw hq)
  exact Nat.not_lt.2 this hlt

/-- The levels of the synthetic root over the only leaf descend (41_tree_builder.md R99). -/
theorem descends_wrapped (y : Byte) (f : Nat) : Descends (.node f (.leaf y f) .none) := by
  have only : ∀ d g, HasFreq (.node f (.leaf y f) .none) d g → g = f := by
    intro d g h
    match d with
    | 0 => exact h
    | 1 => exact h.resolve_right id
    | _ + 2 => exact (h.elim id id : False).elim
  intro i j _ g g' hg hg'
  rw [only j g hg, only i g' hg']

/-! ## The levels of a forest -/

/-- The order of the queue's keys, of two nodes with their trees (41_tree_builder.md R96). -/
def KeyLt (m : Nat) (a : PrefixTree) (n : Nat) (b : PrefixTree) : Prop :=
  a.freq < b.freq ∨ (a.freq = b.freq ∧ m < n)

theorem KeyLt.freq_le {m n : Nat} {a b : PrefixTree} (h : KeyLt m a n b) : a.freq ≤ b.freq :=
  h.elim Nat.le_of_lt fun h => Nat.le_of_eq h.1

theorem KeyLt.not_of_freq_le {m n : Nat} {a b : PrefixTree} (h : KeyLt m a n b) (hf : b.freq ≤ a.freq)
    (hn : n ≤ m) : False :=
  h.elim (Nat.not_lt.2 hf) fun h => Nat.not_lt.2 hn h.2

/-- The levels of the forest q descend from its roots, and on one level the nodes under a lower key come first: a node
on a deeper level, or on the same level under a lower key, was taken from the queue before. -/
structure LevelsOrdered (q : Nat → PrefixTree → Prop) : Prop where
  deeper : ∀ {m n a b i j}, q m a → q n b → i < j → LevelLe b j a i
  sameDepth : ∀ {m n a b}, q m a → q n b → KeyLt m a n b → ∀ i, LevelLe a i b i

/-- The levels of a forest of leaves are in order: it has one level. -/
theorem levelsOrdered_of_leaves {q : Nat → PrefixTree → Prop} (h : ∀ n t, q n t → ∃ y f, t = .leaf y f) :
    LevelsOrdered q where
  deeper {m n a b i j} _ hb hij f _ hf _ := by
    obtain ⟨y, g, rfl⟩ := h n b hb
    cases j with
    | zero => exact absurd hij (Nat.not_lt_zero i)
    | succ j => exact hf.elim
  sameDepth {m n a b} ha _ hkey i f g hf hg := by
    obtain ⟨y, f', rfl⟩ := h m a ha
    cases i with
    | zero =>
      rw [eq_freq_of_hasFreq hf, eq_freq_of_hasFreq hg]
      exact hkey.freq_le
    | succ i => exact hf.elim

/-- The forest q' is q with the trees of the two least keys, a and b, joined at the new index k. -/
structure Joins (q q' : Nat → PrefixTree → Prop) (a b k : Nat) (ta tb : PrefixTree) : Prop where
  left : q a ta
  right : q b tb
  members : ∀ n t, q' n t →
    (n = k ∧ t = joined ta tb) ∨ (q n t ∧ n < k ∧ KeyLt a ta n t ∧ KeyLt b tb n t)

/-- A node below the root of the joined tree is one, a level nearer to its root, of the two trees joined. -/
theorem Joins.child {q q' : Nat → PrefixTree → Prop} {a b k : Nat} {ta tb : PrefixTree} (hj : Joins q q' a b k ta tb)
    {d f : Nat} (hf : HasFreq (joined ta tb) (d + 1) f) :
    ∃ c tc, q c tc ∧ HasFreq tc d f ∧ tc.freq ≤ ta.freq + tb.freq ∧
      ∀ n t, KeyLt a ta n t → KeyLt b tb n t → KeyLt c tc n t := by
  rcases hf with hf | hf
  · exact ⟨a, ta, hj.left, hf, Nat.le_add_right _ _, fun _ _ h _ => h⟩
  · exact ⟨b, tb, hj.right, hf, Nat.le_add_left _ _, fun _ _ _ h => h⟩

namespace LevelsOrdered

variable {q q' : Nat → PrefixTree → Prop} {a b k : Nat} {ta tb : PrefixTree} {table : Byte → Nat}
  (h : LevelsOrdered q) (hw : ∀ n t, q n t → t.full ∧ t.weighted table)
include h hw

/-- No node below a root has a higher frequency than any root. -/
theorem le_root {n m : Nat} {t u : PrefixTree} (ht : q n t) (hu : q m u) {d f : Nat} (hf : HasFreq t (d + 1) f) :
    f ≤ u.freq :=
  h.deeper hu ht (Nat.succ_pos d) _ _ hf (hasFreq_root (hw m u hu).1)

theorem le_own_root {n : Nat} {t : PrefixTree} (ht : q n t) {d f : Nat} (hf : HasFreq t d f) : f ≤ t.freq := by
  cases d with
  | zero => exact (eq_freq_of_hasFreq hf).le
  | succ d => exact h.le_root hw ht ht hf

/-- An internal root of the forest is no heavier than any two trees of it joined, since its children are no heavier than
either. -/
theorem node_le_joined (ha : q a ta) (hb : q b tb) {n f : Nat} {l r : PrefixTree} (ht : q n (.node f l r)) :
    f ≤ ta.freq + tb.freq := by
  obtain ⟨⟨hl, hr⟩, hf, -⟩ := hw n _ ht
  rw [hf]
  exact Nat.add_le_add (h.le_root hw (d := 0) ht ha (.inl (hasFreq_root hl)))
    (h.le_root hw (d := 0) ht hb (.inr (hasFreq_root hr)))

/-- Joining the trees of the two least keys keeps the levels in order (41_tree_builder.md R98). -/
theorem join (hj : Joins q q' a b k ta tb) : LevelsOrdered q' where
  deeper {m n x y i j} hx hy hij f g hf hg := by
    obtain ⟨j, rfl⟩ := Nat.exists_eq_succ_of_ne_zero (Nat.ne_zero_of_lt hij)
    rcases hj.members n y hy with ⟨rfl, rfl⟩ | ⟨hy, -⟩
    · obtain ⟨c, tc, hc, hf, hle, hkey⟩ := hj.child hf
      rcases hj.members m x hx with ⟨rfl, rfl⟩ | ⟨hx, -, hka, hkb⟩
      · cases i with
        | zero => exact ((h.le_own_root hw hc hf).trans hle).trans_eq hg.symm
        | succ i =>
          obtain ⟨d, td, hd, hg, -⟩ := hj.child hg
          exact h.deeper hd hc (Nat.lt_of_succ_lt_succ hij) f g hf hg
      · rcases Nat.lt_succ_iff_lt_or_eq.1 hij with hij | rfl
        · exact h.deeper hx hc hij f g hf hg
        · exact h.sameDepth hc hx (hkey m x hka hkb) i f g hf hg
    · rcases hj.members m x hx with ⟨rfl, rfl⟩ | ⟨hx, -⟩
      · cases i with
        | zero => exact ((h.le_root hw hy hj.left hf).trans (Nat.le_add_right _ _)).trans_eq hg.symm
        | succ i =>
          obtain ⟨d, td, hd, hg, -⟩ := hj.child hg
          exact h.deeper hd hy (Nat.lt_of_succ_lt hij) f g hf hg
      · exact h.deeper hx hy hij f g hf hg
  sameDepth {m n x y} hx hy hkey i f g hf hg := by
    cases i with
    | zero => rw [eq_freq_of_hasFreq hf, eq_freq_of_hasFreq hg]; exact hkey.freq_le
    | succ i =>
      rcases hj.members m x hx with ⟨rfl, rfl⟩ | ⟨hx, -⟩ <;> rcases hj.members n y hy with ⟨rfl, rfl⟩ | ⟨hy, hnk, -⟩
      · exact (hkey.not_of_freq_le (Nat.le_refl _) (Nat.le_refl _)).elim
      · -- Only a leaf has a higher key than the new root, and it has no level below.
        cases y with
        | none => exact hg.elim
        | leaf z f' => exact hg.elim
        | node f' l r => exact (hkey.not_of_freq_le (h.node_le_joined hw hj.left hj.right hy) hnk.le).elim
      · obtain ⟨c, tc, hc, hg, -⟩ := hj.child hg
        exact h.deeper hc hx (Nat.lt_succ_self i) f g hf hg
      · exact h.sameDepth hx hy hkey (i + 1) f g hf hg

end LevelsOrdered

end Sys2Proof.Machine
end

section
/-! SUPPORT. The order of levels through COMPRESS, and the code lengths it gives (42_code_assigner.md R114). -/

namespace Sys2Proof.Machine

open Sys2Proof.Safety

/-! ## The forest of the queue -/

/-- An arena holds at most one tree at an index. -/
theorem roots_unique {nodes : List (Nat × Node)} {n : Option Nat} {t u : PrefixTree} (ht : Roots nodes n t)
    (hu : Roots nodes n u) : t = u := by
  induction ht generalizing u with
  | absent => cases hu; rfl
  | leaf h =>
    cases hu with
    | leaf h' => cases h.symm.trans h'; rfl
    | node h' => cases h.symm.trans h'
  | node h _ _ ihl ihr =>
    cases hu with
    | leaf h' => cases h.symm.trans h'
    | node h' hl hr => cases h.symm.trans h'; rw [ihl hl, ihr hr]

/-- The queue has the member n, the root of the tree t. -/
def QueueTree (s : State) (n : Nat) (t : PrefixTree) : Prop := n ∈ s.pq ∧ Roots s.node (some n) t

theorem exists_queueTree {s : State} (h : Forest s) {n : Nat} (hn : n ∈ s.pq) : ∃ t, QueueTree s n t := by
  obtain ⟨ts, hr, -⟩ := h
  obtain ⟨t, -, ht⟩ := forall₂_mem hr n hn
  exact ⟨t, hn, ht⟩

theorem full_weighted_queueTree {s : State} (h : Forest s) (n : Nat) (t : PrefixTree) (ht : QueueTree s n t) :
    t.full ∧ t.weighted (occurrences s) := by
  obtain ⟨ts, hr, hw, -⟩ := h
  obtain ⟨u, hu, hroots⟩ := forall₂_mem hr n ht.1
  rw [roots_unique ht.2 hroots]
  exact hw u hu

theorem lt_nnext_of_forest {s : State} (h : Forest s) {n : Nat} (hn : (cellAt s.node n).isSome = true) :
    n < s.nnext := by
  obtain ⟨ts, -, -, -, -, -, halloc⟩ := h
  exact halloc n hn

theorem keyLt_of_keyLess {nodes : List (Nat × Node)} {m n : Nat} {a b : PrefixTree} (ha : Roots nodes (some m) a)
    (hb : Roots nodes (some n) b) (h : keyLess nodes m n = true) : KeyLt m a n b := by
  rw [keyLess_iff, nodeFreq_roots ha, nodeFreq_roots hb] at h
  exact h

/-! ## The tree builder -/

/-- TB.LOAD's queue holds leaves only (41_tree_builder.md R97). -/
theorem tbLoad_levelsOrdered {s t : State} (hT : TableOfText s) (h : exec .tbLoad s = .next t) :
    LevelsOrdered (QueueTree t) := by
  obtain ⟨u, hu, hcell, -⟩ := tbLoad_exists hT
  cases hu.symm.trans h
  refine levelsOrdered_of_leaves fun n tree ht => ?_
  cases ht.2 with
  | leaf _ => exact ⟨_, _, rfl⟩
  | node hc =>
    rw [hcell] at hc
    obtain ⟨_, -, hleaf⟩ := Option.map_eq_some_iff.1 hc
    cases hleaf

/-- TB.MERGE joins the trees of the two least keys (41_tree_builder.md R98). -/
theorem tbMerge_joins {s t : State} (hF : Forest s) (hF' : Forest t) (h : exec .tbMerge s = .next t) :
    ∃ a b k ta tb, Joins (QueueTree s) (QueueTree t) a b k ta tb := by
  obtain ⟨a, b, i, s1, s2, e1, e2, -, rfl⟩ := tbMerge_next h
  obtain ⟨ha, hla, -, rfl⟩ := pqExtractMin_ok e1
  obtain ⟨hb, hlb, -, rfl⟩ := pqExtractMin_ok e2
  have hb' := (mem_without.1 hb).1
  obtain ⟨ta, hta⟩ := exists_queueTree hF ha
  obtain ⟨tb, htb⟩ := exists_queueTree hF hb'
  have kept {n : Option Nat} {u : PrefixTree} (hu : Roots s.node n u) :
      Roots (putCell s.node s.nnext (mergedNode s.node a b)) n u := roots_putCell (fun _ => lt_nnext_of_forest hF) hu
  refine ⟨a, b, s.nnext, ta, tb, hta, htb, fun n u hu => ?_⟩
  rcases mem_insertMember.1 hu.1 with rfl | hn
  · refine .inl ⟨rfl, ?_⟩
    have hweight := (full_weighted_queueTree hF' _ _ hu).2
    cases hu.2 with
    | leaf hc => cases (cellAt_putCell_same _ _ _).symm.trans hc
    | node hc hl hr =>
      cases (cellAt_putCell_same _ _ _).symm.trans hc
      obtain ⟨hfreq, -⟩ := hweight
      rw [hfreq, roots_unique hl (kept hta.2), roots_unique hr (kept htb.2)]
      rfl
  · obtain ⟨hn1, hnb⟩ := mem_without.1 hn
    obtain ⟨hns, hna⟩ := mem_without.1 hn1
    obtain ⟨u', hu'⟩ := exists_queueTree hF hns
    obtain rfl := roots_unique hu.2 (kept hu'.2)
    exact .inr ⟨hu', lt_nnext_of_forest hF (isSome_roots hu'.2), keyLt_of_keyLess hta.2 hu'.2 (hla n hns hna),
      keyLt_of_keyLess htb.2 hu'.2 (hlb n hn1 hnb)⟩

theorem tbMerge_levelsOrdered {s t : State} (hF : Forest s) (hF' : Forest t) (hO : LevelsOrdered (QueueTree s))
    (h : exec .tbMerge s = .next t) : LevelsOrdered (QueueTree t) := by
  obtain ⟨a, b, k, ta, tb, hj⟩ := tbMerge_joins hF hF' h
  exact hO.join (full_weighted_queueTree hF) hj

/-- The tree of `ROOT` after TB.FINISH is one of the forest. -/
theorem tbFinish_descends {s t : State} (hO : LevelsOrdered (QueueTree s)) (h : exec .tbFinish s = .next t)
    {tree : PrefixTree} (hr : Roots t.node (some t.root) tree) : Descends tree := by
  obtain ⟨n, s1, e1, rfl⟩ := tbFinish_next h
  obtain ⟨hn, -, -, rfl⟩ := pqExtractMin_ok e1
  exact fun i j hij => hO.deeper (m := n) (n := n) ⟨hn, hr⟩ ⟨hn, hr⟩ hij

/-- The tree of `ROOT` after TB.WRAP has no right child (41_tree_builder.md R99). -/
theorem tbWrap_not_full {s t : State} (h : exec .tbWrap s = .next t) {tree : PrefixTree}
    (hr : Roots t.node (some t.root) tree) : ¬ tree.full := by
  obtain ⟨l, s1, -, -, rfl⟩ := tbWrap_next h
  cases hr with
  | leaf hc => cases (cellAt_putCell_same _ _ _).symm.trans hc
  | node hc _ hright =>
    cases (cellAt_putCell_same _ _ _).symm.trans hc
    cases hright
    exact And.right

end Sys2Proof.Machine
end

section
/-! SUPPORT. Code lengths against frequencies, through COMPRESS (42_code_assigner.md R114). -/

namespace Sys2Proof.Machine

open Sys2Proof.Safety

/-- No symbol has a longer code than one that occurs less often. -/
def MonotoneLengths (s : State) : Prop :=
  ∀ y z, 0 < occurrences s z → occurrences s z < occurrences s y → (s.clenAt y).toNat ≤ (s.clenAt z).toNat

/-- What the merges' order leaves to each phase of COMPRESS: levels in order in the forest, levels that descend in the
finished tree if it is full, and then code lengths that do not rise with the frequency. -/
def LevelInvariant (s : State) : Prop :=
  match s.phase.toNat with
  | 4 | 6 => LevelsOrdered (QueueTree s)
  | 7 => ∀ tree, Roots s.node (some s.root) tree → tree.full → Descends tree
  | 8 | 9 | 10 => MonotoneLengths s
  | _ => True

theorem monotoneLengths_empty {s : State} (h : s.textLen = 0#32) : MonotoneLengths s := by
  intro y z hz
  have hle := occurrences_le s z
  rw [h] at hle
  exact absurd hz (Nat.not_lt.2 hle)

/-- CA.ASSIGN on the text's tree, its levels descending, gives lengths that do not rise with the frequency. -/
theorem caAssign_monotoneLengths {s t : State} (hF : FinishedTree s)
    (hD : ∀ tree, Roots s.node (some s.root) tree → tree.full → Descends tree) (h : exec .caAssign s = .next t) :
    MonotoneLengths t := by
  obtain ⟨tree, hr, hw, hsyms, -, hshape⟩ := hF
  have descends : Descends tree := by
    obtain ⟨hfull, -⟩ | ⟨y, f, rfl⟩ := hshape
    · exact hD tree hr hfull
    · exact descends_wrapped y f
  obtain ⟨codes, -⟩ := caAssign_map hr (hsyms.nodup_iff.2 (alphabet_nodup s)) h
  have leaf {y : Byte} (hy : 0 < occurrences s y) : ∃ p ∈ tree.paths, p.1 = y :=
    List.mem_map.1 (hsyms.mem_iff.2 (mem_alphabet.2 (List.count_pos_iff.1 hy)))
  intro y z hz hlt
  rw [occurrences_exec (by decide) h] at hz hlt
  obtain ⟨p, hp, rfl⟩ := leaf (hz.trans hlt)
  obtain ⟨q, hq, rfl⟩ := leaf hz
  rw [(codes p hp).2, (codes q hq).2, length_leafCode, length_leafCode]
  exact max_le_max_left 1 (length_path_le_of_descends descends hw hp hq hlt)

/-- Every micro-operation of COMPRESS keeps the level invariant. -/
theorem levelInvariant_exec {i : Instr} {s t : State} (hi : i ∈ compressOps) (hs : Running s)
    (hphase : s.phase = phaseOf i) (hI : LevelInvariant s) (h : exec i s = .next t) (ht : Running t) :
    LevelInvariant t := by
  have hP := hs.invariant
  have hP' := ht.invariant
  unfold PhaseInvariant at hP hP'
  unfold LevelInvariant at hI ⊢
  rw [hphase] at hP hI
  cases i with
  | cStart =>
    rcases cStart_next h with rfl | rfl | rfl
    · exact absurd rfl ht.phase
    · exact absurd rfl ht.phase
    · trivial
  | ftBuild => obtain ⟨-, rfl⟩ := ftBuild_next h; trivial
  | tbLoad =>
    obtain ⟨-, hp | hp⟩ := tbLoad_frame h <;> rw [hp]
    · trivial
    · exact tbLoad_levelsOrdered hP h
  | tbMerge =>
    obtain ⟨-, hF, -⟩ := hP
    obtain ⟨-, hp | hp⟩ := tbMerge_frame h <;> rw [hp] at hP' ⊢ <;> obtain ⟨-, hF', -⟩ := hP'
    · exact tbMerge_levelsOrdered hF hF' hI h
    · exact tbMerge_levelsOrdered hF hF' hI h
  | tbWrap =>
    rw [(tbWrap_frame h).2]
    exact fun tree hr hfull => absurd hfull (tbWrap_not_full h hr)
  | tbFinish =>
    rw [(tbFinish_frame h).2]
    exact fun tree hr _ => tbFinish_descends hI h hr
  | caAssign =>
    obtain ⟨-, hF⟩ := hP
    rw [(caAssign_frame h).2]
    exact caAssign_monotoneLengths hF hI h
  | bpConcat => obtain ⟨-, _, _, rfl⟩ := bpConcat_next h; exact hI
  | bpPad =>
    obtain ⟨_, rfl | ⟨_, rfl⟩⟩ := bpPad_next h
    · exact absurd rfl ht.phase
    · exact hI
  | bpPack => obtain ⟨-, rfl⟩ := bpPack_next h; exact absurd rfl ht.phase
  | _ => simp [compressOps] at hi

theorem monotoneLengths_bpPack {s t : State} (hphase : s.phase = phaseOf .bpPack) (hI : LevelInvariant s)
    (h : exec .bpPack s = .next t) : MonotoneLengths t := by
  unfold LevelInvariant at hI
  rw [hphase] at hI
  obtain ⟨-, rfl⟩ := bpPack_next h
  exact hI

theorem levelInvariant_start {s : State} (h : s.phase = phaseOf .cStart) : LevelInvariant s := by
  unfold LevelInvariant
  rw [h]
  trivial

end Sys2Proof.Machine
end

section
/-! PROOFS. The statement about code lengths and frequencies. -/

namespace Sys2Proof.Machine

open Sys2Proof.Safety

/-- Settles O55: a node is taken from the queue before any node nearer to the root, so the levels of the finished tree
descend in frequency, and code lengths are depths of leaves. -/
theorem moreFrequentSymbolsGetNoLongerCodes : Obligations.MoreFrequentSymbolsGetNoLongerCodes := by
  intro s t k hL hb hrun hd herr
  exact compress_ends_with levelInvariant_exec (fun hlen _ => monotoneLengths_empty hlen)
    (fun _ => monotoneLengths_bpPack) levelInvariant_start hL hb hrun hd herr

end Sys2Proof.Machine
end

section
/-! SUPPORT. The bit packer: the error entry of COMPRESS, the length of the stream, the value of a byte. -/

namespace Sys2Proof.Machine

open Sys2Proof.Safety

/-! ## Error entry -/

/-- An element of a forgotten memory is a free value of the next epoch (60_exceptions.md R159; log 2). -/
theorem Memory.read_forget {w : Nat} (m : Memory w) (free : Nat → Nat → BitVec w) (i : Nat) :
    m.forget.read free i = free (m.epoch + 1) i := rfl

theorem raisedInCompress_raiseCompress (s : State) (e : ErrCode) : RaisedInCompress e s (s.raiseCompress e) where
  ended := ended_complete _ e
  packedLen := rfl
  padBits := rfl
  bitCount := rfl
  clen _ := Memory.read_clear ..
  cbits _ := Memory.read_forget ..
  packed _ := Memory.read_forget ..
  frame := rfl

/-- C.START on the empty text completes with the empty payload (43_compress_bitpacker.md R118). -/
theorem cStart_empty {s : State} (h : s.textLen = 0#32) : exec .cStart s =
    .next ({ s.clearMap with packedLen := 0#32, padBits := 0#32, bitCount := 0#32 }.complete .none) :=
  (if_neg (by rw [h]; decide)).trans (if_pos h)

/-! ## The length of the stream -/

section
variable {s : State}

theorem length_encodedText (s : State) :
    (encodedText s).length = ((List.range s.textLen.toNat).map fun i => (s.clenAt (s.textAt i)).toNat).sum := by
  simp only [encodedText, State.textSymbols, List.length_flatMap, List.map_map, Function.comp_def, length_code]

/-- The stream of an admitted text has a bit count of 32 bits (43_compress_bitpacker.md R119). -/
theorem length_encodedText_lt (h : s.textLen.toNat ≤ Config.NMAX) : (encodedText s).length < 2 ^ 32 := by
  have hlen : s.textLen.toNat ≤ 65535 := h
  have hle := length_encodedText_le s
  omega

/-- A code has a bit at least, so the stream has one for each symbol of the text. -/
theorem textLen_le_length_encodedText (h : ∀ y ∈ s.textSymbols, s.clenAt y ≠ 0#8) :
    s.textLen.toNat ≤ (encodedText s).length := by
  have hbit : ∀ n ∈ s.textSymbols.map fun y => (s.code y).length, 1 ≤ n := by
    intro n hn
    obtain ⟨y, hy, rfl⟩ := List.mem_map.1 hn
    rw [length_code]
    exact Nat.pos_of_ne_zero fun h0 => h y hy (BitVec.eq_of_toNat_eq h0)
  have hsum := List.card_nsmul_le_sum _ 1 hbit
  rwa [List.length_map, length_textSymbols, smul_eq_mul, mul_one, ← List.length_flatMap] at hsum

end

/-! ## The value of a byte -/

/-- The number eight bits of a stream write, the first being the most significant (20_memory.md R51). -/
def byteValue (b : Bits) (j : Nat) : Nat := ∑ k ∈ Finset.range 8, (b.getD (8 * j + k) false).toNat * 2 ^ (7 - k)

theorem packByte_eq_byteValue (b : Bits) (j : Nat) : packByte b j = BitVec.ofNat 8 (byteValue b j) := rfl

theorem byteValue_lt (b : Bits) (j : Nat) : byteValue b j < 256 := by
  have hle : byteValue b j ≤ ∑ k ∈ Finset.range 8, 1 * 2 ^ (7 - k) :=
    Finset.sum_le_sum fun k _ => Nat.mul_le_mul_right _ (Bool.toNat_le _)
  exact hle.trans_lt (by decide)

theorem toNat_packByte (b : Bits) (j : Nat) : (packByte b j).toNat = byteValue b j := Nat.mod_eq_of_lt (byteValue_lt b j)

theorem byteValue_congr {b c : Bits} {j : Nat} (h : ∀ k < 8, b.getD (8 * j + k) false = c.getD (8 * j + k) false) :
    byteValue b j = byteValue c j :=
  Finset.sum_congr rfl fun k hk => by rw [h k (Finset.mem_range.1 hk)]

/-- Past the end of the stream there are zero bits. -/
theorem byteValue_past_end {b : Bits} {j : Nat} (h : b.length ≤ 8 * j) : byteValue b j = 0 :=
  Finset.sum_eq_zero fun k _ => by
    rw [List.getD_eq_default _ _ (h.trans (Nat.le_add_right _ k)), Bool.toNat_false, Nat.zero_mul]

/-- So the padding leaves the value of every byte. -/
theorem byteValue_append_zeros (b : Bits) (n j : Nat) : byteValue (b ++ List.replicate n false) j = byteValue b j := by
  refine byteValue_congr fun k _ => ?_
  rcases Nat.lt_or_ge (8 * j + k) b.length with hk | hk
  · exact List.getD_append _ _ _ _ hk
  · rw [List.getD_append_right _ _ _ _ hk, List.getD_eq_default b _ hk, List.getD_eq_getElem?_getD]
    exact List.getElem?_getD_replicate_default_eq ..

/-- A further bit leaves the bytes before its own. -/
theorem byteValue_append_before {b : Bits} {j : Nat} (x : Bool) (h : j < b.length / 8) :
    byteValue (b ++ [x]) j = byteValue b j :=
  byteValue_congr fun k _ => List.getD_append _ _ _ _ (by omega)

/-- A further bit is added to its own byte with the weight of its place. -/
theorem byteValue_append_own (b : Bits) (x : Bool) :
    byteValue (b ++ [x]) (b.length / 8) =
      byteValue b (b.length / 8) + x.toNat * 2 ^ (7 - b.length % 8) := by
  have term : ∀ k, ((b ++ [x]).getD (8 * (b.length / 8) + k) false).toNat * 2 ^ (7 - k) =
      (b.getD (8 * (b.length / 8) + k) false).toNat * 2 ^ (7 - k) +
        if k = b.length % 8 then x.toNat * 2 ^ (7 - k) else 0 := by
    intro k
    rcases Nat.lt_trichotomy k (b.length % 8) with hk | rfl | hk
    · rw [List.getD_append _ _ _ _ (by omega), if_neg (by omega), Nat.add_zero]
    · simp [Nat.div_add_mod, List.getD_eq_getElem?_getD]
    · rw [List.getD_eq_default _ _ (by rw [List.length_append, List.length_singleton]; omega),
        List.getD_eq_default _ _ (by omega), if_neg (by omega), Nat.add_zero]
  have own : b.length % 8 ∈ Finset.range 8 := Finset.mem_range.2 (Nat.mod_lt _ (by decide))
  simp only [byteValue, term, Finset.sum_add_distrib, Finset.sum_ite_eq', own, if_true]

end Sys2Proof.Machine
end

section
/-! SUPPORT. What the streaming bit packer holds after each bit. -/

namespace Sys2Proof.Machine

open Sys2Proof.Safety

/-- What the streaming packer holds after a stream: its full bytes, and the bits after them in the accumulator
(43_compress_bitpacker.md R124). -/
structure PackerHolds (stream : Bits) (p : Packer) : Prop where
  nacc : p.nacc = stream.length % 8
  acc : p.acc * 2 ^ (8 - p.nacc) = byteValue stream (stream.length / 8)
  bitCount : p.bitCount = stream.length
  out : p.out = (List.range (stream.length / 8)).map (packByte stream)

theorem packerHolds_empty : PackerHolds [] ⟨0, 0, 0, []⟩ := ⟨rfl, rfl, rfl, rfl⟩

/-- One more bit either begins or goes on with a byte, or completes it (43_compress_bitpacker.md R124). -/
theorem packerHolds_push {p : Packer} {stream : Bits} (h : PackerHolds stream p) (b : Bool) :
    PackerHolds (stream ++ [b]) (p.push b) := by
  obtain ⟨hnacc, hacc, hcount, hout⟩ := h
  have hlen : (stream ++ [b]).length = stream.length + 1 := List.length_append
  have shift : (2 * p.acc + b.toNat) * 2 ^ (7 - p.nacc) = byteValue (stream ++ [b]) (stream.length / 8) := by
    rw [byteValue_append_own, ← hacc, ← hnacc, show 8 - p.nacc = 7 - p.nacc + 1 by omega]
    ring
  have small : 2 * p.acc + b.toNat < 256 :=
    (Nat.le_mul_of_pos_right _ (Nat.two_pow_pos _)).trans_lt (shift.trans_lt (byteValue_lt _ _))
  have before : (List.range (stream.length / 8)).map (packByte (stream ++ [b])) = p.out := by
    rw [hout]
    refine List.map_congr_left fun j hj => ?_
    rw [packByte_eq_byteValue, byteValue_append_before b (List.mem_range.1 hj), packByte_eq_byteValue]
  unfold Packer.push
  rw [Nat.mod_eq_of_lt small]
  by_cases hfull : p.nacc + 1 = 8
  · have hdiv : (stream.length + 1) / 8 = stream.length / 8 + 1 := by omega
    have hbyte : 2 * p.acc + b.toNat = byteValue (stream ++ [b]) (stream.length / 8) := by
      rw [← shift, show 7 - p.nacc = 0 by omega, Nat.pow_zero, Nat.mul_one]
    rw [if_pos hfull]
    refine ⟨?_, ?_, (congrArg (· + 1) hcount).trans hlen.symm, ?_⟩
    · simp only [hlen]; omega
    · rw [byteValue_past_end (by omega)]; exact Nat.zero_mul _
    · rw [hlen, hdiv, List.range_succ, List.map_append, before, List.map_singleton, packByte_eq_byteValue, hbyte]
  · have hdiv : (stream.length + 1) / 8 = stream.length / 8 := by omega
    rw [if_neg hfull]
    refine ⟨?_, ?_, (congrArg (· + 1) hcount).trans hlen.symm, ?_⟩
    · simp only [hlen]; omega
    · rw [hlen, hdiv, ← shift, Nat.add_comm p.nacc, ← Nat.sub_sub]
    · rw [hlen, hdiv, before]

/-- The packer holds the stream it was given, bit by bit. -/
theorem packerHolds_foldl (stream : Bits) : PackerHolds stream (stream.foldl Packer.push ⟨0, 0, 0, []⟩) := by
  induction stream using List.reverseRecOn with
  | nil => exact packerHolds_empty
  | append_singleton stream b ih =>
    rw [List.foldl_append]
    exact packerHolds_push ih b

end Sys2Proof.Machine
end

section
/-! SUPPORT. Where a run of COMPRESS ends, and the metadata of the payload there. -/

namespace Sys2Proof.Machine

open Sys2Proof.Safety

/-! ## Runs -/

/-- The idle machine with no host action pending stays as it is (30_encoding.md R74). -/
theorem runSteps_idle {s : State} (hin : s.inputs = []) (hphase : s.phase = 0#5) (k : Nat) :
    runSteps k s = .next s := by
  induction k with
  | zero => rfl
  | succ k ih =>
    have hidle : step s = .next s := step_engine hin (i := .idle) (by rw [hphase]; rfl)
    exact (runSteps_succ hidle k).trans ih

/-- A step of a run of COMPRESS writes neither `TEXT` nor `TEXT_LEN` (20_memory.md R62). -/
theorem compressReaches_keeps_text {I E : State → Prop} {s t : State} (h : CompressReaches I E s)
    (ht : step s = .next t) : t.text = s.text ∧ t.textLen = s.textLen := by
  obtain ⟨hrun, -, i, hi, hphase⟩ | ⟨hin, hphase, -⟩ := h
  · have decodes : ∀ i ∈ compressOps, decode (.phase (phaseOf i)) = .ok i := by decide
    exact compress_keeps_text hi ((step_engine hrun.inputs (hphase ▸ decodes i hi)).symm.trans ht)
  · cases (runSteps_idle hin hphase 1).symm.trans (runSteps_succ ht 0)
    exact ⟨rfl, rfl⟩

section
variable {s t : State} {k : Nat} (hL : Legal s) (hb : s.busy = false)
  (hrun : runSteps (k + 1) { s with inputs := [.writeReg 0 0x00000001#32] } = .next t)
include hL hb hrun

/-- A run of COMPRESS keeps its text (20_memory.md R62). -/
theorem compress_run_keeps_text : t.text = s.text ∧ t.textLen = s.textLen := by
  obtain ⟨command, started⟩ := compress_starts hL hb
  rw [runSteps_succ command] at hrun
  refine (runSteps_keeps (P := fun u => CompressReaches (fun _ => True) (fun _ => True) u ∧
    u.text = s.text ∧ u.textLen = s.textLen) ?_ ⟨.inl ⟨started, trivial, .cStart, by decide, rfl⟩, rfl, rfl⟩ hrun).2
  rintro u v ⟨hu, htext, hlen⟩ hv
  obtain ⟨htext', hlen'⟩ := compressReaches_keeps_text hu hv
  exact ⟨compressReaches_step (fun _ _ _ _ _ _ => trivial) (fun _ _ => trivial) (fun _ _ _ _ => trivial) hu hv,
    htext'.trans htext, hlen'.trans hlen⟩

/-- On the empty text the run ends where C.START completes (43_compress_bitpacker.md R118). -/
theorem compress_run_empty (hlen : s.textLen = 0#32) (hd : t.done = true) :
    exec .cStart ({ s with inputs := [] }.start .cStart) = .next t := by
  obtain ⟨command, -⟩ := compress_starts hL hb
  rw [runSteps_succ command] at hrun
  cases k with
  | zero => cases hrun; cases hd
  | succ k =>
    obtain ⟨u, hu, hin, hphase⟩ : ∃ u, exec .cStart ({ s with inputs := [] }.start .cStart) = .next u ∧
        u.inputs = [] ∧ u.phase = 0#5 :=
      ⟨_, cStart_empty (s := { s with inputs := [] }.start .cStart) hlen, rfl, rfl⟩
    rw [runSteps_succ ((step_engine rfl rfl).trans hu), runSteps_idle hin hphase] at hrun
    exact hu.trans hrun

end

/-! ## Metadata -/

/-- The metadata of a payload and its text's length (43_compress_bitpacker.md R119 to R121, R118 for the empty one). -/
structure PayloadMetadata (t : State) : Prop where
  padBits : t.padBits.toNat = padding t.bitCount.toNat
  packedLen : t.packedLen.toNat = (t.bitCount.toNat + t.padBits.toNat) / 8
  empty : t.textLen.toNat = 0 → t.bitCount.toNat = 0
  textLen : t.textLen.toNat ≤ t.bitCount.toNat

theorem payloadMetadata_cStart_empty {s t : State} (hlen : s.textLen = 0#32) (h : exec .cStart s = .next t) :
    PayloadMetadata t := by
  cases (cStart_empty hlen).symm.trans h
  exact ⟨(by decide : 0 = padding 0), (Nat.zero_div 8).symm, fun _ => rfl, (congrArg BitVec.toNat hlen).le⟩

/-- BP.PACK ends with the metadata of the encoded text. -/
theorem payloadMetadata_bpPack {s t : State} (hP : PhaseInvariant s) (hphase : s.phase = phaseOf .bpPack)
    (h : exec .bpPack s = .next t) : PayloadMetadata t := by
  unfold PhaseInvariant at hP
  rw [hphase] at hP
  obtain ⟨⟨hne, -⟩, ⟨hsyms, -⟩, hbits, hcount, hpad, hfits⟩ := hP
  obtain ⟨-, rfl⟩ := bpPack_next h
  have hlen : s.bits.length = s.bitCount.toNat + s.padBits.toNat := by
    rw [hbits, List.length_append, List.length_replicate, hcount]
  have hbytes : s.bits.length / 8 ≤ 65535 := hfits
  have packed : (BitVec.ofNat 32 (s.bits.length / 8)).toNat = s.bits.length / 8 := Nat.mod_eq_of_lt (by omega)
  refine ⟨hpad, packed.trans (congrArg (· / 8) hlen), fun h0 => absurd (BitVec.eq_of_toNat_eq h0) hne, ?_⟩
  exact (textLen_le_length_encodedText fun y hy => (hsyms y).2 hy).trans_eq hcount.symm

/-- Every COMPRESS without error, from any legal idle state, ends with the metadata of its payload. -/
theorem compress_run_metadata {s t : State} {k : Nat} (hL : Legal s) (hb : s.busy = false)
    (hrun : runSteps (k + 1) { s with inputs := [.writeReg 0 0x00000001#32] } = .next t) (hd : t.done = true)
    (herr : t.err = .none) : PayloadMetadata t := by
  obtain hlen | hmeta : t.textLen = 0#32 ∨ PayloadMetadata t :=
    compress_ends_with (I := fun _ => True) (E := fun u => u.textLen = 0#32 ∨ PayloadMetadata u)
      (fun _ _ _ _ _ _ => trivial) (fun hlen _ => .inl hlen)
      (fun hrun hphase _ h => .inr (payloadMetadata_bpPack hrun.invariant hphase h)) (fun _ => trivial) hL hb hrun hd herr
  · have hlen' : s.textLen = 0#32 := (compress_run_keeps_text hL hb hrun).2.symm.trans hlen
    exact payloadMetadata_cStart_empty (s := { s with inputs := [] }.start .cStart) hlen'
      (compress_run_empty hL hb hrun hlen' hd)
  · exact hmeta

end Sys2Proof.Machine
end

section
/-! PROOFS. The statements about the admission of COMPRESS, the bit packer and the payload's metadata. -/

namespace Sys2Proof.Machine

open Sys2Proof.Safety

/-- Settles O29: the metadata are those of the padded stream where BP.PACK ends the run, and 0 where C.START does, on
the empty text. -/
theorem payloadMetadataRelations : Obligations.PayloadMetadataRelations := by
  intro s t k hL hb hrun hd herr
  obtain ⟨hpad, hpacked, hempty, htext⟩ := compress_run_metadata hL hb hrun hd herr
  have hle := padding_le t.bitCount.toNat
  have hmod := add_padding_mod t.bitCount.toNat
  rw [← hpad] at hle hmod
  exact ⟨hle, hmod, hpacked, by omega, ⟨by omega, hempty⟩, htext⟩

/-- Settles O26: `BITS` is the encoded text, whose length fits `BITCOUNT`. -/
theorem bpConcatJoinsTheCodes : Obligations.BpConcatJoinsTheCodes := by
  intro s hn
  have count : (BitVec.ofNat 32 (encodedText s).length).toNat = (encodedText s).length :=
    Nat.mod_eq_of_lt (length_encodedText_lt hn)
  refine ⟨_, if_neg (Nat.not_lt.2 hn), rfl, List.flatMap_map .., count, count.trans (length_encodedText s), ?_, rfl⟩
  intro hcodes
  refine (textLen_le_length_encodedText fun y hy => ?_).trans_eq count.symm
  obtain ⟨i, hi, rfl⟩ := mem_textSymbols.1 hy
  exact hcodes i hi

/-- Settles O28: the bytes written are the bytes of the stream, whose values fit eight bits. -/
theorem bpPackWritesBigEndianBytes : Obligations.BpPackWritesBigEndianBytes := by
  intro s hn
  have packed := Memory.read_writeRange s.packed Config.freePacked (packByte s.bits) (s.bits.length / 8)
  refine ⟨_, if_neg (Nat.not_lt.2 hn), ended_complete _ _, Nat.mod_eq_of_lt (by omega), fun j hj => ?_, fun j hj => ?_,
    rfl⟩
  · exact (congrArg BitVec.toNat ((packed j).trans (if_pos hj))).trans (toNat_packByte s.bits j)
  · exact (packed j).trans (if_neg (Nat.not_lt.2 hj))

/-- Settles O31: the accumulator holds the bits of the byte begun, which the padding completes with zeros. -/
theorem streamingPackerAgrees : Obligations.StreamingPackerAgrees := by
  rintro stream padded rfl
  obtain ⟨hnacc, hacc, hcount, hout⟩ := packerHolds_foldl stream
  have bytes : packByte (stream ++ List.replicate (padding stream.length) false) = packByte stream :=
    funext fun j => congrArg (BitVec.ofNat 8) (byteValue_append_zeros ..)
  rw [bytes, List.length_append, List.length_replicate]
  rw [hnacc] at hacc
  simp only [streamPack, hcount, hout, hnacc]
  split
  · next hpartial =>
    have hpad : padding stream.length = 8 - stream.length % 8 := by unfold padding; omega
    rw [hpad, show (stream.length + (8 - stream.length % 8)) / 8 = stream.length / 8 + 1 by omega, List.range_succ,
      List.map_append, hacc]
    rfl
  · next hfull =>
    have hpad : padding stream.length = 0 := by unfold padding; omega
    rw [hpad, Nat.add_zero]

/-- Settles O13, by the three cases of C.START. -/
theorem cStartAdmits : Obligations.CStartAdmits := fun s =>
  ⟨fun hn => ⟨_, if_pos hn, raisedInCompress_raiseCompress s _⟩,
    fun h0 => ⟨_, cStart_empty h0, ended_complete _ _, rfl, rfl, rfl,
      fun _ => ⟨Memory.read_clear .., Memory.read_clear ..⟩, rfl⟩,
    fun h0 hn => (if_neg (Nat.not_lt.2 hn)).trans (if_neg h0)⟩

/-- Settles O27: the capacity test decides, and error entry overwrites the padding count. -/
theorem bpPadReachesTheByteBoundary : Obligations.BpPadReachesTheByteBoundary := by
  rintro s _ rfl
  exact ⟨fun hn => ⟨_, if_pos hn, raisedInCompress_raiseCompress s _⟩, fun hn => if_neg (Nat.not_lt.2 hn)⟩

end Sys2Proof.Machine
end

section
/-! SUPPORT. What the micro-operations of DECOMPRESS before the scan answer, case by case (44_decompress.md R131 to
R135). -/

namespace Sys2Proof.Machine

open Sys2Proof.Safety

section
variable {s : State}

/-! ## D.START and D.MAPCHECK -/

/-- What D.START does with no bytes and the empty map (44_decompress.md R131). -/
theorem dStart_empty (hmap : s.mapEmpty = true) (hlen : s.packedLen = 0#32) :
    exec .dStart s =
      if s.padBits = 0#32 ∧ s.bitCount = 0#32 then .next ({ s with textLen := 0#32 }.complete .none)
      else .next (s.raiseDecompress .malformedPayload) :=
  (if_neg (by rw [hlen]; decide)).trans (if_pos ⟨hmap, hlen⟩)

/-- D.START admits every other payload that fits (44_decompress.md R131). -/
theorem dStart_goesOn (hn : s.packedLen.toNat ≤ Config.PMAX) (h : ¬ (s.mapEmpty = true ∧ s.packedLen = 0#32)) :
    exec .dStart s = .next (s.goto .dMapcheck) :=
  (if_neg (Nat.not_lt.2 hn)).trans (if_neg h)

theorem mapEmpty_eq_false : s.mapEmpty = false ↔ ∃ y, s.clenAt y ≠ 0#8 := by
  rw [← Bool.not_eq_true, mapEmpty_iff, not_forall]

/-- D.MAPCHECK on a map and bytes that are both there decides by the codes alone (44_decompress.md R132). -/
theorem dMapcheck_eq (hmap : s.mapEmpty = false) (hlen : s.packedLen ≠ 0#32) :
    exec .dMapcheck s =
      if s.prefixFree then .next (s.goto .dInvert) else .next (s.raiseDecompress .invalidCodeMap) :=
  if_neg (by simp [hmap, hlen])

theorem dMapcheck_empty (h : s.mapEmpty = true ∨ s.packedLen = 0#32) :
    exec .dMapcheck s = .next (s.raiseDecompress .invalidCodeMap) := if_pos h

theorem dMapcheck_not_prefixFree (h : s.prefixFree ≠ true) :
    exec .dMapcheck s = .next (s.raiseDecompress .invalidCodeMap) := by
  by_cases he : s.mapEmpty = true ∨ s.packedLen = 0#32
  · exact dMapcheck_empty he
  · exact (if_neg he).trans (if_neg h)

/-! ## D.INVERT -/

theorem dInvert_eq (h : s.codesDistinct = true) :
    exec .dInvert s = .next ({ s with rev := s.present.map fun y => (s.code y, y) }.goto .dMeta) := if_pos h

/-- D.INVERT leaves the reverse of the code map (44_decompress.md R133). -/
theorem inverted_dInvert {t : State} (hd : s.codesDistinct = true) (h : exec .dInvert s = .next t) : Inverted t := by
  have distinct := codesDistinct_iff.1 hd
  cases dInvert_next h
  intro b y
  refine (revLookup_map (fun y hy z hz hne => distinct y z hne (mem_present.1 hy) (mem_present.1 hz)) b y).trans ?_
  exact and_congr_left' mem_present

/-! ## D.META and BU.UNPACK -/

/-- D.META passes metadata that agree (44_decompress.md R134). -/
theorem dMeta_goesOn (hpad : s.padBits.toNat ≤ 7)
    (hlen : s.bitCount.toNat + s.padBits.toNat = 8 * s.packedLen.toNat) :
    exec .dMeta s = .next (s.goto .buUnpack) :=
  if_neg (by omega)

theorem buUnpack_eq (h : s.bitCount.toNat ≤ 8 * Config.PMAX) :
    exec .buUnpack s = .next ({ s with bits := (List.range s.bitCount.toNat).map s.streamBit }.goto .srScan) :=
  if_neg (Nat.not_lt.2 h)

/-- A stream bit is a bit of its byte, the most significant one first (20_memory.md R52). -/
theorem streamBit_eq_testBit (s : State) (n : Nat) :
    s.streamBit n = (s.packedAt (n / 8)).toNat.testBit (7 - n % 8) :=
  Nat.testBit_eq_decide_div_mod_eq.symm

end

end Sys2Proof.Machine
end

section
/-! PROOFS. The statements about the micro-operations of DECOMPRESS before the scan. -/

namespace Sys2Proof.Machine

open Sys2Proof.Safety

/-- Settles O32, by the order of D.START's checks. -/
theorem dStartAdmits : Obligations.DStartAdmits := by
  intro s
  refine ⟨fun hn => if_pos hn, fun hmap hlen => ?_, fun hn h => dStart_goesOn hn ?_⟩
  · have hexec := dStart_empty (mapEmpty_iff.2 hmap) hlen
    exact ⟨fun hpad hcount => hexec.trans (if_pos ⟨hpad, hcount⟩), fun h => hexec.trans (if_neg (not_and_or.2 h))⟩
  · rintro ⟨hmap, hlen⟩
    rcases h with ⟨y, hy⟩ | hlen'
    · exact hy (mapEmpty_iff.1 hmap y)
    · exact hlen' hlen

/-- Settles O33: the map is found empty, or some code is found to begin another, or neither. -/
theorem dMapcheckChecksTheCodeMap : Obligations.DMapcheckChecksTheCodeMap := by
  intro s
  refine ⟨fun h => dMapcheck_empty (h.imp_left mapEmpty_iff.2), ?_, fun hmap hlen hfree => ?_⟩
  · rintro ⟨y, z, hne, hy, hz, hpre⟩
    exact dMapcheck_not_prefixFree fun hfree => prefixFree_iff.1 hfree y z hne hy hz hpre
  · exact (dMapcheck_eq (mapEmpty_eq_false.2 hmap) hlen).trans (if_pos (prefixFree_iff.2 hfree))

/-- Settles O34: on distinct codes a lookup in the list of pairs finds the one symbol of its code. -/
theorem dInvertReversesTheCodeMap : Obligations.DInvertReversesTheCodeMap := by
  intro s
  refine ⟨fun hd => ?_, ?_⟩
  · have hexec := dInvert_eq (codesDistinct_iff.2 hd)
    exact ⟨_, hexec, rfl, inverted_dInvert (codesDistinct_iff.2 hd) hexec, rfl⟩
  · rintro ⟨y, z, hne, hy, hz, he⟩
    exact if_neg fun hd => codesDistinct_iff.1 hd y z hne hy hz he

/-- Settles O35: the comparison is D.META's own. -/
theorem dMetaChecksTheLengths : Obligations.DMetaChecksTheLengths := fun _ => ⟨fun h => if_pos h, dMeta_goesOn⟩

/-- Settles O36: `BITS` lists the stream bits, each a bit of its byte. -/
theorem buUnpackReadsTheStreamBits : Obligations.BuUnpackReadsTheStreamBits := by
  intro s hn
  refine ⟨_, buUnpack_eq hn, rfl, ?_, fun n hlt => ?_, rfl⟩
  · simp
  · rw [← streamBit_eq_testBit]
    simp [hlt]

end Sys2Proof.Machine
end

section
/-! SUPPORT. SR.SCAN on a greedy reading that leaves bits over or does not fit in `TEXT`, and a map without one of its
symbols. -/

namespace Sys2Proof.Machine

open Sys2Proof.Safety

/-! ## Outcomes of the scan -/

theorem Memory.epoch_writeRange {w : Nat} (m : Memory w) (v : Nat → BitVec w) (n : Nat) :
    (m.writeRange v n).epoch = m.epoch := by
  induction n with
  | zero => rfl
  | succ n ih => exact (Memory.epoch_write ..).trans ih

/-- t is what SR.SCAN leaves of the control registers and the text when it has raised e in s (60_exceptions.md R159). -/
structure RaisedInScan (e : ErrCode) (s t : State) : Prop where
  ended : Ended e t
  textLen : t.textLen = 0#32
  text : ∀ k, t.textAt k = Config.freeText (s.text.epoch + 1) k

/-- Raising after any number of symbols leaves free values of the next epoch (60_exceptions.md R159; log 2). -/
theorem raisedInScan_emitted (s : State) (v : Nat → Byte) (n : Nat) (b : Bits) (e : ErrCode) :
    RaisedInScan e s (State.raiseScan { emitted s v n with buf := b } e) where
  ended := ended_complete _ e
  textLen := rfl
  text k := congrArg (fun epoch => Config.freeText (epoch + 1) k) (Memory.epoch_writeRange s.text v n)

section
variable {s t : State} {ws : List (Bits × Byte)} {rest : Bits}

theorem shortestMatch_of_greedyParse {rev : List (Bits × Byte)} {stream : Bits} (h : GreedyParse rev stream ws rest) :
    ∀ w ∈ ws, ShortestMatch rev w := fun w hw =>
  ⟨(h.code w hw).1, (h.code w hw).2, h.shortest w hw⟩

/-- The symbol of match number k. -/
def symbolAt (ws : List (Bits × Byte)) (k : Nat) : Byte := ((ws[k]?).map Prod.snd).getD 0#8

theorem some_symbolAt {k : Nat} (hk : k < ws.length) : (ws[k]?).map Prod.snd = some (symbolAt ws k) := by
  simp [symbolAt, hk]

/-- SR.SCAN on a stream that begins with matches that fit in `TEXT` goes on behind them with their symbols emitted
(44_decompress.md R136). -/
theorem srScan_after_matches (hw : ∀ w ∈ ws, ShortestMatch s.rev w) (hfit : ws.length ≤ Config.NMAX) {q : Bits}
    (hs : s.bits = (ws.map Prod.fst).flatten ++ q) (ht : exec .srScan s = .next t) :
    t = scan q (emitted s (symbolAt ws) ws.length) := by
  rw [← scan_matches s hw (fun k => some_symbolAt) hfit q, ← hs]
  cases ht
  rfl

/-- A leftover is malformed (44_decompress.md R137). -/
theorem srScan_leftover (h : GreedyParse s.rev s.bits ws rest) (hfit : ws.length ≤ Config.NMAX) (hrest : rest ≠ [])
    (ht : exec .srScan s = .next t) : RaisedInScan .malformedPayload s t := by
  have skip := scan_skip rest [] (emitted s (symbolAt ws) ws.length) h.leftover
  rw [List.append_nil] at skip
  rw [srScan_after_matches (shortestMatch_of_greedyParse h) hfit h.split ht, skip.trans (if_neg hrest)]
  exact raisedInScan_emitted ..

/-- The match after `NMAX` symbols is one too many (44_decompress.md R136). -/
theorem srScan_overflow (h : GreedyParse s.rev s.bits ws rest) (hlong : Config.NMAX < ws.length)
    (ht : exec .srScan s = .next t) : RaisedInScan .capacityExceeded s t := by
  have hmatch := shortestMatch_of_greedyParse h
  obtain ⟨before, w, after, rfl, hbefore⟩ : ∃ before w after, ws = before ++ w :: after ∧ before.length = Config.NMAX :=
    ⟨ws.take Config.NMAX, ws[Config.NMAX], _, by rw [← List.drop_eq_getElem_cons hlong, List.take_append_drop],
      List.length_take_of_le hlong.le⟩
  have split : s.bits = (before.map Prod.fst).flatten ++ (w.1 ++ ((after.map Prod.fst).flatten ++ rest)) := by
    rw [h.split]
    simp
  obtain ⟨hne, hlookup, hshortest⟩ := hmatch w (List.mem_append_right _ List.mem_cons_self)
  have full := scan_match (s := emitted s (symbolAt before) before.length) ((after.map Prod.fst).flatten ++ rest) rfl hne
    hlookup hshortest
  rw [srScan_after_matches (fun w hw => hmatch w (List.mem_append_left _ hw)) hbefore.le split ht,
    full.trans (if_pos hbefore)]
  exact raisedInScan_emitted ..

end

/-! ## A map without a symbol -/

section
variable {s : State} {x y : Byte}

/-- The map without the code of x (44_decompress.md R140). -/
def State.withoutCode (s : State) (x : Byte) : State := { s with clen := s.clen.write x.toNat 0#8 }

theorem clenAt_withoutCode_ne (h : y ≠ x) : (s.withoutCode x).clenAt y = s.clenAt y :=
  Memory.read_write_ne _ _ _ (toNat_ne_of_ne h)

theorem code_withoutCode_ne (h : y ≠ x) : (s.withoutCode x).code y = s.code y := by
  simp only [State.code, clenAt_withoutCode_ne h]
  rfl

theorem clenAt_withoutCode_ne_zero : (s.withoutCode x).clenAt y ≠ 0#8 ↔ y ≠ x ∧ s.clenAt y ≠ 0#8 := by
  by_cases h : y = x
  · subst h; simp [State.withoutCode, State.clenAt]
  · simp [clenAt_withoutCode_ne h, h]

theorem prefixFree_withoutCode (h : s.prefixFree = true) (x : Byte) : (s.withoutCode x).prefixFree = true := by
  refine prefixFree_iff.2 fun y z hne hy hz => ?_
  obtain ⟨hyx, hy⟩ := clenAt_withoutCode_ne_zero.1 hy
  obtain ⟨hzx, hz⟩ := clenAt_withoutCode_ne_zero.1 hz
  rw [code_withoutCode_ne hyx, code_withoutCode_ne hzx]
  exact prefixFree_iff.1 h y z hne hy hz

/-- `REV` is the reverse of the map without x. -/
theorem inverted_withoutCode (h : ∀ b y, revLookup s.rev b = some y ↔ y ≠ x ∧ s.clenAt y ≠ 0#8 ∧ s.code y = b) :
    Inverted (s.withoutCode x) := by
  refine fun b y => (h b y).trans ?_
  rw [clenAt_withoutCode_ne_zero, and_assoc]
  exact and_congr_right fun hyx => by rw [code_withoutCode_ne hyx]

/-- From the code of the missing symbol on nothing matches: what matched would be a code that begins this one, or that
this one begins. -/
theorem no_match_from_missing_code (hp : s.prefixFree = true) (hx : s.clenAt x ≠ 0#8)
    (hrev : ∀ b y, revLookup s.rev b = some y → y ≠ x ∧ s.clenAt y ≠ 0#8 ∧ s.code y = b) {p q : Bits}
    (hpre : p <+: s.code x ++ q) : revLookup s.rev p = none := by
  by_contra h
  obtain ⟨y, hy⟩ := Option.ne_none_iff_exists'.1 h
  obtain ⟨hyx, hclen, rfl⟩ := hrev p y hy
  rcases List.prefix_or_prefix_of_prefix hpre (List.prefix_append _ _) with h | h
  · exact prefixFree_iff.1 hp y x hyx hclen hx h
  · exact prefixFree_iff.1 hp x y hyx.symm hx hclen h

/-- The greedy reading of a text's codes without the symbol x ends before the first x. -/
theorem greedyParse_missing_code (hp : s.prefixFree = true) (hx : s.clenAt x ≠ 0#8)
    (hrev : ∀ b y, revLookup s.rev b = some y ↔ y ≠ x ∧ s.clenAt y ≠ 0#8 ∧ s.code y = b) {before : List Byte}
    (hbefore : ∀ y ∈ before, y ≠ x ∧ s.clenAt y ≠ 0#8) (after : List Byte) :
    GreedyParse s.rev ((before ++ x :: after).flatMap s.code) (before.map fun y => (s.code y, y))
      (s.code x ++ after.flatMap s.code) := by
  have hmatch : ∀ w ∈ before.map fun y => (s.code y, y), ShortestMatch s.rev w := by
    refine List.forall_mem_map.2 fun y hy => ?_
    have := shortestMatch_code (prefixFree_withoutCode hp x) (inverted_withoutCode hrev)
      (clenAt_withoutCode_ne_zero.2 (hbefore y hy))
    rwa [code_withoutCode_ne (hbefore y hy).1] at this
  refine ⟨?_, fun w hw => ⟨(hmatch w hw).ne_nil, (hmatch w hw).lookup⟩, fun w hw => (hmatch w hw).shortest,
    fun p hpre _ => no_match_from_missing_code hp hx (fun b y => (hrev b y).1) hpre⟩
  rw [List.flatMap_append, List.flatMap_cons, List.map_map, List.flatMap_def]
  rfl

end

end Sys2Proof.Machine
end

section
/-! PROOFS. The statements about SR.SCAN. -/

namespace Sys2Proof.Machine

open Sys2Proof.Safety

/-- Settles O37: the scan emits the matches of the greedy reading one by one, until the stream ends, nothing matches any
more, or `TEXT` is full. -/
theorem srScanEmitsTheGreedyReading : Obligations.SrScanEmitsTheGreedyReading := by
  intro s
  obtain ⟨ws, rest, h⟩ := exists_greedyParse s.rev s.bits
  obtain ⟨t, ht⟩ : ∃ t, exec .srScan s = .next t := ⟨_, rfl⟩
  refine ⟨ws, rest, t, h, ht, fun hfit hrest => ?_, fun hfit hrest => ?_, fun hlong => ?_, (srScan_frame ht).1⟩
  · obtain ⟨u, hu, complete⟩ :=
      srScan_matches (shortestMatch_of_greedyParse h) hfit (by rw [h.split, hrest, List.append_nil])
    cases hu.symm.trans ht
    exact complete
  · obtain ⟨hend, hlen, htext⟩ := srScan_leftover h hfit hrest ht
    exact ⟨hend, hlen, htext⟩
  · obtain ⟨hend, hlen, htext⟩ := srScan_overflow h hlong ht
    exact ⟨hend, hlen, htext⟩

/-- Settles O40: the greedy reading stops before the first code of the missing symbol, and what is left is not empty. -/
theorem missingCodeIsMalformed : Obligations.MissingCodeIsMalformed := by
  intro s ys x hp hys hx hfit hs hrev
  obtain ⟨before, after, rfl, hbefore⟩ := List.eq_append_cons_of_mem hx
  have hclen : s.clenAt x ≠ 0#8 := hys x hx
  have reading := greedyParse_missing_code hp hclen hrev
    (fun y hy => ⟨fun e => hbefore (e ▸ hy), hys y (List.mem_append_left _ hy)⟩) after
  rw [← hs] at reading
  have hrest : s.code x ++ after.flatMap s.code ≠ [] := fun h => hclen <| BitVec.eq_of_toNat_eq <| by
    rw [← length_code, (List.append_eq_nil_iff.1 h).1]
    rfl
  have hlen : (before.map fun y => (s.code y, y)).length ≤ 65535 := by
    rw [List.length_append] at hfit
    rw [List.length_map]
    omega
  obtain ⟨hend, htext, -⟩ := srScan_leftover reading hlen hrest rfl
  exact ⟨_, rfl, hend, htext⟩

end Sys2Proof.Machine
end

section
/-! SUPPORT. The payload COMPRESS leaves, and the run of DECOMPRESS on it. -/

namespace Sys2Proof.Machine

open Sys2Proof.Safety

/-! ## The payload -/

/-- What COMPRESS leaves of a text that is not empty: the encoder's map, and in `PACKED`, inside its bounds, the encoded
text (43_compress_bitpacker.md R119 to R121). -/
structure EncodedPayload (t : State) : Prop where
  admitted : TextAdmitted t
  map : EncoderMap t
  fits : t.packedLen.toNat ≤ Config.PMAX
  stream : (List.range t.bitCount.toNat).map t.streamBit = encodedText t

/-- BP.PACK leaves the encoded text in `PACKED`, as BU.UNPACK would read it (20_memory.md R51, R52). -/
theorem encodedPayload_bpPack {s t : State} (hP : PhaseInvariant s) (hphase : s.phase = phaseOf .bpPack)
    (h : exec .bpPack s = .next t) : EncodedPayload t := by
  have map := encoderMap_bpPack hP hphase h
  unfold PhaseInvariant at hP
  rw [hphase] at hP
  obtain ⟨hT, -, hbits, hcount, hpad, hfits⟩ := hP
  have admitted := textAdmitted_exec (by decide) h hT
  have hlen : s.bits.length = s.bitCount.toNat + padding s.bitCount.toNat := by
    rw [hbits, List.length_append, List.length_replicate, ← hcount, hpad]
  have hmod : s.bits.length % 8 = 0 := hlen ▸ add_padding_mod _
  have htake : s.bits.take s.bitCount.toNat = encodedText s := by rw [hbits, hcount, List.take_left]
  have hbytes : s.bits.length / 8 ≤ 65535 := hfits
  have hread : s.bitCount.toNat ≤ 8 * 65535 := by omega
  obtain ⟨-, ht⟩ := bpPack_next h
  have bits := unpackInvertsPack s t _ hmod (by omega) h (buUnpack_eq (by rw [ht]; exact hread))
  subst ht
  exact ⟨admitted, map, (Nat.mod_le _ _).trans hfits, bits.trans htake⟩

/-- Every COMPRESS without error leaves the empty map of the empty text, or the encoded text. -/
theorem compress_run_payload {s t : State} {k : Nat} (hL : Legal s) (hb : s.busy = false)
    (hrun : runSteps (k + 1) { s with inputs := [.writeReg 0 0x00000001#32] } = .next t) (hd : t.done = true)
    (herr : t.err = .none) : (t.textLen = 0#32 ∧ t.mapEmpty = true) ∨ EncodedPayload t :=
  compress_ends_with (I := fun _ => True) (E := fun u => (u.textLen = 0#32 ∧ u.mapEmpty = true) ∨ EncodedPayload u)
    (fun _ _ _ _ _ _ => trivial) (fun hlen hclen => .inl ⟨hlen, mapEmpty_iff.2 hclen⟩)
    (fun hrun hphase _ h => .inr (encodedPayload_bpPack hrun.invariant hphase h)) (fun _ => trivial) hL hb hrun hd herr

/-- The metadata of the empty text's payload are 0 (43_compress_bitpacker.md R123). -/
theorem payloadMetadata_empty {t : State} (h : PayloadMetadata t) (h0 : t.textLen = 0#32) :
    t.packedLen = 0#32 ∧ t.padBits = 0#32 ∧ t.bitCount = 0#32 := by
  have hcount : t.bitCount.toNat = 0 := h.empty (congrArg BitVec.toNat h0)
  have hpad : t.padBits.toNat = 0 := by rw [h.padBits, hcount]; rfl
  have hpacked : t.packedLen.toNat = 0 := by rw [h.packedLen, hcount, hpad]
  exact ⟨BitVec.eq_of_toNat_eq hpacked, BitVec.eq_of_toNat_eq hpad, BitVec.eq_of_toNat_eq hcount⟩

/-! ## The run of DECOMPRESS -/

/-- The DECOMPRESS word written in an idle state starts D.START (10_state.md R22). -/
theorem decompress_starts {s : State} (hb : s.busy = false) :
    step { s with inputs := [.writeReg 0 0x00000002#32] } = .next ({ s with inputs := [] }.start .dStart) :=
  (step_command (v := 0x00000002#32) rfl).trans (exec_decompress_idle (s := { s with inputs := [] }) hb)

/-- With no host action pending the micro-operation of `PHASE` is the next step of the run. -/
theorem runSteps_exec {i : Instr} {s t : State} (hin : s.inputs = []) (hi : decode (.phase s.phase) = .ok i)
    (h : exec i s = .next t) (k : Nat) : runSteps (k + 1) s = runSteps k t :=
  runSteps_succ ((step_engine hin hi).trans h) k

/-- The payload passes the checks of D.START, D.MAPCHECK and D.META (44_decompress.md R131, R132, R134). -/
structure PayloadAccepted (s : State) : Prop where
  fits : s.packedLen.toNat ≤ Config.PMAX
  map : s.mapEmpty = false
  bytes : s.packedLen ≠ 0#32
  prefixFree : s.prefixFree = true
  padBits : s.padBits.toNat ≤ 7
  length : s.bitCount.toNat + s.padBits.toNat = 8 * s.packedLen.toNat

/-- The encoded text passes the checks. -/
theorem payloadAccepted_of_encoded {s : State} (h : EncodedPayload s) (hm : PayloadMetadata s) : PayloadAccepted s := by
  obtain ⟨hpad, hpacked, -, htext⟩ := hm
  obtain ⟨hsyms, hfree⟩ := h.map
  have hpos : 0 < s.textLen.toNat := Nat.pos_of_ne_zero fun h0 => h.admitted.1 (BitVec.eq_of_toNat_eq h0)
  have hmod := add_padding_mod s.bitCount.toNat
  rw [← hpad] at hmod
  have hlen : s.bitCount.toNat + s.padBits.toNat = 8 * s.packedLen.toNat := by omega
  refine ⟨h.fits, mapEmpty_eq_false.2 ⟨s.textAt 0, (hsyms _).2 (mem_textSymbols.2 ⟨0, hpos, rfl⟩)⟩, fun h0 => ?_, hfree,
    hpad.trans_le (padding_le _), hlen⟩
  have hzero : s.packedLen.toNat = 0 := congrArg BitVec.toNat h0
  omega

/-- The state in which DECOMPRESS scans the payload of s: `REV` is its map reversed, `BITS` its stream
(44_decompress.md R133, R135). -/
def unpacked (s : State) : State :=
  { s with
    rev := s.present.map fun y => (s.code y, y)
    bits := (List.range s.bitCount.toNat).map s.streamBit
    phase := phaseOf .srScan }

theorem inverted_unpacked {s : State} (hfree : s.prefixFree = true) : Inverted (unpacked s) := by
  have hd := codesDistinct_of_prefixFree hfree
  have inverted := inverted_dInvert hd (dInvert_eq hd)
  exact inverted

section
variable {s : State} (hin : s.inputs = []) (hphase : s.phase = phaseOf .dStart)
include hin hphase

/-- The payload of the empty text decodes in D.START (44_decompress.md R131). -/
theorem decompress_run_empty (hmap : s.mapEmpty = true) (hpacked : s.packedLen = 0#32) (hpad : s.padBits = 0#32)
    (hcount : s.bitCount = 0#32) : runSteps 1 s = .next ({ s with textLen := 0#32 }.complete .none) :=
  runSteps_exec hin (by rw [hphase]; rfl) ((dStart_empty hmap hpacked).trans (if_pos ⟨hpad, hcount⟩)) 0

/-- A payload that is accepted is scanned after five micro-operations (30_encoding.md R82). -/
theorem decompress_run_to_scan (h : PayloadAccepted s) (k : Nat) : runSteps (k + 5) s = runSteps k (unpacked s) := by
  have hd : s.codesDistinct = true := codesDistinct_of_prefixFree h.prefixFree
  have hcount : s.bitCount.toNat ≤ 8 * Config.PMAX := by
    have := h.length
    have := h.fits
    omega
  let r : State := { s with rev := s.present.map fun y => (s.code y, y) }
  have start := runSteps_exec hin (by rw [hphase]; rfl) (dStart_goesOn h.fits fun he => h.bytes he.2)
  have mapcheck := runSteps_exec (s := s.goto .dMapcheck) hin rfl
    ((dMapcheck_eq h.map h.bytes).trans (if_pos h.prefixFree))
  have invert := runSteps_exec (s := s.goto .dInvert) hin rfl (dInvert_eq hd)
  have lengths := runSteps_exec (s := r.goto .dMeta) hin rfl (dMeta_goesOn h.padBits h.length)
  have unpack := runSteps_exec (s := r.goto .buUnpack) hin rfl (buUnpack_eq hcount)
  calc runSteps (k + 5) s
      = runSteps (k + 4) (s.goto .dMapcheck) := start (k + 4)
    _ = runSteps (k + 3) (s.goto .dInvert) := mapcheck (k + 3)
    _ = runSteps (k + 2) (r.goto .dMeta) := invert (k + 2)
    _ = runSteps (k + 1) (r.goto .buUnpack) := lengths (k + 1)
    _ = runSteps k (unpacked s) := unpack k

/-- DECOMPRESS on an encoded text ends with the text (44_decompress.md R138). -/
theorem decompress_run_encoded (h : EncodedPayload s) (hm : PayloadMetadata s) :
    ∃ u, runSteps 6 s = .next u ∧ u.inputs = [] ∧ Ended .none u ∧ u.textLen = s.textLen ∧
      ∀ i, i < s.textLen.toNat → u.textAt i = s.textAt i := by
  obtain ⟨hsyms, hfree⟩ := h.map
  have hlen := length_textSymbols s
  obtain ⟨u, hu, hend, htext, hread⟩ := scanOfConcatenatedCodesReturnsTheSymbols (unpacked s) s.textSymbols hfree
    (inverted_unpacked hfree) (fun y hy => (hsyms y).2 hy) (hlen.trans_le h.admitted.2) h.stream
  refine ⟨u, ?_, (exec_keeps_inputs (by decide) hu).trans hin, hend, BitVec.eq_of_toNat_eq (htext.trans hlen),
    fun i hi => ?_⟩
  · rw [decompress_run_to_scan hin hphase (payloadAccepted_of_encoded h hm) 1]
    exact runSteps_exec (s := unpacked s) hin rfl hu 0
  · have symbol : s.textSymbols[i]? = some (s.textAt i) := by simp [State.textSymbols, hi]
    exact Option.some.inj ((hread i (hlen.symm ▸ hi)).symm.trans symbol)

end

end Sys2Proof.Machine
end

section
/-! PROOFS. The round trip. -/

namespace Sys2Proof.Machine

open Sys2Proof.Safety

/-- Settles O54: COMPRESS leaves the empty payload, which D.START decodes, or the codes of the text, none of which begins
another, which pass every check and are scanned back. -/
theorem decompressAfterCompressRestoresTheText : Obligations.DecompressAfterCompressRestoresTheText := by
  intro s t k hL hb _ hrun hd herr
  obtain ⟨htext, hlen⟩ := compress_run_keeps_text hL hb hrun
  have metadata := compress_run_metadata hL hb hrun hd herr
  have legal : Legal t := by
    have hL' : Legal { s with inputs := [.writeReg 0 0x00000001#32] } := { hL with }
    exact runSteps_keeps (stepKeepsLegal _ _) hL' hrun
  have idle : t.busy = false := by
    by_contra h
    exact legal.notBoth ⟨by simpa using h, hd⟩
  obtain ⟨j, u, hu, hin, hend, hlen', htext'⟩ : ∃ j u, runSteps j ({ t with inputs := [] }.start .dStart) = .next u ∧
      u.inputs = [] ∧ Ended .none u ∧ u.textLen = t.textLen ∧ ∀ i, i < t.textLen.toNat → u.textAt i = t.textAt i := by
    rcases compress_run_payload hL hb hrun hd herr with ⟨h0, hmap⟩ | payload
    · obtain ⟨hpacked, hpad, hcount⟩ := payloadMetadata_empty metadata h0
      exact ⟨1, _, decompress_run_empty rfl rfl hmap hpacked hpad hcount, rfl, ended_complete _ _, h0.symm,
        fun _ _ => rfl⟩
    · exact ⟨6, decompress_run_encoded rfl rfl { payload with } { metadata with }⟩
  refine ⟨j + 1, u, (runSteps_succ (decompress_starts idle) j).trans hu, hin, hend, hlen'.trans hlen, fun i hi => ?_⟩
  rw [htext' i (hlen.symm ▸ hi)]
  unfold State.textAt
  rw [htext]

end Sys2Proof.Machine
end

section
/-! SUPPORT. Runs of DECOMPRESS to their end, check by check. -/

namespace Sys2Proof.Machine

open Sys2Proof.Safety

/-! ## Runs to the end of a command -/

/-- In s no command has ended and the host has no action pending, and some number of steps leads to t, where one has. -/
structure RunsToEnd (s t : State) : Prop where
  inputs : s.inputs = []
  notDone : s.done = false
  reaches : ∃ k, runSteps k s = .next t
  done : t.done = true

namespace RunsToEnd

variable {i : Instr} {e : ErrCode} {s t u : State} (h : RunsToEnd s t) (hi : i ∈ decompressOps)
  (hphase : s.phase = phaseOf i) (hu : exec i s = .next u)
include h hi hphase hu

/-- The steps to the end are the micro-operation of `PHASE` and the steps from there on. -/
theorem reaches_after : u.inputs = [] ∧ ∃ k, runSteps k u = .next t := by
  have decodes : ∀ i ∈ decompressOps, decode (.phase (phaseOf i)) = .ok i := by decide
  refine ⟨(exec_keeps_inputs (List.mem_append_right _ hi) hu).trans h.inputs, ?_⟩
  obtain ⟨k, hk⟩ := h.reaches
  cases k with
  | zero => cases hk; exact absurd (h.notDone.symm.trans h.done) Bool.false_ne_true
  | succ k => exact ⟨k, (runSteps_exec h.inputs (hphase ▸ decodes i hi) hu k).symm.trans hk⟩

/-- Past a micro-operation that goes on the run has the same end. -/
theorem goesOn (hd : u.done = false) : RunsToEnd u t :=
  have ⟨hin, hk⟩ := h.reaches_after hi hphase hu
  ⟨hin, hd, hk, h.done⟩

/-- A micro-operation that ends the command is the end of the run. -/
theorem eq_of_ended (hend : Ended e u) : t = u := by
  obtain ⟨hin, k, hk⟩ := h.reaches_after hi hphase hu
  cases hk.symm.trans (runSteps_idle hin hend.phase k)
  rfl

end RunsToEnd

/-- The DECOMPRESS word written in an idle state starts such a run (10_state.md R22). -/
theorem decompress_runsToEnd {s t : State} {k : Nat} (hb : s.busy = false)
    (hrun : runSteps (k + 1) { s with inputs := [.writeReg 0 0x00000002#32] } = .next t) (hd : t.done = true) :
    RunsToEnd ({ s with inputs := [] }.start .dStart) t :=
  ⟨rfl, rfl, ⟨k, (runSteps_succ (decompress_starts hb) k).symm.trans hrun⟩, hd⟩

/-! ## The checks in their order -/

section
variable {s t : State} (run : RunsToEnd s t) (hphase : s.phase = phaseOf .dStart)
include run hphase

/-- Too many bytes end the command in D.START (44_decompress.md R131). -/
theorem decompress_too_long (h : Config.PMAX < s.packedLen.toNat) : t.err = .capacityExceeded := by
  rw [run.eq_of_ended (by decide) hphase (if_pos h) (ended_complete _ _)]
  rfl

/-- The payload of the empty text ends the command in D.START, without error (44_decompress.md R131). -/
theorem decompress_empty (hmap : s.mapEmpty = true) (hlen : s.packedLen = 0#32)
    (h : s.padBits = 0#32 ∧ s.bitCount = 0#32) : t.err = .none ∧ t.textLen = 0#32 := by
  rw [run.eq_of_ended (by decide) hphase ((dStart_empty hmap hlen).trans (if_pos h)) (ended_complete _ _)]
  exact ⟨rfl, rfl⟩

/-- No bytes and the empty map with lengths that are not 0 end the command in D.START (44_decompress.md R131). -/
theorem decompress_empty_bad_lengths (hmap : s.mapEmpty = true) (hlen : s.packedLen = 0#32)
    (h : ¬ (s.padBits = 0#32 ∧ s.bitCount = 0#32)) : t.err = .malformedPayload := by
  rw [run.eq_of_ended (by decide) hphase ((dStart_empty hmap hlen).trans (if_neg h)) (ended_complete _ _)]
  rfl

variable (hfits : s.packedLen.toNat ≤ Config.PMAX)
include hfits

/-- Every other payload comes to D.MAPCHECK (44_decompress.md R131). -/
theorem decompress_to_mapcheck (h : ¬ (s.mapEmpty = true ∧ s.packedLen = 0#32)) : RunsToEnd (s.goto .dMapcheck) t :=
  run.goesOn (by decide) hphase (dStart_goesOn hfits h) run.notDone

/-- A map or bytes that are missing, or a code that begins another, end the command in D.MAPCHECK
(44_decompress.md R132). -/
theorem decompress_bad_map (h : ¬ (s.mapEmpty = true ∧ s.packedLen = 0#32))
    (hbad : (s.mapEmpty = true ∨ s.packedLen = 0#32) ∨ s.prefixFree ≠ true) : t.err = .invalidCodeMap := by
  have hexec : exec .dMapcheck (s.goto .dMapcheck) = .next ((s.goto .dMapcheck).raiseDecompress .invalidCodeMap) :=
    hbad.elim dMapcheck_empty dMapcheck_not_prefixFree
  rw [(decompress_to_mapcheck run hphase hfits h).eq_of_ended (by decide) rfl hexec (ended_complete _ _)]
  rfl

/-- A code map that passes is reversed, and the run comes to D.META (44_decompress.md R133). -/
theorem decompress_to_meta (hmap : s.mapEmpty = false) (hlen : s.packedLen ≠ 0#32) (hfree : s.prefixFree = true) :
    RunsToEnd (State.goto { s with rev := s.present.map fun y => (s.code y, y) } .dMeta) t :=
  have mapcheck := (dMapcheck_eq (s := s.goto .dMapcheck) hmap hlen).trans (if_pos hfree)
  have invert := dInvert_eq (s := s.goto .dInvert) (codesDistinct_of_prefixFree hfree)
  have atMapcheck := decompress_to_mapcheck run hphase hfits fun h => hlen h.2
  have atInvert := atMapcheck.goesOn (by decide) rfl mapcheck run.notDone
  atInvert.goesOn (by decide) rfl invert run.notDone

/-- Lengths that disagree end the command in D.META (44_decompress.md R134). -/
theorem decompress_bad_lengths (hmap : s.mapEmpty = false) (hlen : s.packedLen ≠ 0#32) (hfree : s.prefixFree = true)
    (hbad : 7 < s.padBits.toNat ∨ s.bitCount.toNat + s.padBits.toNat ≠ 8 * s.packedLen.toNat) :
    t.err = .malformedPayload := by
  let r : State := { s with rev := s.present.map fun y => (s.code y, y) }
  have hexec : exec .dMeta (r.goto .dMeta) = .next ((r.goto .dMeta).raiseDecompress .malformedPayload) := if_pos hbad
  rw [(decompress_to_meta run hphase hfits hmap hlen hfree).eq_of_ended (by decide) rfl hexec (ended_complete _ _)]
  rfl

omit hfits in
/-- A payload that passes every check comes to SR.SCAN, whose next state is the end (44_decompress.md R135, R136). -/
theorem decompress_ends_in_scan (h : PayloadAccepted s) : exec .srScan (unpacked s) = .next t := by
  obtain ⟨hfits, hmap, hbytes, hfree, hpad, hlen⟩ := h
  have hcount : s.bitCount.toNat ≤ 8 * Config.PMAX := by omega
  let r : State := { s with rev := s.present.map fun y => (s.code y, y) }
  have atMeta : RunsToEnd (r.goto .dMeta) t := decompress_to_meta run hphase hfits hmap hbytes hfree
  have atUnpack := atMeta.goesOn (by decide) rfl (dMeta_goesOn (s := r.goto .dMeta) hpad hlen) run.notDone
  have atScan : RunsToEnd (unpacked s) t :=
    atUnpack.goesOn (by decide) rfl (buUnpack_eq (s := r.goto .buUnpack) hcount) run.notDone
  obtain ⟨u, hu⟩ : ∃ u, exec .srScan (unpacked s) = .next u := ⟨_, rfl⟩
  obtain ⟨-, e, -, hend⟩ := srScan_frame hu
  rw [atScan.eq_of_ended (by decide) rfl hu hend, hu]

end

/-! ## The scan -/

/-- The reverse of a code map is one map, however it is listed (44_decompress.md R133). -/
theorem revLookup_of_inverted {s : State} (hs : Inverted s) {rev : List (Bits × Byte)}
    (hrev : ∀ b y, revLookup rev b = some y ↔ s.clenAt y ≠ 0#8 ∧ s.code y = b) : revLookup s.rev = revLookup rev :=
  funext fun b => Option.ext fun y => (hs b y).trans (hrev b y).symm

/-- A greedy reading with any listing of the reversed map is the one SR.SCAN follows. -/
theorem greedyParse_unpacked {s : State} (hfree : s.prefixFree = true) {rev ws : List (Bits × Byte)} {rest : Bits}
    (hrev : ∀ b y, revLookup rev b = some y ↔ s.clenAt y ≠ 0#8 ∧ s.code y = b)
    (h : GreedyParse rev ((List.range s.bitCount.toNat).map s.streamBit) ws rest) :
    GreedyParse (unpacked s).rev (unpacked s).bits ws rest := by
  obtain ⟨split, code, shortest, leftover⟩ := h
  rw [← revLookup_of_inverted (inverted_unpacked hfree) hrev] at code shortest leftover
  exact ⟨split, code, shortest, leftover⟩

end Sys2Proof.Machine
end

section
/-! PROOFS. The statements about errors: illegal words, the codes of each micro-operation, and the order of the checks
of DECOMPRESS. -/

namespace Sys2Proof.Machine

open Sys2Proof.Safety

/-- Settles O56: each check that fails ends the run, so the checks before it have passed; with none failing the run ends
in SR.SCAN, which follows the greedy reading. -/
theorem decompressReportsTheFirstDefect : Obligations.DecompressReportsTheFirstDefect := by
  intro s t k _ hb hrun hd
  let a : State := { s with inputs := [] }.start .dStart
  have run : RunsToEnd a t := decompress_runsToEnd hb hrun hd
  split_ifs with hlong hempty hzero hmap hfree hlengths
  · exact decompress_too_long run rfl hlong
  · exact decompress_empty run rfl hempty.1 hempty.2 hzero
  · exact decompress_empty_bad_lengths run rfl hempty.1 hempty.2 hzero
  · exact decompress_bad_map run rfl (Nat.le_of_not_lt hlong) hempty (.inl hmap)
  · exact decompress_bad_map run rfl (Nat.le_of_not_lt hlong) hempty (.inr (Bool.eq_false_iff.1 hfree))
  all_goals
    have fits : a.packedLen.toNat ≤ Config.PMAX := Nat.le_of_not_lt hlong
    have map : a.mapEmpty = false := Bool.eq_false_iff.2 fun h => hmap (.inl h)
    have bytes : a.packedLen ≠ 0#32 := fun h => hmap (.inr h)
    have free : a.prefixFree = true := Bool.eq_true_of_not_eq_false hfree
  · exact decompress_bad_lengths run rfl fits map bytes free hlengths
  · intro rev ws rest hrev hreading
    obtain ⟨hpad, hlen⟩ := not_or.1 hlengths
    have scan := decompress_ends_in_scan run rfl ⟨fits, map, bytes, free, Nat.le_of_not_lt hpad, not_not.1 hlen⟩
    have reading : GreedyParse (unpacked a).rev (unpacked a).bits ws rest := greedyParse_unpacked free hrev hreading
    split_ifs with hmany hrest
    · exact (srScan_overflow reading hmany scan).ended.err
    · exact (srScan_leftover reading (Nat.le_of_not_lt hmany) hrest scan).ended.err
    · obtain ⟨u, hu, hend, htext, hsyms, -⟩ := srScan_matches (shortestMatch_of_greedyParse reading)
        (Nat.le_of_not_lt hmany) (by rw [reading.split, not_not.1 hrest, List.append_nil])
      cases hu.symm.trans scan
      exact ⟨hend.err, htext, hsyms⟩

/-- Settles O47: a micro-operation goes on with the flags kept, or ends its command. -/
theorem microOperationsEndOnlyWithTheirCodes : Obligations.MicroOperationsEndOnlyWithTheirCodes :=
  fun _ hi _ _ h => (exec_goesOn_or_ends hi h).imp_left And.left

/-- Settles O11. -/
theorem illegalWordRecordsOnlyTheError : Obligations.IllegalWordRecordsOnlyTheError :=
  fun _ zero op => ⟨fun hb => exec_illegal_idle hb zero op, fun hb => if_pos hb⟩

end Sys2Proof.Machine
end

section
/-! SUPPORT. Two runs of COMPRESS on one text: what each micro-operation makes the same in both, whatever came before
(70_reset_and_hazards.md R184, 10_state.md R41). -/

namespace Sys2Proof.Machine

open Sys2Proof.Safety

/-! ## What two states have in common -/

/-- The same text to encode (10_state.md R26, R30). -/
structure SameText (s s' : State) : Prop where
  textLen : s.textLen = s'.textLen
  symbols : s.textSymbols = s'.textSymbols

/-- The same arena and queue (10_state.md R35, R37, R38). -/
structure SameArena (s s' : State) : Prop where
  node : s.node = s'.node
  pq : s.pq = s'.pq
  nnext : s.nnext = s'.nnext

/-- The same arena, with the same root (10_state.md R35, R38). -/
structure SameTree (s s' : State) : Prop where
  node : s.node = s'.node
  root : s.root = s'.root

/-- The same code map (10_state.md R32). -/
def SameMap (s s' : State) : Prop := ∀ y, s.clenAt y = s'.clenAt y ∧ s.code y = s'.code y

/-- The same result: the error code, the payload's metadata, its bytes and its map. -/
structure SamePayload (s s' : State) : Prop where
  err : s.err = s'.err
  packedLen : s.packedLen = s'.packedLen
  padBits : s.padBits = s'.padBits
  bitCount : s.bitCount = s'.bitCount
  packed : ∀ j, j < s.packedLen.toNat → s.packedAt j = s'.packedAt j
  map : SameMap s s'

/-- What the phase invariant leaves open, in each phase of COMPRESS: the arena while the tree is built, then the tree,
then the map, and where the run has ended the result. The frequencies, the stream and its padding are not among them:
the invariant fixes them by the text and the map. -/
def SameOperands (s s' : State) : Prop :=
  match s.phase.toNat with
  | 0 => SamePayload s s'
  | 4 | 5 | 6 => SameArena s s'
  | 7 => SameTree s s'
  | 8 | 9 | 10 => SameMap s s'
  | _ => True

/-- Two states of runs that have come equally far with the same values. -/
structure SameProgress (s s' : State) : Prop where
  phase : s.phase = s'.phase
  operands : SameOperands s s'

/-! ## The code map and the result -/

theorem code_eq_nil {s : State} {y : Byte} (h : s.clenAt y = 0#8) : s.code y = [] :=
  List.eq_nil_of_length_eq_zero ((length_code s y).trans (congrArg BitVec.toNat h))

section
variable {s s' t t' : State}

theorem sameMap_of_empty (h : ∀ y, s.clenAt y = 0#8) (h' : ∀ y, s'.clenAt y = 0#8) : SameMap s s' := fun y =>
  ⟨(h y).trans (h' y).symm, (code_eq_nil (h y)).trans (code_eq_nil (h' y)).symm⟩

/-- One text and one map give one stream (43_compress_bitpacker.md R119). -/
theorem encodedText_congr (hT : SameText s s') (hM : SameMap s s') : encodedText s = encodedText s' := by
  have hcode : s.code = s'.code := funext fun y => (hM y).2
  rw [encodedText, encodedText, hT.symbols, hcode]

/-- COMPRESS has ended with code e and the empty payload (43_compress_bitpacker.md R118, 60_exceptions.md R159). -/
structure EndedEmpty (e : ErrCode) (t : State) : Prop where
  ended : Ended e t
  packedLen : t.packedLen = 0#32
  padBits : t.padBits = 0#32
  bitCount : t.bitCount = 0#32
  clen : ∀ y, t.clenAt y = 0#8

theorem endedEmpty_of_raised {e : ErrCode} (h : RaisedInCompress e s t) : EndedEmpty e t := { h with }

/-- The empty payload has no byte and no code in which two runs could differ. -/
theorem sameProgress_of_empty {e : ErrCode} (h : EndedEmpty e t) (h' : EndedEmpty e t') : SameProgress t t' := by
  refine ⟨h.ended.phase.trans h'.ended.phase.symm, ?_⟩
  unfold SameOperands
  rw [h.ended.phase]
  exact {
    err := h.ended.err.trans h'.ended.err.symm
    packedLen := h.packedLen.trans h'.packedLen.symm
    padBits := h.padBits.trans h'.padBits.symm
    bitCount := h.bitCount.trans h'.bitCount.symm
    packed := fun j hj => absurd (hj.trans_eq (congrArg BitVec.toNat h.packedLen)) (Nat.not_lt_zero j)
    map := sameMap_of_empty h.clen h'.clen }

end

/-! ## The queue -/

section
variable {s s' : State}

/-- PQ.EXTRACTMIN reads the queue and the arena only (41_tree_builder.md R96). -/
theorem pqExtractMin_congr (hs : SameArena s s') {n : Nat} {u : State} (h : s.pqExtractMin = .ok (n, u)) :
    ∃ u', s'.pqExtractMin = .ok (n, u') ∧ SameArena u u' := by
  obtain ⟨-, -, -, rfl⟩ := pqExtractMin_ok h
  refine ⟨s'.without n, ?_, hs.node, congrArg (List.filter fun m => m != n) hs.pq, hs.nnext⟩
  unfold State.pqExtractMin at h ⊢
  rw [← hs.pq, ← hs.node]
  split at h
  · cases h
  · split at h
    · next hall =>
      cases h
      rw [if_pos hall, State.without, hs.pq, hs.node]
    · cases h

/-- A record allocated and queued (41_tree_builder.md R97, R98). -/
theorem SameArena.insertNew (hs : SameArena s s') (r : Node) :
    SameArena ((s.pqInsert s.nnext).allocate r) ((s'.pqInsert s.nnext).allocate r) where
  node := congrArg₂ (putCell · · r) hs.node hs.nnext
  pq := congrArg (insertMember · s.nnext) hs.pq
  nnext := congrArg (· + 1) hs.nnext

theorem loadLeaf_congr (hs : SameArena s s') {y : Byte} (hf : s.freqAt y = s'.freqAt y) :
    SameArena (loadLeaf s y) (loadLeaf s' y) := by
  unfold loadLeaf
  rw [← hf, ← hs.nnext]
  split
  · exact hs
  · exact hs.insertNew _

theorem freqAt_loadLeaf (s : State) (x y : Byte) : (loadLeaf s x).freqAt y = s.freqAt y := by
  unfold loadLeaf
  split <;> rfl

theorem foldl_loadLeaf_congr (ys : List Byte) (hs : SameArena s s') (hf : ∀ y, s.freqAt y = s'.freqAt y) :
    SameArena (ys.foldl loadLeaf s) (ys.foldl loadLeaf s') := by
  induction ys generalizing s s' with
  | nil => exact hs
  | cons x xs ih =>
    exact ih (loadLeaf_congr hs (hf x)) fun y =>
      (freqAt_loadLeaf s x y).trans ((hf y).trans (freqAt_loadLeaf s' x y).symm)

/-- TB.LOAD's loop starts from an empty arena, so what it makes is the table's alone (41_tree_builder.md R97). -/
theorem loadLeaves_congr (hf : ∀ y, s.freqAt y = s'.freqAt y) : SameArena (loadLeaves s) (loadLeaves s') :=
  foldl_loadLeaf_congr symbols ⟨rfl, rfl, rfl⟩ hf

/-- Two tables of one text are the same (40_frequency_table.md R91). -/
theorem freqAt_congr (hT : SameText s s') (h : TableOfText s) (h' : TableOfText s') (y : Byte) :
    s.freqAt y = s'.freqAt y :=
  BitVec.eq_of_toNat_eq ((h.2 y).trans ((congrFun (occurrences_congr hT.symbols) y).trans (h'.2 y).symm))

end

/-! ## The micro-operations of COMPRESS -/

section
variable {s s' t t' : State}

/-- C.START reads `TEXT_LEN` only (43_compress_bitpacker.md R118). -/
theorem cStart_same (hT : SameText s s') (h : exec .cStart s = .next t) (h' : exec .cStart s' = .next t') :
    SameProgress t t' := by
  obtain ⟨tooLong, empty, admitted⟩ := cStartAdmits s
  obtain ⟨tooLong', empty', admitted'⟩ := cStartAdmits s'
  rw [← hT.textLen] at tooLong' empty' admitted'
  by_cases hn : 65535 < s.textLen.toNat
  · obtain ⟨u, hu, hraised⟩ := tooLong hn
    obtain ⟨u', hu', hraised'⟩ := tooLong' hn
    cases hu.symm.trans h
    cases hu'.symm.trans h'
    exact sameProgress_of_empty (endedEmpty_of_raised hraised) (endedEmpty_of_raised hraised')
  · by_cases h0 : s.textLen = 0#32
    · obtain ⟨u, hu, hend, hpacked, hpad, hcount, hmap, -⟩ := empty h0
      obtain ⟨u', hu', hend', hpacked', hpad', hcount', hmap', -⟩ := empty' h0
      cases hu.symm.trans h
      cases hu'.symm.trans h'
      exact sameProgress_of_empty ⟨hend, hpacked, hpad, hcount, fun y => (hmap y).1⟩
        ⟨hend', hpacked', hpad', hcount', fun y => (hmap' y).1⟩
    · cases (admitted h0 (Nat.le_of_not_lt hn)).symm.trans h
      cases (admitted' h0 (Nat.le_of_not_lt hn)).symm.trans h'
      exact ⟨rfl, trivial⟩

/-- TB.LOAD reads `FREQ` only (41_tree_builder.md R97). -/
theorem tbLoad_same (hf : ∀ y, s.freqAt y = s'.freqAt y) (h : exec .tbLoad s = .next t)
    (h' : exec .tbLoad s' = .next t') : SameProgress t t' := by
  have hs := loadLeaves_congr hf
  obtain ⟨u, hu⟩ : ∃ u, loadLeaves s = u := ⟨_, rfl⟩
  obtain ⟨u', hu'⟩ : ∃ u', loadLeaves s' = u' := ⟨_, rfl⟩
  rw [hu, hu'] at hs
  rw [tbLoad_eq, hu] at h
  rw [tbLoad_eq, hu', ← hs.nnext] at h'
  split_ifs at h h' with h0 h1 <;> cases h <;> cases h'
  · exact ⟨rfl, { hs with }⟩
  · exact ⟨rfl, { hs with }⟩

/-- TB.MERGE reads the queue and the arena only (41_tree_builder.md R98). -/
theorem tbMerge_same (hs : SameArena s s') (h : exec .tbMerge s = .next t) (h' : exec .tbMerge s' = .next t') :
    SameProgress t t' := by
  obtain ⟨a, b, -, s1, s2, e1, e2, -⟩ := tbMerge_next h
  obtain ⟨s1', e1', hs1⟩ := pqExtractMin_congr hs e1
  obtain ⟨s2', e2', hs2⟩ := pqExtractMin_congr hs1 e2
  rw [tbMerge_eq e1 e2] at h
  rw [tbMerge_eq e1' e2', ← hs2.node, ← hs2.pq, ← hs2.nnext] at h'
  have arena := hs2.insertNew (mergedNode s2.node a b)
  split_ifs at h h' with hn hq <;> cases h <;> cases h'
  · exact ⟨rfl, { arena with }⟩
  · exact ⟨rfl, { arena with }⟩

/-- TB.WRAP reads the queue and the arena only (41_tree_builder.md R99). -/
theorem tbWrap_same (hs : SameArena s s') (h : exec .tbWrap s = .next t) (h' : exec .tbWrap s' = .next t') :
    SameProgress t t' := by
  obtain ⟨l, s1, e1, -, rfl⟩ := tbWrap_next h
  obtain ⟨s1', e1', hs1⟩ := pqExtractMin_congr hs e1
  rw [tbWrap_eq e1'] at h'
  split_ifs at h' with hn
  cases h'
  refine ⟨rfl, (?_ : putCell s1.node s1.nnext _ = putCell s1'.node s1'.nnext _), hs1.nnext⟩
  rw [hs1.node, hs1.nnext]

/-- TB.FINISH reads the queue and the arena only (41_tree_builder.md R100). -/
theorem tbFinish_same (hs : SameArena s s') (h : exec .tbFinish s = .next t) (h' : exec .tbFinish s' = .next t') :
    SameProgress t t' := by
  obtain ⟨n, s1, e1, rfl⟩ := tbFinish_next h
  obtain ⟨n', s1', e1', rfl⟩ := tbFinish_next h'
  obtain ⟨u', eu', hu⟩ := pqExtractMin_congr hs e1
  cases eu'.symm.trans e1'
  exact ⟨rfl, hu.node, rfl⟩

/-- CA.ASSIGN empties the map and writes the tree's codes, so nothing of an earlier map is left (42_code_assigner.md
R110). -/
theorem caAssign_same (hF : FinishedTree s) (hs : SameTree s s') (h : exec .caAssign s = .next t)
    (h' : exec .caAssign s' = .next t') : SameProgress t t' := by
  have hphase := (caAssign_frame h).2
  refine ⟨hphase.trans (caAssign_frame h').2.symm, ?_⟩
  unfold SameOperands
  rw [hphase]
  obtain ⟨tree, hr, -, hsyms, -⟩ := hF
  have hr' : Roots s'.node (some s'.root) tree := by rw [← hs.node, ← hs.root]; exact hr
  have hn := hsyms.nodup_iff.2 (alphabet_nodup s)
  obtain ⟨codes, others⟩ := caAssign_map hr hn h
  obtain ⟨codes', others'⟩ := caAssign_map hr' hn h'
  intro y
  by_cases hy : y ∈ tree.syms
  · obtain ⟨p, hp, rfl⟩ := List.mem_map.1 hy
    obtain ⟨hcode, hlen⟩ := codes p hp
    obtain ⟨hcode', hlen'⟩ := codes' p hp
    exact ⟨BitVec.eq_of_toNat_eq (hlen.trans hlen'.symm), hcode.trans hcode'.symm⟩
  · exact ⟨(others y hy).trans (others' y hy).symm,
      (code_eq_nil (others y hy)).trans (code_eq_nil (others' y hy)).symm⟩

/-- BP.PAD reads `BITCOUNT` to decide, and the map stays if it goes on (43_compress_bitpacker.md R120). -/
theorem bpPad_same (hM : SameMap s s') (hcount : s.bitCount = s'.bitCount) (h : exec .bpPad s = .next t)
    (h' : exec .bpPad s' = .next t') : SameProgress t t' := by
  obtain ⟨tooLong, fits⟩ := bpPadReachesTheByteBoundary s _ rfl
  obtain ⟨tooLong', fits'⟩ := bpPadReachesTheByteBoundary s' _ rfl
  rw [← hcount] at tooLong' fits'
  by_cases hn : 65535 < (s.bitCount.toNat + padding s.bitCount.toNat) / 8
  · obtain ⟨u, hu, hraised⟩ := tooLong hn
    obtain ⟨u', hu', hraised'⟩ := tooLong' hn
    cases hu.symm.trans h
    cases hu'.symm.trans h'
    exact sameProgress_of_empty (endedEmpty_of_raised hraised) (endedEmpty_of_raised hraised')
  · cases (fits (Nat.le_of_not_lt hn)).symm.trans h
    cases (fits' (Nat.le_of_not_lt hn)).symm.trans h'
    exact ⟨rfl, hM⟩

/-- BP.PACK writes every byte the payload has (43_compress_bitpacker.md R121). -/
theorem bpPack_same (hM : SameMap s s') (hbits : s.bits = s'.bits) (hcount : s.bitCount = s'.bitCount)
    (hpad : s.padBits = s'.padBits) (h : exec .bpPack s = .next t) (h' : exec .bpPack s' = .next t') :
    SameProgress t t' := by
  obtain ⟨-, rfl⟩ := bpPack_next h
  obtain ⟨-, rfl⟩ := bpPack_next h'
  rw [← hbits]
  refine ⟨rfl, rfl, rfl, hpad, hcount, fun j hj => ?_, hM⟩
  have hlt : j < s.bits.length / 8 := Nat.lt_of_lt_of_le hj (Nat.mod_le _ _)
  have packed (m : Memory 8) : (m.writeRange (packByte s.bits) (s.bits.length / 8)).read Config.freePacked j =
      packByte s.bits j := (Memory.read_writeRange ..).trans (if_pos hlt)
  exact (packed s.packed).trans (packed s'.packed).symm

end

/-! ## Steps and runs -/

/-- A micro-operation of COMPRESS in two running states that have come equally far on one text goes equally far. -/
theorem exec_same {i : Instr} (hi : i ∈ compressOps) {s s' t t' : State} (hP : PhaseInvariant s)
    (hP' : PhaseInvariant s') (hphase : s.phase = phaseOf i) (hT : SameText s s') (hs : SameProgress s s')
    (h : exec i s = .next t) (h' : exec i s' = .next t') : SameProgress t t' := by
  obtain ⟨heq, hO⟩ := hs
  unfold PhaseInvariant at hP hP'
  unfold SameOperands at hO
  rw [← heq] at hP'
  rw [hphase] at hP hP' hO
  cases i with
  | cStart => exact cStart_same hT h h'
  | ftBuild =>
    obtain ⟨-, rfl⟩ := ftBuild_next h
    obtain ⟨-, rfl⟩ := ftBuild_next h'
    exact ⟨rfl, trivial⟩
  | tbLoad => exact tbLoad_same (freqAt_congr hT hP hP') h h'
  | tbMerge => exact tbMerge_same hO h h'
  | tbWrap => exact tbWrap_same hO h h'
  | tbFinish => exact tbFinish_same hO h h'
  | caAssign => exact caAssign_same hP.2 hO h h'
  | bpConcat =>
    obtain ⟨-, _, _, rfl⟩ := bpConcat_next h
    obtain ⟨-, _, _, rfl⟩ := bpConcat_next h'
    exact ⟨rfl, hO⟩
  | bpPad =>
    obtain ⟨-, -, hbits, hcount⟩ := hP
    obtain ⟨-, -, hbits', hcount'⟩ := hP'
    have stream : s.bits = s'.bits := hbits.trans ((encodedText_congr hT hO).trans hbits'.symm)
    exact bpPad_same hO (BitVec.eq_of_toNat_eq (by rw [hcount, hcount', stream])) h h'
  | bpPack =>
    obtain ⟨-, -, hbits, hcount, hpad, -⟩ := hP
    obtain ⟨-, -, hbits', hcount', hpad', -⟩ := hP'
    have text := encodedText_congr hT hO
    have count : s.bitCount = s'.bitCount := BitVec.eq_of_toNat_eq (by rw [hcount, hcount', text])
    have pad : s.padBits = s'.padBits := BitVec.eq_of_toNat_eq (by rw [hpad, hpad', count])
    exact bpPack_same hO (by rw [hbits, hbits', text, pad]) count pad h h'
  | _ => simp [compressOps] at hi

/-- What each step of two runs keeps between them holds after as many steps of both. -/
theorem runSteps_keeps_both {R : State → State → Prop}
    (keeps : ∀ {s s' t t'}, R s s' → step s = .next t → step s' = .next t' → R t t') {n : Nat} {s s' t t' : State}
    (hs : R s s') (h : runSteps n s = .next t) (h' : runSteps n s' = .next t') : R t t' := by
  induction n generalizing s s' with
  | zero => cases h; cases h'; exact hs
  | succ n ih =>
    rw [runSteps] at h h'
    split at h
    · next u hu =>
      split at h'
      · next u' hu' => exact ih (keeps hs hu hu') h h'
      · cases h'
      · cases h'
    · cases h
    · cases h

/-- With no host action pending the micro-operation of `PHASE` is the step. -/
theorem step_compressOp {i : Instr} (hi : i ∈ compressOps) {s : State} (hin : s.inputs = [])
    (hphase : s.phase = phaseOf i) : step s = exec i s := by
  have decodes : ∀ i ∈ compressOps, decode (.phase (phaseOf i)) = .ok i := by decide
  exact step_engine hin (hphase ▸ decodes i hi)

/-- A state of a run of COMPRESS, in which `DONE` is 1 where the run has ended. -/
structure InCompress (s : State) : Prop where
  reached : CompressReaches (fun _ => True) (fun _ => True) s
  done : s.phase = 0#5 → s.done = true

namespace InCompress

variable {s s' t t' : State}

theorem start (h : Running s) (hphase : s.phase = phaseOf .cStart) : InCompress s :=
  ⟨.inl ⟨h, trivial, .cStart, by decide, hphase⟩, fun h0 => absurd h0 h.phase⟩

theorem done_iff (h : InCompress s) : s.done = true ↔ s.phase = 0#5 := by
  refine ⟨fun hd => ?_, h.done⟩
  rcases h.reached with ⟨hrun, -⟩ | ⟨-, hphase, -⟩
  · exact absurd ⟨hrun.legal.busyPhase.2 hrun.phase, hd⟩ hrun.legal.notBoth
  · exact hphase

/-- A run that has ended stays where it is. -/
theorem eq_of_ended (h : InCompress s) (hphase : s.phase = 0#5) (ht : step s = .next t) : t = s := by
  rcases h.reached with ⟨hrun, -⟩ | ⟨hin, -⟩
  · exact absurd hphase hrun.phase
  · cases (runSteps_idle hin hphase 1).symm.trans (runSteps_succ ht 0)
    rfl

theorem next (h : InCompress s) (ht : step s = .next t) : InCompress t := by
  refine ⟨compressReaches_step (fun _ _ _ _ _ _ => trivial) (fun _ _ => trivial) (fun _ _ _ _ => trivial) h.reached ht,
    fun h0 => ?_⟩
  rcases h.reached with ⟨hrun, -⟩ | ⟨-, hphase, -⟩
  · obtain ⟨u, hu, ⟨e, hend⟩ | ⟨hrun', -⟩⟩ := step_running hrun <;> cases hu.symm.trans ht
    · exact hend.done
    · exact absurd h0 hrun'.phase
  · rw [h.eq_of_ended hphase ht]
    exact h.done hphase

/-- Two runs that have come equally far on one text make the same step. -/
theorem next_same (h : InCompress s) (h' : InCompress s') (hT : SameText s s') (hs : SameProgress s s')
    (ht : step s = .next t) (ht' : step s' = .next t') : SameProgress t t' := by
  rcases h.reached with ⟨hrun, -, i, hi, hphase⟩ | ⟨-, hphase, -⟩
  · have hphase' : s'.phase = phaseOf i := hs.phase.symm.trans hphase
    rcases h'.reached with ⟨hrun', -⟩ | ⟨-, h0, -⟩
    · rw [step_compressOp hi hrun.inputs hphase] at ht
      rw [step_compressOp hi hrun'.inputs hphase'] at ht'
      exact exec_same hi hrun.invariant hrun'.invariant hphase hT hs ht ht'
    · exact absurd (hs.phase.trans h0) hrun.phase
  · rw [h.eq_of_ended hphase ht, h'.eq_of_ended (hs.phase.symm.trans hphase) ht']
    exact hs

end InCompress

theorem sameText_step {s s' t t' : State} (h : InCompress s) (h' : InCompress s') (hT : SameText s s')
    (ht : step s = .next t) (ht' : step s' = .next t') : SameText t t' := by
  obtain ⟨htext, hlen⟩ := compressReaches_keeps_text h.reached ht
  obtain ⟨htext', hlen'⟩ := compressReaches_keeps_text h'.reached ht'
  exact ⟨hlen.trans (hT.textLen.trans hlen'.symm),
    (textSymbols_congr htext hlen).trans (hT.symbols.trans (textSymbols_congr htext' hlen').symm)⟩

/-- Two runs of COMPRESS, equally far on one text. -/
structure InLockstep (s s' : State) : Prop where
  left : InCompress s
  right : InCompress s'
  text : SameText s s'
  progress : SameProgress s s'

theorem inLockstep_step {s s' t t' : State} (h : InLockstep s s') (ht : step s = .next t) (ht' : step s' = .next t') :
    InLockstep t t' :=
  ⟨h.left.next ht, h.right.next ht', sameText_step h.left h.right h.text ht ht',
    h.left.next_same h.right h.text h.progress ht ht'⟩

/-- COMPRESS on one text, from any two legal idle states, runs in lockstep (70_reset_and_hazards.md R184). -/
theorem compress_runs_in_lockstep {s s' t t' : State} {k : Nat} (hL : Legal s) (hL' : Legal s') (hb : s.busy = false)
    (hb' : s'.busy = false) (hT : SameText s s')
    (hrun : runSteps (k + 1) { s with inputs := [.writeReg 0 0x00000001#32] } = .next t)
    (hrun' : runSteps (k + 1) { s' with inputs := [.writeReg 0 0x00000001#32] } = .next t') : InLockstep t t' := by
  obtain ⟨command, started⟩ := compress_starts hL hb
  obtain ⟨command', started'⟩ := compress_starts hL' hb'
  rw [runSteps_succ command] at hrun
  rw [runSteps_succ command'] at hrun'
  exact runSteps_keeps_both inLockstep_step
    ⟨.start started rfl, .start started' rfl, ⟨hT.textLen, hT.symbols⟩, rfl, trivial⟩ hrun hrun'

end Sys2Proof.Machine
end

section
/-! PROOFS. The statements about reset, host writes while busy, and two runs of COMPRESS on one text. -/

namespace Sys2Proof.Machine

open Sys2Proof.Safety

/-- Settles O57: every micro-operation of COMPRESS writes what a later one reads, so two runs on one text have the same
arena, map, stream and payload, phase by phase. -/
theorem sameTextGivesTheSamePayload : Obligations.SameTextGivesTheSamePayload := by
  intro s s' t t' k hL hL' hb hb' hlen htext hrun hrun'
  have text : SameText s s' := by
    refine ⟨hlen, ?_⟩
    unfold State.textSymbols
    rw [← hlen]
    exact List.map_congr_left fun i hi => htext i (List.mem_range.1 hi)
  obtain ⟨left, right, -, hphase, operands⟩ := compress_runs_in_lockstep hL hL' hb hb' text hrun hrun'
  have hdone : t.done = t'.done := Bool.eq_iff_iff.2 (left.done_iff.trans (hphase ▸ right.done_iff.symm))
  refine ⟨hdone, hphase, fun hd => ?_⟩
  unfold SameOperands at operands
  rw [left.done_iff.1 hd] at operands
  obtain ⟨herr, hpacked, hpad, hcount, hbytes, hmap⟩ := operands
  exact ⟨herr, hpacked, hpad, hcount, hbytes, hmap⟩

/-- Settles O7: the reset event lists no element, and takes each memory the rule calls unspecified to its next epoch. -/
theorem resetEventFromAnyState : Obligations.ResetEventFromAnyState := fun _ _ hin =>
  ⟨_, step_host hin rfl, rfl, rfl, rfl, rfl, rfl, rfl, rfl, fun _ => Memory.read_clear ..,
    fun _ => Memory.read_forget .., fun _ => Memory.read_forget .., fun _ => Memory.read_forget ..,
    fun _ => Memory.read_forget .., rfl, rfl, rfl⟩

/-- Settles O8: after reset `TEXT_LEN` is 0, on which C.START completes, and the map and the lengths are empty, on which
D.START does. -/
theorem commandsAfterResetGiveEmptyResults : Obligations.CommandsAfterResetGiveEmptyResults := by
  constructor
  · have command := (compress_starts (s := State.reset) resetIsLegal rfl).1
    have empty := (step_engine (s := State.reset.start .cStart) rfl rfl).trans (cStart_empty rfl)
    exact ⟨_, (runSteps_succ command 1).trans (runSteps_succ empty 0), ended_complete _ _, rfl,
      fun _ => Memory.read_clear .., rfl, rfl⟩
  · have command := decompress_starts (s := State.reset) rfl
    have empty := decompress_run_empty (s := State.reset.start .dStart) rfl rfl (mapEmpty_iff.2 fun _ => rfl) rfl rfl
      rfl
    exact ⟨_, (runSteps_succ command 1).trans empty, ended_complete _ _, rfl⟩

/-- Settles O44, by the kinds of host write. -/
theorem writesWhileBusyAreIgnored : Obligations.WritesWhileBusyAreIgnored := by
  intro s e rest hin hwrite hb
  let u : State := { s with inputs := rest }
  cases e with
  | writeReg i v =>
    by_cases h0 : i = 0
    · subst h0
      exact (step_command hin).trans (exec_command_busy (s := u) hb v)
    · exact (step_writeReg hin h0).trans (congrArg _ (hostWriteReg_busy (s := u) hb i v))
  | writeText i v => exact (step_host hin rfl).trans (congrArg _ (hostWriteText_busy (s := u) hb i v))
  | writePacked i v => exact (step_host hin rfl).trans (congrArg _ (hostWritePacked_busy (s := u) hb i v))
  | writeClen i v => exact (step_host hin rfl).trans (congrArg _ (hostWriteClen_busy (s := u) hb i v))
  | writeCbits i v => exact (step_host hin rfl).trans (congrArg _ (hostWriteCbits_busy (s := u) hb i v))
  | read | engine | wait | reset => cases hwrite

end Sys2Proof.Machine
end
